-- ==== Sys2Proof/Word.lean ====
section
/-! DEFINITION. The widths every other file uses: bytes, 64-bit registers, instruction words, and the
containers of the scalable registers (10_state.md R20, R22, R25, R27: the largest architected widths). -/

namespace Sys2Proof

/-- One byte of memory, of the program text or of a register. -/
abbrev Byte := BitVec 8

/-- A 64-bit general-purpose register, SP, pc or FPSR (10_state.md R30, R33, R36). -/
abbrev DWord := BitVec 64

/-- An instruction word (30_encoding.md R80). -/
abbrev IWord := BitVec 32

/-- Container of one Z register or one ZA array vector: 2048 bits is the largest architected length
(40_vector_lengths.md R100). The implemented part is the low MaxZ bits (notes/assumptions/8.md). -/
abbrev VecReg := BitVec 2048

/-- Container of one P register or FFR: one bit per vector byte (10_state.md R22, R23). -/
abbrev PredReg := BitVec 256

/-- The lookup table register (10_state.md R27). -/
abbrev TableReg := BitVec 512

end Sys2Proof
end

