-- ==== Sys2Proof/Config.lean ====
section
/-! DEFINITION. What an implementation fixes (00_scope.md R5: the launch parameters, plain data) and
the free values (draws) the spec leaves open. -/

namespace Sys2Proof

/-- The architected vector lengths: powers of two from 128 to 2048 bits (40_vector_lengths.md R100). -/
inductive VecLen where
  | v128 | v256 | v512 | v1024 | v2048
  deriving DecidableEq, Repr

/-- A vector length in bits. -/
def VecLen.bits : VecLen → Nat
  | .v128 => 128
  | .v256 => 256
  | .v512 => 512
  | .v1024 => 1024
  | .v2048 => 2048

/-- Every architected vector length, smallest first. -/
def VecLen.all : List VecLen := [.v128, .v256, .v512, .v1024, .v2048]

/-- Exception levels, EL0 the least privileged (60_exceptions.md R330). -/
inductive ELevel where
  | el0 | el1 | el2 | el3
  deriving DecidableEq, Repr

/-- The number of an Exception level. -/
def ELevel.num : ELevel → Nat
  | .el0 => 0
  | .el1 => 1
  | .el2 => 2
  | .el3 => 3

/-- Every Exception level. -/
def ELevel.all : List ELevel := [.el0, .el1, .el2, .el3]

/-- Security states (60_exceptions.md R330, from general knowledge). -/
inductive Security where
  | secure | nonSecure | realm | root
  deriving DecidableEq, Repr

/-- A Boolean for each Exception level: the data of a parameter `ExceptionLevel -> Bool` (00_scope.md R5). -/
structure ELFlags where
  el0 : Bool
  el1 : Bool
  el2 : Bool
  el3 : Bool
  deriving DecidableEq, Repr

/-- The flag of a level. -/
def ELFlags.at : ELFlags → ELevel → Bool
  | f, .el0 => f.el0
  | f, .el1 => f.el1
  | f, .el2 => f.el2
  | f, .el3 => f.el3

/-- The same flag at every level. -/
def ELFlags.const (b : Bool) : ELFlags := { el0 := b, el1 := b, el2 := b, el3 := b }

/-- The LEN fields of SMCR_EL1 to SMCR_EL3, or of ZCR_EL1 to ZCR_EL3 (10_state.md R31, R32; the
width of LEN and the three registers are PRESUMED, notes/assumptions/4.md). -/
structure LenFields where
  el1 : BitVec 4
  el2 : BitVec 4
  el3 : BitVec 4
  deriving DecidableEq, Repr

/-- The data of the parameters SelectSVL and SelectNSVL (00_scope.md R5; 40_vector_lengths.md R107,
R108; notes/assumptions/24.md). A table can hold every function of the level and the requests. -/
inductive LenSelect where
  /-- A function given by its entries, `otherwise` where no entry stands. -/
  | table (entries : List ((ELevel × LenFields) × VecLen)) (otherwise : VecLen)
  /-- The steps R107 and R108 give from general knowledge (PRESUMED): carried as a configuration. -/
  | familySteps
  deriving DecidableEq, Repr

/-- The launch parameters (00_scope.md R5, 70_reset_and_hazards.md R351). -/
structure Params where
  haveSVE : Bool
  haveSME : Bool
  haveSME2 : Bool
  haveSVE2p1 : Bool
  haveSMEFA64 : Bool
  /-- MaxSVL (R100). -/
  maxSVL : VecLen
  /-- MaxNSVL (R100). -/
  maxNSVL : VecLen
  /-- SVLSet (R104). -/
  svlSet : List VecLen
  /-- SelectSVL (R107). -/
  selectSVL : LenSelect
  /-- SelectNSVL (R108). -/
  selectNSVL : LenSelect
  /-- FA64Enabled: FEAT_SME_FA64 enabled at the level (10_state.md R39). -/
  fa64Enabled : ELFlags
  /-- SMEAccessEnabled (47_named_instructions.md R281, 60_exceptions.md R325). -/
  smeAccessEnabled : ELFlags
  /-- SVEDisabledOrTrapped, or the level uses AArch32 (40_vector_lengths.md R114). -/
  sveDisabledOrTrapped : ELFlags
  /-- The levels that are implemented and enabled, whose LEN fields bound lower levels (R107). -/
  implemented : ELFlags
  /-- The levels, in the current Security state, at which SVE, SME and floating-point instructions are
  disabled, trapped, or not available (R115). -/
  simdUnavailable : ELFlags
  deriving DecidableEq, Repr

/-- The default instance of 92_eei_decisions.md D1. The fields D1 does not name (`implemented`,
`simdUnavailable`) are DESIGN CHOICES (notes/assumptions/1.md). -/
def Params.default : Params :=
  { haveSVE := true
    haveSME := true
    haveSME2 := true
    haveSVE2p1 := true
    haveSMEFA64 := false
    maxSVL := .v256
    maxNSVL := .v256
    svlSet := [.v128, .v256]
    selectSVL := .table [] .v256
    selectNSVL := .table [] .v128
    fa64Enabled := ELFlags.const false
    smeAccessEnabled := ELFlags.const true
    sveDisabledOrTrapped := ELFlags.const false
    implemented := ELFlags.const true
    simdUnavailable := ELFlags.const false }

/-- The constraints on the parameters (00_scope.md R2, R5; 40_vector_lengths.md R104;
70_reset_and_hazards.md R351): SVLSet holds MaxSVL and nothing longer; FEAT_SME2 and FEAT_SME_FA64
require FEAT_SME, and FEAT_SVE2p1 requires FEAT_SVE. -/
def Params.ok (c : Params) : Bool :=
  c.svlSet.contains c.maxSVL && c.svlSet.all (fun l => decide (l.bits ≤ c.maxSVL.bits))
    && (!c.haveSME2 || c.haveSME) && (!c.haveSMEFA64 || c.haveSME)
    && (!c.haveSVE2p1 || c.haveSVE)

/-- The registers whose newly accessible bits R111 leaves open, each on its own. -/
inductive FillReg where
  | z (n : Fin 32)
  | p (n : Fin 16)
  | ffr
  deriving DecidableEq, Repr

/-- VLIncreaseFill (40_vector_lengths.md R111): at draw event `event`, whether the newly accessible bits
of a register hold the previous value (true) or zero (false). A free value: notes/assumptions/22.md. -/
opaque Config.fillIsPrevious (event : Nat) (r : FillReg) : Bool

/-- ZA array vector `row` after draw event `event`, a change of SVL while PSTATE.ZA is 1
(40_vector_lengths.md R118, D9). A free value: notes/assumptions/23.md. -/
opaque Config.zaAfterSvlChange (event row : Nat) : VecReg

end Sys2Proof
end

