-- ==== Sys2Proof/Syntax.lean ====
section
/-! DEFINITION. The instructions of spec/opcode_table.json, one constructor a row, and their operands
(30_encoding.md R82, R86; 47_named_instructions.md R282, R284-R316). -/

namespace Sys2Proof

/-- Element sizes and their qualifiers .B .H .S .D .Q (30_encoding.md R86). -/
inductive ESize where
  | b | h | s | d | q
  deriving DecidableEq, Repr

/-- Bytes per element. Also the number of ZA tiles of that element size (44_za_storage_and_tiles.md
R200) and the bits of a predicate element (42_predication.md R138, R139). -/
def ESize.bytes : ESize → Nat
  | .b => 1
  | .h => 2
  | .s => 4
  | .d => 8
  | .q => 16

/-- Bits per element. -/
abbrev ESize.bits (es : ESize) : Nat := 8 * es.bytes

/-- Number of slice index offsets of that element size: tile number and offset share four bits
(44_za_storage_and_tiles.md R205). -/
def ESize.offsets (es : ESize) : Nat := 16 / es.bytes

/-- Horizontal or vertical tile slices, the V field (44_za_storage_and_tiles.md R198). -/
inductive SliceDir where
  | horizontal | vertical
  deriving DecidableEq, Repr

/-- The vector select register Wv or slice index register Ws: W12 to W15 (10_state.md R33). -/
inductive SelReg where
  | w12 | w13 | w14 | w15
  deriving DecidableEq, Repr

/-- A base register: X0 to X30, or SP for register number 31 (47_named_instructions.md R282). -/
inductive XnSP where
  | x (n : Fin 31)
  | sp
  deriving DecidableEq, Repr

/-- A source or destination register: X0 to X30, or the zero register for number 31
(47_named_instructions.md R301, R302, R305). -/
inductive XnZR where
  | x (n : Fin 31)
  | zr
  deriving DecidableEq, Repr

/-- The operands of LDR and STR (array vector): `ZA[Wv, offs], [base, #offs, MUL VL]`
(47_named_instructions.md R284, R285). -/
structure ArrayOperands where
  wv   : SelReg
  offs : Fin 16
  base : XnSP
  deriving DecidableEq, Repr

/-- A tile slice operand `ZAtH.T[Ws, offs]` or `ZAtV.T[Ws, offs]` (44_za_storage_and_tiles.md R205).
The ranges of `tile` and `offs` depend on the element size: see WellFormed. -/
structure SliceRef where
  dir  : SliceDir
  tile : Nat
  ws   : SelReg
  offs : Nat
  deriving DecidableEq, Repr

/-- The operands of LD1 and ST1 (tile slice) (47_named_instructions.md R305, R310). -/
structure SliceMemOperands where
  slice : SliceRef
  pg    : Fin 8
  base  : XnSP
  index : XnZR
  deriving DecidableEq, Repr

/-- The operands of MOVA: a tile slice, a governing predicate and a Z register
(47_named_instructions.md R315, R316). -/
structure MovaOperands where
  slice : SliceRef
  pg    : Fin 8
  z     : Fin 32
  deriving DecidableEq, Repr

/-- One constructor per row of spec/opcode_table.json, in the table's order. -/
inductive Instr where
  | ldrArray (a : ArrayOperands)
  | strArray (a : ArrayOperands)
  | zeroTiles (mask : BitVec 8)
  | ldrTable (base : XnSP)
  | strTable (base : XnSP)
  | zeroTable
  | smstartSM
  | smstopSM
  | smstartZA
  | smstopZA
  | smstart
  | smstop
  | msrSVCR (rt : XnZR)
  | mrsSVCR (rt : XnZR)
  | ld1b (a : SliceMemOperands)
  | ld1h (a : SliceMemOperands)
  | ld1w (a : SliceMemOperands)
  | ld1d (a : SliceMemOperands)
  | ld1q (a : SliceMemOperands)
  | st1b (a : SliceMemOperands)
  | st1h (a : SliceMemOperands)
  | st1w (a : SliceMemOperands)
  | st1d (a : SliceMemOperands)
  | st1q (a : SliceMemOperands)
  | movaT2VB (a : MovaOperands)
  | movaT2VH (a : MovaOperands)
  | movaT2VS (a : MovaOperands)
  | movaT2VD (a : MovaOperands)
  | movaT2VQ (a : MovaOperands)
  | movaV2TB (a : MovaOperands)
  | movaV2TH (a : MovaOperands)
  | movaV2TS (a : MovaOperands)
  | movaV2TD (a : MovaOperands)
  | movaV2TQ (a : MovaOperands)
  deriving DecidableEq, Repr

/-- LD1B, LD1H, LD1W, LD1D, LD1Q by element size (47_named_instructions.md R305-R309). -/
def Instr.tileLoad : ESize → SliceMemOperands → Instr
  | .b, a => .ld1b a
  | .h, a => .ld1h a
  | .s, a => .ld1w a
  | .d, a => .ld1d a
  | .q, a => .ld1q a

/-- ST1B, ST1H, ST1W, ST1D, ST1Q by element size (47_named_instructions.md R310-R314). -/
def Instr.tileStore : ESize → SliceMemOperands → Instr
  | .b, a => .st1b a
  | .h, a => .st1h a
  | .s, a => .st1w a
  | .d, a => .st1d a
  | .q, a => .st1q a

/-- MOVA (tile to vector) .B .H .S .D .Q by element size (47_named_instructions.md R315). -/
def Instr.movaToVector : ESize → MovaOperands → Instr
  | .b, a => .movaT2VB a
  | .h, a => .movaT2VH a
  | .s, a => .movaT2VS a
  | .d, a => .movaT2VD a
  | .q, a => .movaT2VQ a

/-- MOVA (vector to tile) .B .H .S .D .Q by element size (47_named_instructions.md R316). -/
def Instr.movaToTile : ESize → MovaOperands → Instr
  | .b, a => .movaV2TB a
  | .h, a => .movaV2TH a
  | .s, a => .movaV2TS a
  | .d, a => .movaV2TD a
  | .q, a => .movaV2TQ a

end Sys2Proof
end

