-- ==== Sys2Proof/WellFormed.lean ====
section
/-! DEFINITION. What an encodable instruction is: the ranges of tile number and slice offset, which
depend on the element size (44_za_storage_and_tiles.md R200, R205). Every other operand's range is in
its type. -/

namespace Sys2Proof

/-- The tile number names a tile of that element size (44_za_storage_and_tiles.md R200). -/
def SliceRef.tileOk (es : ESize) (r : SliceRef) : Bool := decide (r.tile < es.bytes)

/-- The slice offset is one the operand can hold (44_za_storage_and_tiles.md R205). -/
def SliceRef.offsOk (es : ESize) (r : SliceRef) : Bool := decide (r.offs < es.offsets)

/-- A tile slice operand that the encoding admits at that element size. -/
def SliceRef.wf (es : ESize) (r : SliceRef) : Bool := r.tileOk es && r.offsOk es

/-- An instruction that the encoding admits. -/
def Instr.wf : Instr → Bool
  | .ldrArray _ => true
  | .strArray _ => true
  | .zeroTiles _ => true
  | .ldrTable _ => true
  | .strTable _ => true
  | .zeroTable => true
  | .smstartSM => true
  | .smstopSM => true
  | .smstartZA => true
  | .smstopZA => true
  | .smstart => true
  | .smstop => true
  | .msrSVCR _ => true
  | .mrsSVCR _ => true
  | .ld1b a => a.slice.wf .b
  | .ld1h a => a.slice.wf .h
  | .ld1w a => a.slice.wf .s
  | .ld1d a => a.slice.wf .d
  | .ld1q a => a.slice.wf .q
  | .st1b a => a.slice.wf .b
  | .st1h a => a.slice.wf .h
  | .st1w a => a.slice.wf .s
  | .st1d a => a.slice.wf .d
  | .st1q a => a.slice.wf .q
  | .movaT2VB a => a.slice.wf .b
  | .movaT2VH a => a.slice.wf .h
  | .movaT2VS a => a.slice.wf .s
  | .movaT2VD a => a.slice.wf .d
  | .movaT2VQ a => a.slice.wf .q
  | .movaV2TB a => a.slice.wf .b
  | .movaV2TH a => a.slice.wf .h
  | .movaV2TS a => a.slice.wf .s
  | .movaV2TD a => a.slice.wf .d
  | .movaV2TQ a => a.slice.wf .q

end Sys2Proof
end

