-- ==== Sys2Proof/Decode.lean ====
section
/-! DEFINITION. Decoding and encoding of instruction words (30_encoding.md R80-R82, R88;
47_named_instructions.md R280-R316). Every bit pattern is from general knowledge
(notes/assumptions/21.md). -/

namespace Sys2Proof

/-- Why a word is not an instruction of this spec (30_encoding.md R88, 93_implementation_defined.md V1, V6). -/
inductive DecodeError where
  /-- Fewer than four bytes were given. -/
  | truncated
  /-- The SMSTART/SMSTOP pattern with mask = 00: not that instruction (R88). -/
  | svcrMaskZero
  /-- The MOVA pattern with Q = 1 and size other than 11: unallocated (R88). -/
  | movaUnallocated
  /-- A word that matches no row of the opcode table: outside this spec (R88). -/
  | outsideTable
  deriving DecidableEq, Repr

/-- The rows of the opcode table, as names. -/
inductive Opc where
  | ldrArray | strArray | zeroTiles | ldrTable | strTable | zeroTable
  | smstartSM | smstopSM | smstartZA | smstopZA | smstart | smstop | msrSVCR | mrsSVCR
  | ld1 (es : ESize)
  | st1 (es : ESize)
  | movaT2V (es : ESize)
  | movaV2T (es : ESize)
  deriving DecidableEq, Repr

/-- The msz and Q bits of TILE_LDST in place (30_encoding.md R82). -/
def ldstSizeBits : ESize → IWord
  | .b => 0x00000000#32
  | .h => 0x00400000#32
  | .s => 0x00800000#32
  | .d => 0x00C00000#32
  | .q => 0x01C00000#32

/-- The size and Q bits of MOVA in place (47_named_instructions.md R315). -/
def movaSizeBits : ESize → IWord
  | .b => 0x00000000#32
  | .h => 0x00400000#32
  | .s => 0x00800000#32
  | .d => 0x00C00000#32
  | .q => 0x00C10000#32

/-- The fixed bits of each row. -/
def Opc.value : Opc → IWord
  | .ldrArray => 0xE1000000#32
  | .strArray => 0xE1200000#32
  | .zeroTiles => 0xC0080000#32
  | .ldrTable => 0xE11F8000#32
  | .strTable => 0xE13F8000#32
  | .zeroTable => 0xC0480001#32
  | .smstartSM => 0xD503437F#32
  | .smstopSM => 0xD503427F#32
  | .smstartZA => 0xD503457F#32
  | .smstopZA => 0xD503447F#32
  | .smstart => 0xD503477F#32
  | .smstop => 0xD503467F#32
  | .msrSVCR => 0xD51B4240#32
  | .mrsSVCR => 0xD53B4240#32
  | .ld1 es => 0xE0000000#32 ||| ldstSizeBits es
  | .st1 es => 0xE0200000#32 ||| ldstSizeBits es
  | .movaT2V es => 0xC0020000#32 ||| movaSizeBits es
  | .movaV2T es => 0xC0000000#32 ||| movaSizeBits es

/-- Which bits of a word each row fixes. -/
def Opc.mask : Opc → IWord
  | .ldrArray => 0xFFFF9C10#32
  | .strArray => 0xFFFF9C10#32
  | .zeroTiles => 0xFFFFFF00#32
  | .ldrTable => 0xFFFFFC1F#32
  | .strTable => 0xFFFFFC1F#32
  | .zeroTable => 0xFFFFFFFF#32
  | .smstartSM => 0xFFFFFFFF#32
  | .smstopSM => 0xFFFFFFFF#32
  | .smstartZA => 0xFFFFFFFF#32
  | .smstopZA => 0xFFFFFFFF#32
  | .smstart => 0xFFFFFFFF#32
  | .smstop => 0xFFFFFFFF#32
  | .msrSVCR => 0xFFFFFFE0#32
  | .mrsSVCR => 0xFFFFFFE0#32
  | .ld1 _ => 0xFFE00010#32
  | .st1 _ => 0xFFE00010#32
  | .movaT2V _ => 0xFFFF0200#32
  | .movaV2T _ => 0xFFFF0010#32

/-- The rows in the table's order. They are pairwise disjoint, so the order decides nothing (R81). -/
def opcTable : List Opc :=
  [.ldrArray, .strArray, .zeroTiles, .ldrTable, .strTable, .zeroTable,
   .smstartSM, .smstopSM, .smstartZA, .smstopZA, .smstart, .smstop, .msrSVCR, .mrsSVCR,
   .ld1 .b, .ld1 .h, .ld1 .s, .ld1 .d, .ld1 .q,
   .st1 .b, .st1 .h, .st1 .s, .st1 .d, .st1 .q,
   .movaT2V .b, .movaT2V .h, .movaT2V .s, .movaT2V .d, .movaT2V .q,
   .movaV2T .b, .movaV2T .h, .movaV2T .s, .movaV2T .d, .movaV2T .q]

/-- A word matches a row when `(w AND mask) == match` (R81). -/
def Opc.matchesWord (o : Opc) (w : IWord) : Bool := w &&& o.mask == o.value

/-- The `len` bits of a word from bit `lo` up (R81). -/
def wordField (w : IWord) (lo len : Nat) : BitVec len := w.extractLsb' lo len

/-- A 2-bit select register field: W(12 + field). -/
def SelReg.ofField (f : BitVec 2) : SelReg :=
  if f = 0#2 then .w12 else if f = 1#2 then .w13 else if f = 2#2 then .w14 else .w15

/-- The field of a select register. -/
def SelReg.toField : SelReg → BitVec 2
  | .w12 => 0#2
  | .w13 => 1#2
  | .w14 => 2#2
  | .w15 => 3#2

/-- A 5-bit base register field (47_named_instructions.md R282). -/
def XnSP.ofField (f : BitVec 5) : XnSP :=
  if h : f.toNat < 31 then .x ⟨f.toNat, h⟩ else .sp

/-- The field of a base register. -/
def XnSP.toField : XnSP → BitVec 5
  | .x n => BitVec.ofNat 5 n.val
  | .sp => 31#5

/-- A 5-bit register field whose value 31 is the zero register. -/
def XnZR.ofField (f : BitVec 5) : XnZR :=
  if h : f.toNat < 31 then .x ⟨f.toNat, h⟩ else .zr

/-- The field of a register or the zero register. -/
def XnZR.toField : XnZR → BitVec 5
  | .x n => BitVec.ofNat 5 n.val
  | .zr => 31#5

/-- The V field (30_encoding.md R83). -/
def SliceDir.ofField (f : BitVec 1) : SliceDir := if f = 0#1 then .horizontal else .vertical

/-- The V field of a direction. -/
def SliceDir.toField : SliceDir → BitVec 1
  | .horizontal => 0#1
  | .vertical => 1#1

/-- Tile number from the shared 4-bit field (47_named_instructions.md R304). -/
def tileOfField (es : ESize) (ti : BitVec 4) : Nat := ti.toNat / es.offsets

/-- Slice offset from the shared 4-bit field (47_named_instructions.md R304). -/
def offsOfField (es : ESize) (ti : BitVec 4) : Nat := ti.toNat % es.offsets

/-- The shared 4-bit field of a tile number and a slice offset. -/
def tileField (es : ESize) (r : SliceRef) : BitVec 4 := BitVec.ofNat 4 (r.tile * es.offsets + r.offs)

/-- The slice operand of TILE_LDST and MOVA words; `tiLo` is where the ti field starts. -/
def sliceOfWord (es : ESize) (tiLo : Nat) (w : IWord) : SliceRef :=
  { dir := SliceDir.ofField (wordField w 15 1)
    tile := tileOfField es (wordField w tiLo 4)
    ws := SelReg.ofField (wordField w 13 2)
    offs := offsOfField es (wordField w tiLo 4) }

/-- The operands of an LDR or STR (array vector) word. -/
def arrayOfWord (w : IWord) : ArrayOperands :=
  { wv := SelReg.ofField (wordField w 13 2)
    offs := (wordField w 0 4).toFin
    base := XnSP.ofField (wordField w 5 5) }

/-- The operands of an LD1 or ST1 word. -/
def sliceMemOfWord (es : ESize) (w : IWord) : SliceMemOperands :=
  { slice := sliceOfWord es 0 w
    pg := (wordField w 10 3).toFin
    base := XnSP.ofField (wordField w 5 5)
    index := XnZR.ofField (wordField w 16 5) }

/-- The operands of a MOVA (tile to vector) word. -/
def movaT2VOfWord (es : ESize) (w : IWord) : MovaOperands :=
  { slice := sliceOfWord es 5 w
    pg := (wordField w 10 3).toFin
    z := (wordField w 0 5).toFin }

/-- The operands of a MOVA (vector to tile) word. -/
def movaV2TOfWord (es : ESize) (w : IWord) : MovaOperands :=
  { slice := sliceOfWord es 0 w
    pg := (wordField w 10 3).toFin
    z := (wordField w 5 5).toFin }

/-- The instruction of a word that matches row `o`: the fields cut at the row's bit positions (R81). -/
def Opc.build (o : Opc) (w : IWord) : Instr :=
  match o with
  | .ldrArray => .ldrArray (arrayOfWord w)
  | .strArray => .strArray (arrayOfWord w)
  | .zeroTiles => .zeroTiles (wordField w 0 8)
  | .ldrTable => .ldrTable (XnSP.ofField (wordField w 5 5))
  | .strTable => .strTable (XnSP.ofField (wordField w 5 5))
  | .zeroTable => .zeroTable
  | .smstartSM => .smstartSM
  | .smstopSM => .smstopSM
  | .smstartZA => .smstartZA
  | .smstopZA => .smstopZA
  | .smstart => .smstart
  | .smstop => .smstop
  | .msrSVCR => .msrSVCR (XnZR.ofField (wordField w 0 5))
  | .mrsSVCR => .mrsSVCR (XnZR.ofField (wordField w 0 5))
  | .ld1 es => Instr.tileLoad es (sliceMemOfWord es w)
  | .st1 es => Instr.tileStore es (sliceMemOfWord es w)
  | .movaT2V es => Instr.movaToVector es (movaT2VOfWord es w)
  | .movaV2T es => Instr.movaToTile es (movaV2TOfWord es w)

/-- The name under which a word that matches no row is rejected (R88). -/
def rejectName (w : IWord) : DecodeError :=
  if w &&& 0xFFFFFEFF#32 = 0xD503407F#32 then .svcrMaskZero
  else if w &&& 0xFF3F0200#32 = 0xC0030000#32 then .movaUnallocated
  else if w &&& 0xFF3F0010#32 = 0xC0010000#32 then .movaUnallocated
  else .outsideTable

/-- The instruction of a word, or the name of its rejection (R81, R88). -/
def decodeWord (w : IWord) : Except DecodeError Instr :=
  match opcTable.find? (fun o => o.matchesWord w) with
  | some o => .ok (o.build w)
  | none => .error (rejectName w)

/-- The word of four bytes, least significant byte at the lowest address (30_encoding.md R80). -/
def wordOfBytes (b0 b1 b2 b3 : Byte) : IWord := b3 ++ b2 ++ b1 ++ b0

/-- The four bytes of a word, lowest address first. -/
def bytesOfWord (w : IWord) : List Byte :=
  [w.extractLsb' 0 8, w.extractLsb' 8 8, w.extractLsb' 16 8, w.extractLsb' 24 8]

/-- Decoding of any bytes: the first instruction and the rest. -/
def decode : List Byte → Except DecodeError (Instr × List Byte)
  | b0 :: b1 :: b2 :: b3 :: rest =>
    match decodeWord (wordOfBytes b0 b1 b2 b3) with
    | .ok i => .ok (i, rest)
    | .error e => .error e
  | _ => .error .truncated

/-- The row of an instruction. -/
def Instr.opc : Instr → Opc
  | .ldrArray _ => .ldrArray
  | .strArray _ => .strArray
  | .zeroTiles _ => .zeroTiles
  | .ldrTable _ => .ldrTable
  | .strTable _ => .strTable
  | .zeroTable => .zeroTable
  | .smstartSM => .smstartSM
  | .smstopSM => .smstopSM
  | .smstartZA => .smstartZA
  | .smstopZA => .smstopZA
  | .smstart => .smstart
  | .smstop => .smstop
  | .msrSVCR _ => .msrSVCR
  | .mrsSVCR _ => .mrsSVCR
  | .ld1b _ => .ld1 .b
  | .ld1h _ => .ld1 .h
  | .ld1w _ => .ld1 .s
  | .ld1d _ => .ld1 .d
  | .ld1q _ => .ld1 .q
  | .st1b _ => .st1 .b
  | .st1h _ => .st1 .h
  | .st1w _ => .st1 .s
  | .st1d _ => .st1 .d
  | .st1q _ => .st1 .q
  | .movaT2VB _ => .movaT2V .b
  | .movaT2VH _ => .movaT2V .h
  | .movaT2VS _ => .movaT2V .s
  | .movaT2VD _ => .movaT2V .d
  | .movaT2VQ _ => .movaT2V .q
  | .movaV2TB _ => .movaV2T .b
  | .movaV2TH _ => .movaV2T .h
  | .movaV2TS _ => .movaV2T .s
  | .movaV2TD _ => .movaV2T .d
  | .movaV2TQ _ => .movaV2T .q

/-- A field placed at bit `lo` of a word. -/
def placeField {n : Nat} (f : BitVec n) (lo : Nat) : IWord := f.setWidth 32 <<< lo

/-- `Rv<<13 | Rn<<5 | imm4` (47_named_instructions.md R284). -/
def ArrayOperands.fields (a : ArrayOperands) : IWord :=
  placeField a.wv.toField 13 ||| placeField a.base.toField 5 ||| placeField (BitVec.ofNat 4 a.offs.val) 0

/-- `V<<15 | Rs<<13 | ti<<tiLo` (47_named_instructions.md R304). -/
def SliceRef.fields (es : ESize) (tiLo : Nat) (r : SliceRef) : IWord :=
  placeField r.dir.toField 15 ||| placeField r.ws.toField 13 ||| placeField (tileField es r) tiLo

/-- `Rm<<16 | V<<15 | Rs<<13 | Pg<<10 | Rn<<5 | ti` (47_named_instructions.md R305). -/
def SliceMemOperands.fields (es : ESize) (a : SliceMemOperands) : IWord :=
  a.slice.fields es 0 ||| placeField a.index.toField 16 ||| placeField (BitVec.ofNat 3 a.pg.val) 10
    ||| placeField a.base.toField 5

/-- `V<<15 | Rs<<13 | Pg<<10 | ti<<5 | Zd` (47_named_instructions.md R315). -/
def MovaOperands.fieldsT2V (es : ESize) (a : MovaOperands) : IWord :=
  a.slice.fields es 5 ||| placeField (BitVec.ofNat 3 a.pg.val) 10 ||| placeField (BitVec.ofNat 5 a.z.val) 0

/-- `V<<15 | Rs<<13 | Pg<<10 | Zn<<5 | ti` (47_named_instructions.md R316). -/
def MovaOperands.fieldsV2T (es : ESize) (a : MovaOperands) : IWord :=
  a.slice.fields es 0 ||| placeField (BitVec.ofNat 3 a.pg.val) 10 ||| placeField (BitVec.ofNat 5 a.z.val) 5

/-- The operand bits of an instruction. -/
def Instr.fields : Instr → IWord
  | .ldrArray a => a.fields
  | .strArray a => a.fields
  | .zeroTiles m => placeField m 0
  | .ldrTable r => placeField r.toField 5
  | .strTable r => placeField r.toField 5
  | .zeroTable => 0#32
  | .smstartSM => 0#32
  | .smstopSM => 0#32
  | .smstartZA => 0#32
  | .smstopZA => 0#32
  | .smstart => 0#32
  | .smstop => 0#32
  | .msrSVCR r => placeField r.toField 0
  | .mrsSVCR r => placeField r.toField 0
  | .ld1b a => a.fields .b
  | .ld1h a => a.fields .h
  | .ld1w a => a.fields .s
  | .ld1d a => a.fields .d
  | .ld1q a => a.fields .q
  | .st1b a => a.fields .b
  | .st1h a => a.fields .h
  | .st1w a => a.fields .s
  | .st1d a => a.fields .d
  | .st1q a => a.fields .q
  | .movaT2VB a => a.fieldsT2V .b
  | .movaT2VH a => a.fieldsT2V .h
  | .movaT2VS a => a.fieldsT2V .s
  | .movaT2VD a => a.fieldsT2V .d
  | .movaT2VQ a => a.fieldsT2V .q
  | .movaV2TB a => a.fieldsV2T .b
  | .movaV2TH a => a.fieldsV2T .h
  | .movaV2TS a => a.fieldsV2T .s
  | .movaV2TD a => a.fieldsV2T .d
  | .movaV2TQ a => a.fieldsV2T .q

/-- The word of an instruction: the row's fixed bits and the operand fields
(47_named_instructions.md, the encoding lines of R284-R316). -/
def encodeWord (i : Instr) : IWord := i.opc.value ||| i.fields

/-- The bytes of an instruction in memory order. -/
def encode (i : Instr) : List Byte := bytesOfWord (encodeWord i)

/-- What the decoder reads from an instruction whose `nbits` bits are `w`, every bit above being 0.
Every row of the table is one 32-bit word, stored little-endian. -/
def decodeTableWord (nbits w : Nat) : Option Instr :=
  match decode (bytesOfWord (BitVec.ofNat 32 (w % 2 ^ nbits))) with
  | .ok (i, _) => some i
  | .error _ => none

end Sys2Proof
end

