-- ==== Sys2Proof/Machine/State.lean ====
section
/-! DEFINITION. The state of the machine (10_state.md), the reasons a step stops, and the state right
after reset. INVENTORY.md, under State, gives the rule and the reset value of every field. -/

namespace Sys2Proof.Machine

/-- A partial map from byte addresses to bytes: the launch memory (20_memory.md R60) or the program text
(R67). Listed addresses are mapped; an unlisted address has no value (notes/assumptions/6.md). The
canonical form is Memory.wf. -/
abbrev Memory := List Host.Cell

/-- The canonical form of a memory: addresses strictly rising and below 2^64 (20_memory.md R60). An
unlisted address reads as nothing, so no entry equals what an unlisted address reads as. -/
def Memory.wf : Memory → Bool
  | [] => true
  | [c] => decide (c.1 < 2 ^ 64)
  | c :: d :: rest => decide (c.1 < d.1) && Memory.wf (d :: rest)

/-- The state of the PE and of its one data memory. -/
structure State where
  /-- The launch parameters, constant through a run (00_scope.md R5, 70_reset_and_hazards.md R351). -/
  cfg : Params
  /-- The current Exception level (10_state.md R35). -/
  el : ELevel
  /-- The current Security state (10_state.md R35). -/
  sec : Security
  /-- X0 to X30 (10_state.md R33). -/
  x : Vector DWord 31
  /-- The stack pointer (10_state.md R33). -/
  sp : DWord
  /-- The program counter (10_state.md R36). -/
  pc : DWord
  /-- The condition flags, N in bit 3 down to V in bit 0 (10_state.md R34). -/
  nzcv : BitVec 4
  /-- Z0 to Z31, hidden bits included (10_state.md R20, R37, R40). -/
  z : Vector VecReg 32
  /-- P0 to P15, hidden bits included (10_state.md R22, R37). -/
  p : Vector PredReg 16
  /-- The first fault register, hidden bits included (10_state.md R23). -/
  ffr : PredReg
  /-- The floating-point status register (10_state.md R30). -/
  fpsr : DWord
  /-- PSTATE.SM (10_state.md R28). -/
  pstateSM : Bool
  /-- PSTATE.ZA (10_state.md R29). -/
  pstateZA : Bool
  /-- The ZA array vectors ZA[0] to ZA[255]; the first SVLB are the array (10_state.md R25). -/
  za : Vector VecReg 256
  /-- The lookup table register (10_state.md R27). -/
  zt0 : TableReg
  /-- SMCR_ELx.LEN (10_state.md R31). -/
  smcrLen : LenFields
  /-- ZCR_ELx.LEN (10_state.md R32). -/
  zcrLen : LenFields
  /-- The data memory (20_memory.md R60). -/
  mem : Memory
  /-- The program text, outside data memory and fixed at launch (20_memory.md R67). -/
  text : Memory
  /-- The MODEL's own counter of draw events (notes/assumptions/22.md). -/
  draws : Nat
  deriving DecidableEq, Repr

/-- Reasons an SME exception reports (60_exceptions.md R321). -/
inductive SmeReason where
  /-- 0b000: access trapped by a configurable enable. -/
  | accessTrapped
  /-- 0b001: illegal because PSTATE.SM is 1. -/
  | smIsOne
  /-- 0b010: illegal because PSTATE.SM is 0. -/
  | smIsZero
  /-- 0b011: illegal because PSTATE.ZA is 0. -/
  | zaIsZero
  /-- 0b100: access to ZT0 trapped by its enable (never raised: D18). -/
  | zt0Trapped
  deriving DecidableEq, Repr

/-- The faults that end a run. The state is the one before the faulting instruction (60_exceptions.md
R324); each records the pc. -/
inductive Fault where
  /-- The Undefined Instruction exception (R322), raised by an instruction whose feature is absent
  (47_named_instructions.md R281). Safe: the spec's terminal outcome. -/
  | undefinedInstruction (pc : DWord)
  /-- The SME access trap (R325, reason 0b000), raised by any instruction of the table when
  SMEAccessEnabled is false at the current level. Safe: the spec's terminal outcome. -/
  | smeAccessTrap (pc : DWord)
  /-- The SME illegal instruction exception (R320), raised by an instruction whose class is not legal in the
  current PSTATE.SM and PSTATE.ZA. Safe: the spec's terminal outcome. -/
  | smeIllegal (reason : SmeReason) (pc : DWord)
  /-- Stuck: a data access with a byte outside the launch memory or reaching 2^64 (20_memory.md R60),
  raised by loads and stores. Safe: the model stops where hardware might go on. -/
  | outsideLaunchMemory (pc : DWord)
  /-- Stuck: pc is not a multiple of 4 or is outside the program text (30_encoding.md R80), raised by the
  fetch. Safe: the model stops where hardware might go on. -/
  | fetchOutsideText (pc : DWord)
  deriving DecidableEq, Repr

/-- The reasons the model gives an instruction no meaning. Each is safe: the model stops. -/
inductive Refusal where
  /-- An instruction whose arm of exec has no meaning yet, raised by exec. -/
  | notModelled (mnemonic : String)
  /-- A fetched word that is no instruction of this spec (30_encoding.md R88), raised by the step. -/
  | wordOutsideSpec (e : DecodeError)
  /-- A base register that is not a multiple of 16 (20_memory.md R62), raised by LDR and STR. -/
  | misalignedBase
  /-- A start address that is not a multiple of the element size (47_named_instructions.md R305, R310),
  raised by LD1 and ST1. -/
  | misalignedStart
  /-- A store to an address that holds program text (20_memory.md R67), raised by STR and ST1. -/
  | storeToProgramText
  /-- pc + 4 would reach 2^64 (10_state.md R36), raised by every instruction. -/
  | pcWraps
  deriving DecidableEq, Repr

/-- The outcome of an instruction or a step. -/
abbrev Out := Host.Outcome State Fault Refusal

/-- The machine right after reset (10_state.md R41, 70_reset_and_hazards.md R350). The values the spec does
not give are named in notes/assumptions/1.md to 7.md. -/
def State.reset : State :=
  { cfg := Params.default
    el := .el3
    sec := .secure
    x := Vector.replicate 31 0#64
    sp := 0#64
    pc := 0#64
    nzcv := 0#4
    z := Vector.replicate 32 0#2048
    p := Vector.replicate 16 0#256
    ffr := 0#256
    fpsr := 0#64
    pstateSM := false
    pstateZA := false
    za := Vector.replicate 256 0#2048
    zt0 := 0#512
    smcrLen := { el1 := 0#4, el2 := 0#4, el3 := 0#4 }
    zcrLen := { el1 := 0#4, el2 := 0#4, el3 := 0#4 }
    mem := []
    text := []
    draws := 0 }

end Sys2Proof.Machine
end

