-- ==== Sys2Proof/Machine/Bits.lean ====
section
/-! DEFINITION. Bit slices, elements and byte order (00_scope.md R6, R7; 41_vector_registers_scalar_writes.md
R120; 20_memory.md R61). Widths of containers are arbitrary: the same functions serve Z, P, ZA and ZT0. -/

namespace Sys2Proof.Machine

/-- The low `n` bits of a container, the rest zero: `v[n-1:0]` (R6). -/
def lowBits {W : Nat} (n : Nat) (v : BitVec W) : BitVec W := (v.setWidth n).setWidth W

/-- A write of the low `n` bits of a container that leaves the higher bits as they were: bits that are not
accessible are not written (40_vector_lengths.md R110). -/
def mergeLow {W : Nat} (n : Nat) (old new : BitVec W) : BitVec W :=
  ((old >>> n) <<< n) ||| lowBits n new

/-- `Elem(v, e, w)`: element number e of `w` bits (R7). -/
def elem {W : Nat} (v : BitVec W) (e w : Nat) : BitVec w := v.extractLsb' (e * w) w

/-- `SetElem(v, e, w, x)`: v with element number e replaced (R7). -/
def setElem {W : Nat} (v : BitVec W) (e w : Nat) (x : BitVec w) : BitVec W :=
  (v &&& ~~~(((BitVec.allOnes w).setWidth W) <<< (e * w))) ||| ((x.setWidth W) <<< (e * w))

/-- The value whose elements 0 to n-1 of `w` bits are `f 0` to `f (n-1)`, all higher bits zero: the loop
`res <- Zeros; for e in 0..n-1: res <- SetElem(res, e, w, f e)`. -/
def buildElems (W w : Nat) : Nat → (Nat → BitVec w) → BitVec W
  | 0, _ => 0#W
  | n + 1, f => setElem (buildElems W w n f) n w (f n)

/-- The bytes of elements, lowest first: byte j is bits [8j+7:8j] (20_memory.md R61). -/
def leBytes {W : Nat} (v : BitVec W) : Nat → List Byte
  | 0 => []
  | n + 1 => leBytes v n ++ [elem v n 8]

/-- `RoundDown(a, m)` (R7). -/
def roundDown (a m : Nat) : Nat := a - a % m

end Sys2Proof.Machine
end

