-- ==== Sys2Proof/Machine/VectorLength.lean ====
section
/-! DEFINITION. Vector lengths: what is implemented, what is selected, what is accessible, and what happens
when the length changes (40_vector_lengths.md R100-R118; 10_state.md R26). -/

namespace Sys2Proof.Machine

/-- NSVLSet: every architected length up to MaxNSVL (R105). -/
def nsvlSet (c : Params) : List VecLen := VecLen.all.filter (fun l => decide (l.bits ≤ c.maxNSVL.bits))

/-- The LEN requests that bound a level: those of the implemented levels at or above it that have a LEN
field (R107, R108, from general knowledge). Each requests (LEN+1)*128 bits. -/
def lenRequests (c : Params) (r : LenFields) (el : ELevel) : List Nat :=
  (if c.implemented.el1 && decide (el.num ≤ 1) then [(r.el1.toNat + 1) * 128] else [])
    ++ (if c.implemented.el2 && decide (el.num ≤ 2) then [(r.el2.toNat + 1) * 128] else [])
    ++ (if c.implemented.el3 && decide (el.num ≤ 3) then [(r.el3.toNat + 1) * 128] else [])

/-- The smallest of the requests, 2048 where nothing requests. -/
def smallestRequest (rs : List Nat) : Nat := rs.foldl min 2048

/-- The largest architected member of a set that is at most `request` bits, else the set's smallest
architected member (R107, R108, from general knowledge). -/
def familyLength (set : List VecLen) (request : Nat) : Option VecLen :=
  match (VecLen.all.filter (fun l => set.contains l && decide (l.bits ≤ request))).getLast? with
  | some l => some l
  | none => (VecLen.all.filter (fun l => set.contains l)).head?

/-- What a selection parameter answers (R107, R108). -/
def lenAnswer (sel : LenSelect) (c : Params) (set : List VecLen) (el : ELevel) (r : LenFields) :
    Option VecLen :=
  match sel with
  | .table entries dflt => some ((entries.lookup (el, r)).getD dflt)
  | .familySteps => familyLength set (smallestRequest (lenRequests c r el))

/-- The selected length: the parameter's answer where it is a member of the implemented set, else the
largest implemented length (R107, R108: the result is a member of the set). -/
def selectLen (sel : LenSelect) (c : Params) (set : List VecLen) (largest : VecLen) (el : ELevel)
    (r : LenFields) : VecLen :=
  match lenAnswer sel c set el r with
  | some l => if set.contains l then l else largest
  | none => largest

/-- SVL, the Effective Streaming SVE vector length (R103, R107). -/
def State.svl (s : State) : VecLen := selectLen s.cfg.selectSVL s.cfg s.cfg.svlSet s.cfg.maxSVL s.el s.smcrLen

/-- NSVL, the Effective Non-streaming SVE vector length (R103, R108). -/
def State.nsvl (s : State) : VecLen :=
  selectLen s.cfg.selectNSVL s.cfg (nsvlSet s.cfg) s.cfg.maxNSVL s.el s.zcrLen

/-- VL outside Streaming SVE mode: NSVL, or 128 where SVE instructions are disabled or trapped or the
level uses AArch32 (R109, R114), or where FEAT_SVE is not implemented (notes/assumptions/25.md). -/
def State.nonStreamingVL (s : State) : VecLen :=
  if !s.cfg.haveSVE || s.cfg.sveDisabledOrTrapped.at s.el then .v128 else s.nsvl

/-- VL, the Effective SVE vector length (R109). -/
def State.vl (s : State) : VecLen := if s.pstateSM then s.svl else s.nonStreamingVL

/-- SVL in bits. -/
abbrev State.svlBits (s : State) : Nat := s.svl.bits

/-- VL in bits. -/
abbrev State.vlBits (s : State) : Nat := s.vl.bits

/-- PL, the accessible width of a predicate register and of FFR: VL / 8 (R110). -/
abbrev State.plBits (s : State) : Nat := s.vl.bits / 8

/-- SVLB: byte elements in a vector of SVL bits, and the number of ZA array vectors (10_state.md R26). -/
def State.svlB (s : State) : Nat := s.svl.bits / 8

/-- SVLH (10_state.md R26). -/
def State.svlH (s : State) : Nat := s.svl.bits / 16

/-- SVLS (10_state.md R26). -/
def State.svlS (s : State) : Nat := s.svl.bits / 32

/-- SVLD (10_state.md R26). -/
def State.svlD (s : State) : Nat := s.svl.bits / 64

/-- SVLQ (10_state.md R26). -/
def State.svlQ (s : State) : Nat := s.svl.bits / 128

/-- Slices per direction of a tile of that element size, and elements per slice: SVL / esize
(44_za_storage_and_tiles.md R200). -/
def State.tileDim (s : State) (es : ESize) : Nat := s.svl.bits / es.bits

/-- The largest implemented length of the mode PSTATE.SM selects; without FEAT_SVE, 128 bits outside
Streaming SVE mode. -/
def maxLen (c : Params) (streaming : Bool) : VecLen :=
  if streaming then c.maxSVL else if c.haveSVE then c.maxNSVL else .v128

/-- MaxVL: the Maximum implemented SVE vector length of the current mode (R102). -/
def State.maxVL (s : State) : VecLen := maxLen s.cfg s.pstateSM

/-- MaxZ: the widest vector register the PE implements, in bits (10_state.md section 1). -/
def maxZ (c : Params) : Nat :=
  max (maxLen c false).bits (if c.haveSME then c.maxSVL.bits else 128)

/-- One register after an increase of the accessible width from `old` to `new` bits: the bits that become
accessible hold the previous value or zero, the others are unchanged (R111, R113, R117). -/
def fillOnIncrease {W : Nat} (keep : Bool) (old new : Nat) (v : BitVec W) : BitVec W :=
  if keep then v else mergeLow new v (lowBits old v)

/-- `ChangeVL(old, new)` (R117). `preserved` is the condition of R115: the choice of R111 is then the
previous value. -/
def State.changeVL (s : State) (old new : Nat) (preserved : Bool) : State :=
  if new ≤ old then s
  else
    let keep (r : FillReg) : Bool := preserved || Config.fillIsPrevious s.draws r
    { s with
      z := Vector.ofFn fun n => fillOnIncrease (keep (.z n)) old new s.z[n]
      p := Vector.ofFn fun n => fillOnIncrease (keep (.p n)) (old / 8) (new / 8) s.p[n]
      ffr := fillOnIncrease (keep .ffr) (old / 8) (new / 8) s.ffr
      draws := s.draws + 1 }

/-- ZA storage after a change of SVL while PSTATE.ZA is 1: every byte of the array at the new SVL is a draw,
ZT0 is unchanged (R118, D9). -/
def State.redrawZA (s : State) : State :=
  { s with
    za := Vector.ofFn fun k =>
      if k.val < s.svlB then lowBits s.svlBits (Config.zaAfterSvlChange s.draws k.val) else 0#2048
    draws := s.draws + 1 }

/-- The effects of a change of LEN fields or of Exception level on register state: `after` is the state with
the new fields or level and everything else unchanged (R112). -/
def State.afterLengthEvent (s after : State) (preserved : Bool) : State :=
  let t := after.changeVL s.vlBits after.vlBits preserved
  if s.pstateZA && !decide (s.svl = after.svl) then t.redrawZA else t

end Sys2Proof.Machine
end

