-- ==== Sys2Proof/Machine/Ops.lean ====
section
/-! DEFINITION. The named operations over memory and registers, the changes of PSTATE.SM and PSTATE.ZA, and
taking an exception (20_memory.md, 10_state.md, 41_vector_registers_scalar_writes.md,
43_streaming_mode_and_za_enable.md R178, R179, 60_exceptions.md R320-R325). -/

namespace Sys2Proof.Machine

/-! Memory (20_memory.md R60-R67). -/

/-- The byte at an address, none where the address is not mapped (R60). -/
def Memory.byteAt : Memory → Nat → Option Byte
  | [], _ => none
  | c :: rest, a => if c.1 = a then some c.2 else Memory.byteAt rest a

/-- The byte at a mapped address. Callers check the whole request first (R60). -/
def Memory.byteD (m : Memory) (a : Nat) : Byte := (m.byteAt a).getD 0#8

/-- A memory with the byte at one address replaced or added, in canonical form. -/
def Memory.insert : Memory → Nat → Byte → Memory
  | [], a, b => [(a, b)]
  | c :: rest, a, b =>
    if a < c.1 then (a, b) :: c :: rest
    else if c.1 = a then (a, b) :: rest
    else c :: Memory.insert rest a b

/-- Every one of the n bytes from an address is mapped (R60). -/
def Memory.allMapped (m : Memory) (a : Nat) : Nat → Bool
  | 0 => true
  | n + 1 => m.allMapped a n && (m.byteAt (a + n)).isSome

/-- Some one of the n bytes from an address is mapped. -/
def Memory.someMapped (m : Memory) (a : Nat) : Nat → Bool
  | 0 => false
  | n + 1 => m.someMapped a n || (m.byteAt (a + n)).isSome

/-- A request of n bytes that the launch memory admits: every byte mapped, none at or above 2^64 (R60). -/
def Memory.admits (m : Memory) (a n : Nat) : Bool := decide (a + n ≤ 2 ^ 64) && m.allMapped a n

/-- `MemRead(a, n)` as an n-byte value, byte k at bits [8k+7:8k] (R60, R61). -/
def Memory.readLE (m : Memory) (a n : Nat) : BitVec (8 * n) :=
  buildElems (8 * n) 8 n (fun k => m.byteD (a + k))

/-- `MemWrite(a, n, v)`: the bytes in increasing address order (R60, R63). -/
def Memory.writeBytes (m : Memory) (a : Nat) : List Byte → Memory
  | [] => m
  | b :: bs => (m.insert a b).writeBytes (a + 1) bs

/-! General-purpose registers (10_state.md R33, 00_scope.md R8). -/

/-- `x[i]`. -/
def State.readX (s : State) (i : Fin 31) : DWord := s.x[i]

/-- `x[i] <- v`. -/
def State.writeX (s : State) (i : Fin 31) (v : DWord) : State := { s with x := s.x.set i v }

/-- `w[i]`: the low 32 bits of `x[i]`. -/
def State.readW (s : State) (i : Fin 31) : BitVec 32 := (s.readX i).setWidth 32

/-- `w[i] <- v`: the high 32 bits become zero. -/
def State.writeW (s : State) (i : Fin 31) (v : BitVec 32) : State := s.writeX i (v.setWidth 64)

/-- The number of a select register: W12 to W15. -/
def SelReg.num : SelReg → Fin 31
  | .w12 => 12
  | .w13 => 13
  | .w14 => 14
  | .w15 => 15

/-- The unsigned value of a select register (44_za_storage_and_tiles.md R192, R199). -/
def State.sel (s : State) (r : SelReg) : Nat := (s.readW (SelReg.num r)).toNat

/-- `Base(n)`: X0 to X30 or SP (47_named_instructions.md R282). -/
def State.base (s : State) : XnSP → DWord
  | .x n => s.readX n
  | .sp => s.sp

/-- A source register, the zero register reading zero. -/
def State.readXZ (s : State) : XnZR → DWord
  | .x n => s.readX n
  | .zr => 0#64

/-- A destination register, a write to the zero register being discarded. -/
def State.writeXZ (s : State) (r : XnZR) (v : DWord) : State :=
  match r with
  | .x n => s.writeX n v
  | .zr => s

/-! Vector and predicate registers: only the accessible bits are read and written (40_vector_lengths.md
R110; 00_scope.md R8). -/

/-- `Z[n]`: bits [VL-1:0]. -/
def State.readZ (s : State) (n : Fin 32) : VecReg := lowBits s.vlBits s.z[n]

/-- `Z[n] <- v`. -/
def State.writeZ (s : State) (n : Fin 32) (v : VecReg) : State :=
  { s with z := s.z.set n (mergeLow s.vlBits s.z[n] v) }

/-- `P[n]`: bits [PL-1:0]. -/
def State.readP (s : State) (n : Fin 16) : PredReg := lowBits s.plBits s.p[n]

/-- `P[n] <- v`. -/
def State.writeP (s : State) (n : Fin 16) (v : PredReg) : State :=
  { s with p := s.p.set n (mergeLow s.plBits s.p[n] v) }

/-- FFR: bits [PL-1:0]. -/
def State.readFFR (s : State) : PredReg := lowBits s.plBits s.ffr

/-- `FFR <- v`. -/
def State.writeFFR (s : State) (v : PredReg) : State := { s with ffr := mergeLow s.plBits s.ffr v }

/-- The governing predicate named by a 3-bit field: P0 to P7 (42_predication.md R158). -/
def governing (pg : Fin 8) : Fin 16 := ⟨pg.val, by omega⟩

/-- `V[n]`: the 128-bit SIMD&FP register, bits [127:0] of `Zn` (10_state.md R21). -/
def State.readV (s : State) (n : Fin 32) : BitVec 128 := s.z[n].setWidth 128

/-- The narrower views `Dn`, `Sn`, `Hn`, `Bn` (width 64, 32, 16, 8) and `Qn` (128): the low bits of Zn
(10_state.md R21, from general knowledge). -/
def State.readVView (s : State) (n : Fin 32) (w : Nat) : BitVec w := s.z[n].setWidth w

/-- `V[n] <- v`: bits [VL-1:128] become zero, inaccessible bits are not written
(41_vector_registers_scalar_writes.md R124). -/
def State.writeV (s : State) (n : Fin 32) (v : BitVec 128) : State := s.writeZ n (v.setWidth 2048)

/-- A write through a narrower view: the rest of the 128 bits become zero, then R124 applies (from general
knowledge). -/
def State.writeVView (s : State) (n : Fin 32) {w : Nat} (v : BitVec w) : State := s.writeV n (v.setWidth 128)

/-- `ScalarWriteGPR(d, r)`: an N-bit scalar result to a general-purpose register
(41_vector_registers_scalar_writes.md R125, R126). -/
def State.scalarWriteGPR (s : State) (d : Fin 31) {w : Nat} (r : BitVec w) : State := s.writeX d (r.setWidth 64)

/-- `ScalarWriteVec(d, r)`: an N-bit scalar result to element[0] of a vector register, bits [VL-1:N]
becoming zero (41_vector_registers_scalar_writes.md R125, R126). -/
def State.scalarWriteVec (s : State) (d : Fin 32) {w : Nat} (r : BitVec w) : State := s.writeZ d (r.setWidth 2048)

/-! ZA storage (44_za_storage_and_tiles.md R190). -/

/-- `ZA[k]`: array vector k, SVL bits; zero for a number outside the container. -/
def State.zaVec (s : State) (k : Nat) : VecReg :=
  if h : k < 256 then lowBits s.svlBits s.za[k] else 0#2048

/-- Every array vector k replaced by `f k` of its accessible bits; bits at and above SVL are not written. -/
def State.mapZA (s : State) (f : Nat → VecReg → VecReg) : State :=
  { s with za := Vector.ofFn fun k => mergeLow s.svlBits s.za[k] (f k.val (lowBits s.svlBits s.za[k])) }

/-- `ZA[k] <- v`. -/
def State.writeZAVec (s : State) (k : Nat) (v : VecReg) : State :=
  s.mapZA (fun i old => if i = k then v else old)

/-! Changes of PSTATE.SM and PSTATE.ZA. -/

/-- The value of FPSR after a change of PSTATE.SM (43_streaming_mode_and_za_enable.md R164). -/
def fpsrAfterModeChange : DWord := 0x000000000800009F#64

/-- `SetSM(v)` (43_streaming_mode_and_za_enable.md R162-R164, R178). -/
def State.setSM (s : State) (v : Bool) : State :=
  if v = s.pstateSM then s
  else { s with
    pstateSM := v
    z := Vector.replicate 32 0#2048
    p := Vector.replicate 16 0#256
    ffr := 0#256
    fpsr := fpsrAfterModeChange }

/-- `SetZA(v)` (43_streaming_mode_and_za_enable.md R174-R176, R179). When PSTATE.ZA becomes 0 the contents of ZA
storage and ZT0 are discarded: their containers become zero (10_state.md R38; notes/assumptions/31.md). -/
def State.setZA (s : State) (v : Bool) : State :=
  if v = s.pstateZA then s
  else if v then
    { s with
      pstateZA := true
      za := Vector.replicate 256 0#2048
      zt0 := if s.cfg.haveSME2 then 0#512 else s.zt0 }
  else { s with pstateZA := false, za := Vector.replicate 256 0#2048, zt0 := 0#512 }

/-- SVCR read as a 64-bit register: bit 0 is PSTATE.SM, bit 1 is PSTATE.ZA, the rest zero
(47_named_instructions.md R301, R302). -/
def State.svcr (s : State) : DWord := (BitVec.ofBool s.pstateZA ++ BitVec.ofBool s.pstateSM).setWidth 64

/-- A write of SVCR: bits 63:2 are ignored (47_named_instructions.md R301). -/
def State.writeSvcr (s : State) (v : DWord) : State := (s.setSM (v.getLsbD 0)).setZA (v.getLsbD 1)

/-! Exceptions and completion. -/

/-- The synchronous exceptions of this spec (60_exceptions.md R323). -/
inductive SyncException where
  /-- Undefined Instruction (R322). -/
  | undefinedInstr
  /-- The SME access trap (R325). -/
  | accessTrap
  /-- The SME illegal instruction exception with its reason (R320, R321). -/
  | smeIllegalInstr (reason : SmeReason)
  deriving DecidableEq, Repr

/-- Taking an exception: a terminal outcome `Fault(kind, info, pc)` with every piece of state as it was
before the instruction; nothing is saved, no handler runs, and there is no return
(60_exceptions.md R324, R326, R328; notes/assumptions/11.md). -/
def takeException (e : SyncException) (s : State) : Out :=
  match e with
  | .undefinedInstr => .fault (.undefinedInstruction s.pc)
  | .accessTrap => .fault (.smeAccessTrap s.pc)
  | .smeIllegalInstr r => .fault (.smeIllegal r s.pc)

/-- The reason code (SMTC) of a reason (60_exceptions.md R321). -/
def SmeReason.code : SmeReason → BitVec 3
  | .accessTrapped => 0b000#3
  | .smIsOne => 0b001#3
  | .smIsZero => 0b010#3
  | .zaIsZero => 0b011#3
  | .zt0Trapped => 0b100#3

/-- The exception class EC a fault is reported with, none where the model is stuck (60_exceptions.md R320,
R322, R323, from general knowledge). -/
def Fault.exceptionClass : Fault → Option (BitVec 6)
  | .undefinedInstruction _ => some 0x00#6
  | .smeAccessTrap _ => some 0x1D#6
  | .smeIllegal _ _ => some 0x1D#6
  | .outsideLaunchMemory _ => none
  | .fetchOutsideText _ => none

/-- The reason a fault records (60_exceptions.md R321, R323). -/
def Fault.reason : Fault → Option SmeReason
  | .undefinedInstruction _ => none
  | .smeAccessTrap _ => some .accessTrapped
  | .smeIllegal r _ => some r
  | .outsideLaunchMemory _ => none
  | .fetchOutsideText _ => none

/-- The last step of every instruction: `pc <- pc + 4`, refused where it would reach 2^64
(10_state.md R36, 47_named_instructions.md R281). -/
def complete (s : State) : Out :=
  if s.pc.toNat + 4 < 2 ^ 64 then .next { s with pc := s.pc + 4#64 } else .refused .pcWraps

/-- The next state of an outcome, if it is one. -/
def nextState : Out → Option State
  | .next s => some s
  | .fault _ => none
  | .refused _ => none

end Sys2Proof.Machine
end

