-- ==== Sys2Proof/Machine/Legality.lean ====
section
/-! DEFINITION. Which instructions may execute in which state, and the steps common to every instruction
(43_streaming_mode_and_za_enable.md R165-R169, R172, R173, R177; 47_named_instructions.md R281;
60_exceptions.md R321, R325). -/

namespace Sys2Proof.Machine

/-- The classes of instruction of the legality table (R177). -/
inductive LegalClass where
  /-- SME or SME2, accesses Streaming SVE register state and neither ZA storage nor ZT0. -/
  | k1
  /-- LDR, STR (array vector), ZERO (tiles), LDR, STR, ZERO (table). -/
  | k2
  /-- Any other instruction that accesses ZA storage or ZT0. -/
  | k3
  /-- SME or SME2, accesses none of Streaming SVE register state, ZA storage, ZT0. -/
  | k4
  /-- NonStreamingOnly instructions (R169). -/
  | k5
  /-- Every other instruction. -/
  | k6
  deriving DecidableEq, Repr

/-- The legality table: none where the class is legal, else the reason reported. The check of PSTATE.SM comes
before the check of PSTATE.ZA (R177; 60_exceptions.md R321, D16). -/
def illegalReason (k : LegalClass) (sm za fa64 : Bool) : Option SmeReason :=
  match k with
  | .k1 => if sm then none else some .smIsZero
  | .k2 => if za then none else some .zaIsZero
  | .k3 => if sm then (if za then none else some .zaIsZero) else some .smIsZero
  | .k4 => none
  | .k5 => if sm && !fa64 then some .smIsOne else none
  | .k6 => none

/-- FEAT_SME_FA64 is implemented and enabled at the current Exception level (R169; 10_state.md R39). -/
def State.fa64Active (s : State) : Bool := s.cfg.haveSMEFA64 && s.cfg.fa64Enabled.at s.el

/-- The steps before an instruction's own effect, in order: the feature check, the configurable access
check, the legality check (47_named_instructions.md R281; 60_exceptions.md R325). -/
def checked (feature : Bool) (k : LegalClass) (s : State) (effect : Out) : Out :=
  if !feature then takeException .undefinedInstr s
  else if !(s.cfg.smeAccessEnabled.at s.el) then takeException .accessTrap s
  else
    match illegalReason k s.pstateSM s.pstateZA s.fa64Active with
    | some r => takeException (.smeIllegalInstr r) s
    | none => effect

/-- The class of an instruction (47_named_instructions.md R284-R316). SMSTART, SMSTOP, MSR SVCR and MRS SVCR
are in none of K1 to K5 (R300). -/
def legalClass : Instr → LegalClass
  | .ldrArray _ => .k2
  | .strArray _ => .k2
  | .zeroTiles _ => .k2
  | .ldrTable _ => .k2
  | .strTable _ => .k2
  | .zeroTable => .k2
  | .smstartSM => .k6
  | .smstopSM => .k6
  | .smstartZA => .k6
  | .smstopZA => .k6
  | .smstart => .k6
  | .smstop => .k6
  | .msrSVCR _ => .k6
  | .mrsSVCR _ => .k6
  | .ld1b _ => .k3
  | .ld1h _ => .k3
  | .ld1w _ => .k3
  | .ld1d _ => .k3
  | .ld1q _ => .k3
  | .st1b _ => .k3
  | .st1h _ => .k3
  | .st1w _ => .k3
  | .st1d _ => .k3
  | .st1q _ => .k3
  | .movaT2VB _ => .k3
  | .movaT2VH _ => .k3
  | .movaT2VS _ => .k3
  | .movaT2VD _ => .k3
  | .movaT2VQ _ => .k3
  | .movaV2TB _ => .k3
  | .movaV2TH _ => .k3
  | .movaV2TS _ => .k3
  | .movaV2TD _ => .k3
  | .movaV2TQ _ => .k3

/-- The feature of an instruction is implemented: FEAT_SME2 for the table instructions, FEAT_SME for the
others (47_named_instructions.md R281). -/
def featurePresent (c : Params) : Instr → Bool
  | .ldrTable _ => c.haveSME2
  | .strTable _ => c.haveSME2
  | .zeroTable => c.haveSME2
  | .ldrArray _ => c.haveSME
  | .strArray _ => c.haveSME
  | .zeroTiles _ => c.haveSME
  | .smstartSM => c.haveSME
  | .smstopSM => c.haveSME
  | .smstartZA => c.haveSME
  | .smstopZA => c.haveSME
  | .smstart => c.haveSME
  | .smstop => c.haveSME
  | .msrSVCR _ => c.haveSME
  | .mrsSVCR _ => c.haveSME
  | .ld1b _ => c.haveSME
  | .ld1h _ => c.haveSME
  | .ld1w _ => c.haveSME
  | .ld1d _ => c.haveSME
  | .ld1q _ => c.haveSME
  | .st1b _ => c.haveSME
  | .st1h _ => c.haveSME
  | .st1w _ => c.haveSME
  | .st1d _ => c.haveSME
  | .st1q _ => c.haveSME
  | .movaT2VB _ => c.haveSME
  | .movaT2VH _ => c.haveSME
  | .movaT2VS _ => c.haveSME
  | .movaT2VD _ => c.haveSME
  | .movaT2VQ _ => c.haveSME
  | .movaV2TB _ => c.haveSME
  | .movaV2TH _ => c.haveSME
  | .movaV2TS _ => c.haveSME
  | .movaV2TD _ => c.haveSME
  | .movaV2TQ _ => c.haveSME

end Sys2Proof.Machine
end

