-- ==== Sys2Proof/Machine/Predicates.lean ====
section
/-! DEFINITION. Vector predication: predicate-as-mask, predicate-as-counter, Active elements and predicated
writes (42_predication.md R130-R158). -/

namespace Sys2Proof.Machine

/-! Predicate-as-mask (R131-R139). A predicate element has one bit per vector byte. -/

/-- Predicate-as-mask exists if FEAT_SVE or FEAT_SME is implemented (R130). -/
def hasPredicateMask (c : Params) : Bool := c.haveSVE || c.haveSME

/-- Predicate-as-counter exists if FEAT_SME2 or FEAT_SVE2p1 is implemented (R130). -/
def hasPredicateCounter (c : Params) : Bool := c.haveSME2 || c.haveSVE2p1

/-- `PredElem(p, e, esize)`: the whole predicate element (R138). -/
def predElem (p : PredReg) (e : Nat) (es : ESize) : BitVec es.bytes := elem p e es.bytes

/-- `PredBit(p, e, esize)`: the lowest-numbered bit of a predicate element, which alone decides TRUE or FALSE
(R134, R135, R137, R138; 16-bit predicate elements for .Q, R139). -/
def predBit (p : PredReg) (e : Nat) (es : ESize) : Bool := p.getLsbD (e * es.bytes)

/-- The Booleans of the first n elements of a mask, element 0 first. -/
def maskToBools (p : PredReg) (es : ESize) (n : Nat) : List Bool := (List.range n).map (fun e => predBit p e es)

/-- `MaskFromBools(b, esize)`: the canonical form a generating instruction writes (R136). -/
def maskFromBools (b : List Bool) (es : ESize) : PredReg :=
  buildElems 256 es.bytes b.length (fun e => BitVec.ofNat es.bytes (if b.getD e false then 1 else 0))

/-- `Active(e)` for a governing predicate P0 to P7 read as a mask (R154, R158). -/
def State.active (s : State) (pg : Fin 8) (es : ESize) (e : Nat) : Bool := predBit (s.readP (governing pg)) e es

/-! Predicate-as-counter (R140-R150). -/

/-- `CounterSize(pn)`: LSZ and element size from bits [3:0], none for 0b0000 (R141). -/
def counterSize (pn : BitVec 16) : Option (Nat × ESize) :=
  if pn.getLsbD 0 then some (0, .b)
  else if pn.getLsbD 1 then some (1, .h)
  else if pn.getLsbD 2 then some (2, .s)
  else if pn.getLsbD 3 then some (3, .d)
  else none

/-- The position of the highest count bit a consumer uses: log2(VL / 2) (R149, the table). -/
def counterMaxBit : VecLen → Nat
  | .v128 => 6
  | .v256 => 7
  | .v512 => 8
  | .v1024 => 9
  | .v2048 => 10

/-- The element count a consumer uses: bits [maxbit:(LSZ+1)] (R142, R149 reading (A), D12). -/
def counterCount (pn : BitVec 16) (vl : VecLen) (lsz : Nat) : Nat :=
  (pn.extractLsb' (lsz + 1) (counterMaxBit vl - lsz)).toNat

/-- Element e of a counter of nonzero size: `(e < count) XOR (invert == 1)` (R143). -/
def counterBit (pn : BitVec 16) (vl : VecLen) (lsz e : Nat) : Bool :=
  xor (decide (e < counterCount pn vl lsz)) (pn.getLsbD 15)

/-- `CounterToBools(pn, VL, nvec)` for a consumer of element size `es`: the Booleans of nvec vectors, element
0 first; none where the encoded size differs from the consumer's, which the model refuses
(R145, R150, 93_implementation_defined.md V7). -/
def counterToBools (pn : BitVec 16) (vl : VecLen) (nvec : Nat) (es : ESize) : Option (List Bool) :=
  match counterSize pn with
  | none => some (List.replicate (nvec * vl.bits / es.bits) false)
  | some (lsz, size) =>
    if size = es then some ((List.range (nvec * vl.bits / es.bits)).map (fun e => counterBit pn vl lsz e))
    else none

/-- LSZ of an element size that a counter can hold (R141); .Q has none. -/
def counterLsz : ESize → Option Nat
  | .b => some 0
  | .h => some 1
  | .s => some 2
  | .d => some 3
  | .q => none

/-- `CounterEncode(invert, count, esize)` of LSZ: `invert : zext_(14-LSZ)(count) : 0b1 : Zeros(LSZ)`
(R150; unused bits zero, D11). R150 gives count no range: that a count of 2^(14-LSZ) or more is taken modulo 2^(14-LSZ),
and that one of 2^(10-LSZ) or more reaches the reserved bits [14:11], is a DESIGN CHOICE (notes/assumptions/55.md).
An LSZ is 0 to 3 (R141). -/
def counterEncode (invert : Bool) (count lsz : Nat) : BitVec 16 :=
  ((BitVec.ofBool invert).setWidth 16 <<< 15) ||| ((BitVec.ofNat (14 - lsz) count).setWidth 16 <<< (lsz + 1))
    ||| (1#16 <<< lsz)

/-- The canonical all-FALSE counter (R145). -/
def counterAllFalse : BitVec 16 := 0#16

/-- The canonical all-TRUE counter of an LSZ: 0x8001, 0x8002, 0x8004, 0x8008 (R146). -/
def counterAllTrue (lsz : Nat) : BitVec 16 := counterEncode true 0 lsz

/-- A consumer reads bits [15:0] of the register only (R140, R148). -/
def State.readCounter (s : State) (g : Fin 16) : BitVec 16 := (s.readP g).setWidth 16

/-- The governing predicate-as-counter named by a 3-bit field: PN8 to PN15, the field value plus 8
(30_encoding.md R85; notes/assumptions/47.md). -/
def governingCounter (png : Fin 8) : Fin 16 := ⟨png.val + 8, by omega⟩

/-- The Booleans of a governing counter PN8 to PN15 at the current VL, for a consumer of element size `es` that
governs nvec vectors (R150; 30_encoding.md R85). -/
def State.governingBools (s : State) (png : Fin 8) (nvec : Nat) (es : ESize) : Option (List Bool) :=
  counterToBools (s.readCounter (governingCounter png)) s.vl nvec es

/-- A generator writes bits 16 and higher as zero (R147). -/
def State.writeCounter (s : State) (g : Fin 16) (pn : BitVec 16) : State := s.writeP g (pn.setWidth 256)

/-- `Active(e)` of vector `v` of a multi-vector operand governed by a counter: element `e` of vector `v` is
governed by element `v * (VL / esize) + e` of the list (R150, R154). -/
def counterActive (bools : List Bool) (vl : VecLen) (es : ESize) (v e : Nat) : Bool :=
  bools.getD (v * (vl.bits / es.bits) + e) false

/-! Predicated writes (R155-R157). -/

/-- What happens to Inactive elements of a destination (R157). -/
inductive PredMode where
  /-- Zeroing predication: Inactive elements become zero. -/
  | zeroing
  /-- Merging predication: Inactive elements keep their value. -/
  | merging
  deriving DecidableEq, Repr

/-- `PredicatedWrite(dest_old, result, active, esize, mode)` over n elements of w bits; for a predicate
destination w is the predicate element size (R157). -/
def predicatedWrite {W : Nat} (old result : BitVec W) (active : Nat → Bool) (w n : Nat) (mode : PredMode) : BitVec W :=
  buildElems W w n (fun e =>
    if active e then elem result e w
    else match mode with
      | .zeroing => 0#w
      | .merging => elem old e w)

end Sys2Proof.Machine
end

