-- ==== Sys2Proof/Machine/Operands.lean ====
section
/-! DEFINITION. Operand forms: array vector and slice selection, slices of ZA tiles, Z multi-vector, ZA
multi-slice and ZA multi-vector operands (44_za_storage_and_tiles.md R190-R210;
45_multi_vector_operands.md R230-R269). -/

namespace Sys2Proof.Machine

/-! ZA array vectors and tile slices. -/

/-- `SelectVector(v, offs)`: (UInt(w[v]) + offs) mod SVLB (44_za_storage_and_tiles.md R192). -/
def State.selectVector (s : State) (wv : SelReg) (offs : Nat) : Nat := (s.sel wv + offs) % s.svlB

/-- `SelectSlice(s, offs, esize)`: (UInt(w[s]) + offs) mod (SVL / esize) (44_za_storage_and_tiles.md R199). -/
def State.selectSlice (s : State) (ws : SelReg) (offs : Nat) (es : ESize) : Nat := (s.sel ws + offs) % s.tileDim es

/-- The ZA array vector that is horizontal slice N of tile t (44_za_storage_and_tiles.md R203). -/
def hSliceVector (t n : Nat) (es : ESize) : Nat := t + es.bytes * n

/-- `ReadHSlice(t, N, esize)` (44_za_storage_and_tiles.md R203). -/
def State.readHSlice (s : State) (t n : Nat) (es : ESize) : VecReg := s.zaVec (hSliceVector t n es)

/-- `WriteHSlice(t, N, esize, v)` (44_za_storage_and_tiles.md R203). -/
def State.writeHSlice (s : State) (t n : Nat) (es : ESize) (v : VecReg) : State := s.writeZAVec (hSliceVector t n es) v

/-- `ReadVSlice(t, N, esize)`: element i is element N of horizontal slice i
(44_za_storage_and_tiles.md R204, D13). -/
def State.readVSlice (s : State) (t n : Nat) (es : ESize) : VecReg :=
  buildElems 2048 es.bits (s.tileDim es) (fun i => elem (s.zaVec (hSliceVector t i es)) n es.bits)

/-- `WriteVSlice(t, N, esize, v)`: element N of horizontal slice i becomes element i of v; array vector k is
horizontal slice i of tile t when k = t + (esize/8) * i (44_za_storage_and_tiles.md R204). -/
def State.writeVSlice (s : State) (t n : Nat) (es : ESize) (v : VecReg) : State :=
  s.mapZA (fun k old =>
    if t ≤ k ∧ (k - t) % es.bytes = 0 ∧ (k - t) / es.bytes < s.tileDim es then
      setElem old n es.bits (elem v ((k - t) / es.bytes) es.bits)
    else old)

/-- `ReadSlice(V, t, k, esize)` (47_named_instructions.md R304). -/
def State.readSlice (s : State) (dir : SliceDir) (t n : Nat) (es : ESize) : VecReg :=
  match dir with
  | .horizontal => s.readHSlice t n es
  | .vertical => s.readVSlice t n es

/-- `WriteSlice(V, t, k, esize, v)` (47_named_instructions.md R304). -/
def State.writeSlice (s : State) (dir : SliceDir) (t n : Nat) (es : ESize) (v : VecReg) : State :=
  match dir with
  | .horizontal => s.writeHSlice t n es v
  | .vertical => s.writeVSlice t n es v

/-- Array vector k as a horizontal slice of an element size: tile number and slice number
(44_za_storage_and_tiles.md R203, R206). -/
def vectorAsSlice (k : Nat) (es : ESize) : Nat × Nat := (k % es.bytes, k / es.bytes)

/-- Array vector k lies in tile t of an element size (44_za_storage_and_tiles.md R207). -/
def tileHasVector (t : Nat) (es : ESize) (k : Nat) : Bool := decide (k % es.bytes = t)

/-- Two tiles share ZA storage (44_za_storage_and_tiles.md R207): tile `a` of element size `x`, tile `b` of
element size `y`. -/
def tilesOverlap (a : Nat) (x : ESize) (b : Nat) (y : ESize) : Bool :=
  if x.bytes ≤ y.bytes then decide (b % x.bytes = a) else decide (a % y.bytes = b)

/-- The ZA array vector of the element at tile row r (44_za_storage_and_tiles.md R210). -/
def elementVector (t r : Nat) (es : ESize) : Nat := t + es.bytes * r

/-- The first byte column of the element at tile column c (44_za_storage_and_tiles.md R210). -/
def elementByte (c : Nat) (es : ESize) : Nat := es.bytes * c

/-! Z multi-vector operands. -/

/-- k consecutively numbered Z registers, the numbering wrapping from 31 to 0
(45_multi_vector_operands.md R233, R234). -/
def zConsecutive (k : Nat) (n : Fin 32) : List (Fin 32) :=
  (List.range k).map (fun x => ⟨(n.val + x) % 32, Nat.mod_lt _ (by decide)⟩)

/-- Register number r, wrapped into range. -/
def zReg (r : Nat) : Fin 32 := ⟨r % 32, Nat.mod_lt _ (by decide)⟩

/-- Two Z registers with strided numbering: the first in Z0-Z7 or Z16-Z23, the second 8 higher; none for
another first register (45_multi_vector_operands.md R235). -/
def zStrided2 (n : Fin 32) : Option (List (Fin 32)) :=
  if n.val < 8 ∨ (16 ≤ n.val ∧ n.val < 24) then some [n, zReg (n.val + 8)] else none

/-- Four Z registers with strided numbering: the first in Z0-Z3 or Z16-Z19, each next 4 higher; none for
another first register (45_multi_vector_operands.md R236). -/
def zStrided4 (n : Fin 32) : Option (List (Fin 32)) :=
  if n.val < 4 ∨ (16 ≤ n.val ∧ n.val < 20) then
    some [n, zReg (n.val + 4), zReg (n.val + 8), zReg (n.val + 12)]
  else none

/-! ZA multi-slice operands. -/

/-- One, two or four: slices of a multi-slice operand, groups of a multi-vector operand, vectors of a group
(45_multi_vector_operands.md R240, R251, R252). One slice, or one group of one vector, is no multi-slice or
multi-vector operand: the functions then give the plain slice or array vector (notes/assumptions/53.md). -/
inductive GroupNum where
  | one | two | four
  deriving DecidableEq, Repr

/-- The number. -/
def GroupNum.val : GroupNum → Nat
  | .one => 1
  | .two => 2
  | .four => 4

/-- The slices of a ZA multi-slice operand whose Ws + offs is `sum`, or the Undefined exception where the
tile has fewer slices than the operand (45_multi_vector_operands.md R242-R244; 30_encoding.md R89). -/
def multiSlice (svl : VecLen) (sum : Nat) (es : ESize) (k : GroupNum) : Except SyncException (List Nat) :=
  let dim := svl.bits / es.bits
  if dim < k.val then .error .undefinedInstr
  else .ok ((List.range k.val).map (fun j => roundDown sum k.val % dim + j))

/-- The ZA multi-slice operand selected by Ws (W12 to W15: 10_state.md R33) and offs1 at the current SVL
(45_multi_vector_operands.md R243). The source gives offs1 no range (R245; 91_not_in_source.md N10): the function takes
every natural number, a DESIGN CHOICE (notes/assumptions/46.md); the offsets N10 names are those of
`multiSliceOffsOk`. -/
def State.multiSliceOperand (s : State) (ws : SelReg) (offs : Nat) (es : ESize) (k : GroupNum) :
    Except SyncException (List Nat) :=
  multiSlice s.svl (s.sel ws + offs) es k

/-! ZA multi-vector operands. -/

/-- The vector select register Wv of the multi-vector forms: W8 to W11 (10_state.md R33;
notes/assumptions/45.md). -/
inductive GroupSelReg where
  | w8 | w9 | w10 | w11
  deriving DecidableEq, Repr

/-- The number of a vector select register of the multi-vector forms. -/
def GroupSelReg.num : GroupSelReg → Fin 31
  | .w8 => 8
  | .w9 => 9
  | .w10 => 10
  | .w11 => 11

/-- The unsigned value of a vector select register of the multi-vector forms (45_multi_vector_operands.md R254). -/
def State.groupSel (s : State) (r : GroupSelReg) : Nat := (s.readW r.num).toNat

/-- The lowest-numbered vector of a ZA multi-vector operand: the sum modulo SVLB / ng, rounded down to a
multiple of the group size (45_multi_vector_operands.md R254, R268, D14). -/
def multiVectorFirst (svlB sum : Nat) (ng gs : GroupNum) : Nat := roundDown (sum % (svlB / ng.val)) gs.val

/-- `ZAMultiVector(v, offs, ng, gs)`: for each of the ng groups its gs array vector numbers
(45_multi_vector_operands.md R255-R264, R267). -/
def zaMultiVector (svlB sum : Nat) (ng gs : GroupNum) : List (List Nat) :=
  (List.range ng.val).map (fun g =>
    (List.range gs.val).map (fun j => g * (svlB / ng.val) + multiVectorFirst svlB sum ng gs + j))

/-- The ZA multi-vector operand selected by Wv and offs at the current SVL (45_multi_vector_operands.md R254). -/
def State.multiVectorOperand (s : State) (wv : GroupSelReg) (offs : Nat) (ng gs : GroupNum) : List (List Nat) :=
  zaMultiVector s.svlB (s.groupSel wv + offs) ng gs

/-- The number of vector groups that goes with a Z multi-vector operand: the number of its registers, two or four
(45_multi_vector_operands.md R231, R253). -/
def groupCount (zs : List (Fin 32)) : Option GroupNum :=
  if zs.length = 2 then some .two else if zs.length = 4 then some .four else none

/-- Which Z register goes with which vector group: group g with register g; none where there are not as many groups
as registers (45_multi_vector_operands.md R253). -/
def groupPairs (zs : List (Fin 32)) (groups : List (List Nat)) : Option (List (Fin 32 × List Nat)) :=
  if zs.length = groups.length then some (zs.zip groups) else none

/-- The ZA multi-vector operand that an instruction accesses together with the Z multi-vector operand `zs`: as many
groups as `zs` has registers, group g with register g; none where `zs` has neither two nor four registers
(45_multi_vector_operands.md R253, R254). -/
def State.groupedOperand (s : State) (zs : List (Fin 32)) (wv : GroupSelReg) (offs : Nat) (gs : GroupNum) :
    Option (List (Fin 32 × List Nat)) :=
  (groupCount zs).bind (fun ng => groupPairs zs (s.multiVectorOperand wv offs ng gs))

/-- The element sizes T of a ZA multi-vector operand: one of B, H, S or D, never Q
(45_multi_vector_operands.md R257, R261, R265; 30_encoding.md R86). -/
inductive GroupESize where
  | b | h | s | d
  deriving DecidableEq, Repr

/-- The element size. -/
def GroupESize.toESize : GroupESize → ESize
  | .b => .b
  | .h => .h
  | .s => .s
  | .d => .d

/-! The ranges of the immediate offsets (30_encoding.md R87). -/

/-- The first offsets offs1 of a ZA multi-slice operand of k slices that 91_not_in_source.md N10 names: the multiples
of k whose last offset is below the number of slices `dim` (45_multi_vector_operands.md R245; notes/assumptions/46.md). -/
def multiSliceOffsOk (dim : Nat) (k : GroupNum) (offs : Nat) : Bool :=
  decide (offs % k.val = 0 ∧ offs + k.val ≤ dim)

/-- The vector select offsets of the preferred disassembly of a ZA multi-vector operand
(45_multi_vector_operands.md R257, R261, R265). -/
def multiVectorOffsOk (ng gs : GroupNum) (offs : Nat) : Bool :=
  match gs, ng with
  | .one, .one => decide (offs < 16)
  | .one, _ => decide (offs < 8)
  | .two, .one => decide (offs ≤ 14 ∧ offs % 2 = 0)
  | .two, _ => decide (offs ≤ 6 ∧ offs % 2 = 0)
  | .four, .one => decide (offs ≤ 12 ∧ offs % 4 = 0)
  | .four, _ => decide (offs = 0 ∨ offs = 4)

end Sys2Proof.Machine
end

