-- ==== Sys2Proof/Machine/ArrayVector.lean ====
section
/-! DEFINITION. The instructions on ZA array vectors and tiles that are legal whenever PSTATE.ZA is 1: LDR and
STR (array vector), ZERO (tiles) (47_named_instructions.md R284-R286). -/

namespace Sys2Proof.Machine

/-- The base register is a multiple of 16 (20_memory.md R62). -/
def State.baseAligned (s : State) (r : XnSP) : Bool := decide ((s.base r).toNat % 16 = 0)

/-- The first byte address of LDR and STR (array vector): Base(Rn) + offs * SVLB modulo 2^64
(R284; R282, notes/assumptions/14.md). -/
def State.arrayAddr (s : State) (a : ArrayOperands) : Nat :=
  (s.base a.base + BitVec.ofNat 64 (a.offs.val * s.svlB)).toNat

/-- A store of bytes from an address, checked whole before any byte is written: refused where a byte holds
program text, stuck where one is outside the launch memory (20_memory.md R60, R67). -/
def storeBytes (s : State) (addr : Nat) (bytes : List Byte) : Out :=
  if s.text.someMapped addr bytes.length then .refused .storeToProgramText
  else if !(s.mem.admits addr bytes.length) then .fault (.outsideLaunchMemory s.pc)
  else complete { s with mem := s.mem.writeBytes addr bytes }

/-- The own effect of LDR (array vector) (R284). -/
def loadArrayVector (a : ArrayOperands) (s : State) : Out :=
  if !(s.baseAligned a.base) then .refused .misalignedBase
  else if !(s.mem.admits (s.arrayAddr a) s.svlB) then .fault (.outsideLaunchMemory s.pc)
  else complete (s.writeZAVec (s.selectVector a.wv a.offs.val)
    (buildElems 2048 8 s.svlB (fun k => s.mem.byteD (s.arrayAddr a + k))))

/-- The own effect of STR (array vector) (R285). -/
def storeArrayVector (a : ArrayOperands) (s : State) : Out :=
  if !(s.baseAligned a.base) then .refused .misalignedBase
  else storeBytes s (s.arrayAddr a) (leBytes (s.zaVec (s.selectVector a.wv a.offs.val)) s.svlB)

/-- The own effect of ZERO (tiles): array vector i belongs to tile ZA(i mod 8).D (R286). -/
def zeroTilesEffect (mask : BitVec 8) (s : State) : Out :=
  complete (s.mapZA (fun i old => if decide (i < s.svlB) && mask.getLsbD (i % 8) then 0#2048 else old))

/-- LDR (array vector) (R284). -/
def execLdrArray (a : ArrayOperands) (s : State) : Out := checked s.cfg.haveSME .k2 s (loadArrayVector a s)

/-- STR (array vector) (R285). -/
def execStrArray (a : ArrayOperands) (s : State) : Out := checked s.cfg.haveSME .k2 s (storeArrayVector a s)

/-- ZERO (tiles) (R286). -/
def execZeroTiles (mask : BitVec 8) (s : State) : Out := checked s.cfg.haveSME .k2 s (zeroTilesEffect mask s)

end Sys2Proof.Machine
end

