-- ==== Sys2Proof/Machine/ModeChange.lean ====
section
/-! DEFINITION. The methods of changing and reading PSTATE.SM and PSTATE.ZA: SMSTART, SMSTOP, MSR SVCR, MRS
SVCR (47_named_instructions.md R300-R302). They are legal in all four states. -/

namespace Sys2Proof.Machine

/-- The effect of MSR (immediate) to SVCRSM, SVCRZA or SVCRSMZA: `mask[0]` selects PSTATE.SM, `mask[1]` selects
PSTATE.ZA (R300). -/
def svcrImmediate (sm za v : Bool) (s : State) : State :=
  let t := if sm then s.setSM v else s
  if za then t.setZA v else t

/-- SMSTART SM (R300). -/
def execSmstartSM (s : State) : Out := checked s.cfg.haveSME .k6 s (complete (svcrImmediate true false true s))

/-- SMSTOP SM (R300). -/
def execSmstopSM (s : State) : Out := checked s.cfg.haveSME .k6 s (complete (svcrImmediate true false false s))

/-- SMSTART ZA (R300). -/
def execSmstartZA (s : State) : Out := checked s.cfg.haveSME .k6 s (complete (svcrImmediate false true true s))

/-- SMSTOP ZA (R300). -/
def execSmstopZA (s : State) : Out := checked s.cfg.haveSME .k6 s (complete (svcrImmediate false true false s))

/-- SMSTART, both bits (R300). -/
def execSmstart (s : State) : Out := checked s.cfg.haveSME .k6 s (complete (svcrImmediate true true true s))

/-- SMSTOP, both bits (R300). -/
def execSmstop (s : State) : Out := checked s.cfg.haveSME .k6 s (complete (svcrImmediate true true false s))

/-- MSR SVCR, Xt (R301). -/
def execMsrSVCR (rt : XnZR) (s : State) : Out := checked s.cfg.haveSME .k6 s (complete (s.writeSvcr (s.readXZ rt)))

/-- MRS Xt, SVCR (R302). -/
def execMrsSVCR (rt : XnZR) (s : State) : Out := checked s.cfg.haveSME .k6 s (complete (s.writeXZ rt s.svcr))

end Sys2Proof.Machine
end

