-- ==== Sys2Proof/Machine/TileSlice.lean ====
section
/-! DEFINITION. Loads and stores of ZA tile slices: LD1B to LD1Q, ST1B to ST1Q (47_named_instructions.md
R304-R314). -/

namespace Sys2Proof.Machine

/-- The slice an operand selects (R304). -/
def State.sliceIndex (s : State) (es : ESize) (r : SliceRef) : Nat := s.selectSlice r.ws r.offs es

/-- The address of element 0: Base(Rn) + UInt(x[Rm]) * (esize/8) modulo 2^64
(R305; R282, notes/assumptions/14.md). -/
def State.sliceStart (s : State) (es : ESize) (a : SliceMemOperands) : Nat :=
  (s.base a.base + s.readXZ a.index * BitVec.ofNat 64 es.bytes).toNat

/-- Every Active one of the first n elements of b bytes is admitted by the launch memory: Inactive elements
make no access (20_memory.md R60; 42_predication.md R155). -/
def elemsAdmitted (m : Memory) (start b : Nat) (active : Nat → Bool) : Nat → Bool
  | 0 => true
  | n + 1 => elemsAdmitted m start b active n && (!(active n) || m.admits (start + n * b) b)

/-- Some byte of an Active one of the first n elements holds program text (20_memory.md R67). -/
def elemsInText (text : Memory) (start b : Nat) (active : Nat → Bool) : Nat → Bool
  | 0 => false
  | n + 1 => elemsInText text start b active n || (active n && text.someMapped (start + n * b) b)

/-- The stores of the Active ones of the first n elements, in increasing element order
(41_vector_registers_scalar_writes.md R122). -/
def storeElems (m : Memory) (start b : Nat) (active : Nat → Bool) (f : Nat → BitVec (8 * b)) : Nat → Memory
  | 0 => m
  | n + 1 =>
    if active n then (storeElems m start b active f n).writeBytes (start + n * b) (leBytes (f n) b)
    else storeElems m start b active f n

/-- `TileLoad(esize)`: the whole slice is written, Inactive elements with zero (R305). -/
def tileLoad (es : ESize) (a : SliceMemOperands) (s : State) : Out :=
  if s.sliceStart es a % es.bytes ≠ 0 then .refused .misalignedStart
  else if !(elemsAdmitted s.mem (s.sliceStart es a) es.bytes (s.active a.pg es) (s.tileDim es)) then
    .fault (.outsideLaunchMemory s.pc)
  else complete (s.writeSlice a.slice.dir a.slice.tile (s.sliceIndex es a.slice) es
    (buildElems 2048 es.bits (s.tileDim es) (fun e =>
      if s.active a.pg es e then s.mem.readLE (s.sliceStart es a + e * es.bytes) es.bytes else 0#es.bits)))

/-- The data memory after the stores of `TileStore(esize)`: element e of the slice goes to
start + e * (esize/8) where e is Active (R310). -/
def State.memAfterTileStore (s : State) (es : ESize) (a : SliceMemOperands) : Memory :=
  storeElems s.mem (s.sliceStart es a) es.bytes (s.active a.pg es)
    (fun e => elem (s.readSlice a.slice.dir a.slice.tile (s.sliceIndex es a.slice) es) e es.bits) (s.tileDim es)

/-- `TileStore(esize)`: Inactive elements are not stored (R310). -/
def tileStore (es : ESize) (a : SliceMemOperands) (s : State) : Out :=
  if s.sliceStart es a % es.bytes ≠ 0 then .refused .misalignedStart
  else if elemsInText s.text (s.sliceStart es a) es.bytes (s.active a.pg es) (s.tileDim es) then
    .refused .storeToProgramText
  else if !(elemsAdmitted s.mem (s.sliceStart es a) es.bytes (s.active a.pg es) (s.tileDim es)) then
    .fault (.outsideLaunchMemory s.pc)
  else complete { s with mem := s.memAfterTileStore es a }

/-- LD1B (tile slice) (R305). -/
def execLd1b (a : SliceMemOperands) (s : State) : Out := checked s.cfg.haveSME .k3 s (tileLoad .b a s)

/-- LD1H (tile slice) (R306). -/
def execLd1h (a : SliceMemOperands) (s : State) : Out := checked s.cfg.haveSME .k3 s (tileLoad .h a s)

/-- LD1W (tile slice) (R307). -/
def execLd1w (a : SliceMemOperands) (s : State) : Out := checked s.cfg.haveSME .k3 s (tileLoad .s a s)

/-- LD1D (tile slice) (R308). -/
def execLd1d (a : SliceMemOperands) (s : State) : Out := checked s.cfg.haveSME .k3 s (tileLoad .d a s)

/-- LD1Q (tile slice) (R309). -/
def execLd1q (a : SliceMemOperands) (s : State) : Out := checked s.cfg.haveSME .k3 s (tileLoad .q a s)

/-- ST1B (tile slice) (R310). -/
def execSt1b (a : SliceMemOperands) (s : State) : Out := checked s.cfg.haveSME .k3 s (tileStore .b a s)

/-- ST1H (tile slice) (R311). -/
def execSt1h (a : SliceMemOperands) (s : State) : Out := checked s.cfg.haveSME .k3 s (tileStore .h a s)

/-- ST1W (tile slice) (R312). -/
def execSt1w (a : SliceMemOperands) (s : State) : Out := checked s.cfg.haveSME .k3 s (tileStore .s a s)

/-- ST1D (tile slice) (R313). -/
def execSt1d (a : SliceMemOperands) (s : State) : Out := checked s.cfg.haveSME .k3 s (tileStore .d a s)

/-- ST1Q (tile slice) (R314). -/
def execSt1q (a : SliceMemOperands) (s : State) : Out := checked s.cfg.haveSME .k3 s (tileStore .q a s)

end Sys2Proof.Machine
end

