-- ==== Sys2Proof/Machine/Mova.lean ====
section
/-! DEFINITION. Moves between ZA tile slices and Z registers under merging predication: MOVA, both directions
(47_named_instructions.md R315, R316). -/

namespace Sys2Proof.Machine

/-- The effect of MOVA (tile to vector) (R315). -/
def moveToVector (es : ESize) (a : MovaOperands) (s : State) : Out :=
  complete (s.writeZ a.z (predicatedWrite (s.readZ a.z)
    (s.readSlice a.slice.dir a.slice.tile (s.sliceIndex es a.slice) es)
    (s.active a.pg es) es.bits (s.tileDim es) .merging))

/-- The effect of MOVA (vector to tile) (R316). -/
def moveToTile (es : ESize) (a : MovaOperands) (s : State) : Out :=
  complete (s.writeSlice a.slice.dir a.slice.tile (s.sliceIndex es a.slice) es
    (predicatedWrite (s.readSlice a.slice.dir a.slice.tile (s.sliceIndex es a.slice) es)
      (s.readZ a.z) (s.active a.pg es) es.bits (s.tileDim es) .merging))

/-- MOVA (tile to vector, .B) (R315). -/
def execMovaT2VB (a : MovaOperands) (s : State) : Out := checked s.cfg.haveSME .k3 s (moveToVector .b a s)

/-- MOVA (tile to vector, .H) (R315). -/
def execMovaT2VH (a : MovaOperands) (s : State) : Out := checked s.cfg.haveSME .k3 s (moveToVector .h a s)

/-- MOVA (tile to vector, .S) (R315). -/
def execMovaT2VS (a : MovaOperands) (s : State) : Out := checked s.cfg.haveSME .k3 s (moveToVector .s a s)

/-- MOVA (tile to vector, .D) (R315). -/
def execMovaT2VD (a : MovaOperands) (s : State) : Out := checked s.cfg.haveSME .k3 s (moveToVector .d a s)

/-- MOVA (tile to vector, .Q) (R315). -/
def execMovaT2VQ (a : MovaOperands) (s : State) : Out := checked s.cfg.haveSME .k3 s (moveToVector .q a s)

/-- MOVA (vector to tile, .B) (R316). -/
def execMovaV2TB (a : MovaOperands) (s : State) : Out := checked s.cfg.haveSME .k3 s (moveToTile .b a s)

/-- MOVA (vector to tile, .H) (R316). -/
def execMovaV2TH (a : MovaOperands) (s : State) : Out := checked s.cfg.haveSME .k3 s (moveToTile .h a s)

/-- MOVA (vector to tile, .S) (R316). -/
def execMovaV2TS (a : MovaOperands) (s : State) : Out := checked s.cfg.haveSME .k3 s (moveToTile .s a s)

/-- MOVA (vector to tile, .D) (R316). -/
def execMovaV2TD (a : MovaOperands) (s : State) : Out := checked s.cfg.haveSME .k3 s (moveToTile .d a s)

/-- MOVA (vector to tile, .Q) (R316). -/
def execMovaV2TQ (a : MovaOperands) (s : State) : Out := checked s.cfg.haveSME .k3 s (moveToTile .q a s)

end Sys2Proof.Machine
end

