-- ==== Sys2Proof/Machine/Table.lean ====
section
/-! DEFINITION. The instructions on ZT0 that are legal whenever PSTATE.ZA is 1: LDR, STR and ZERO (table)
(47_named_instructions.md R287-R289). -/

namespace Sys2Proof.Machine

/-- The own effect of LDR (table) (R287). -/
def loadTable (r : XnSP) (s : State) : Out :=
  if !(s.baseAligned r) then .refused .misalignedBase
  else if !(s.mem.admits (s.base r).toNat 64) then .fault (.outsideLaunchMemory s.pc)
  else complete { s with zt0 := buildElems 512 8 64 (fun k => s.mem.byteD ((s.base r).toNat + k)) }

/-- The own effect of STR (table) (R288). -/
def storeTable (r : XnSP) (s : State) : Out :=
  if !(s.baseAligned r) then .refused .misalignedBase
  else storeBytes s (s.base r).toNat (leBytes s.zt0 64)

/-- LDR (table) (R287). -/
def execLdrTable (r : XnSP) (s : State) : Out := checked s.cfg.haveSME2 .k2 s (loadTable r s)

/-- STR (table) (R288). -/
def execStrTable (r : XnSP) (s : State) : Out := checked s.cfg.haveSME2 .k2 s (storeTable r s)

/-- ZERO (table) (R289). -/
def execZeroTable (s : State) : Out := checked s.cfg.haveSME2 .k2 s (complete { s with zt0 := 0#512 })

end Sys2Proof.Machine
end

