-- ==== Sys2Proof/Machine/Dispatch.lean ====
section
/-! DEFINITION. One arm per instruction, each one direct call of its meaning. -/

namespace Sys2Proof.Machine

def exec (i : Instr) (s : State) : Host.Outcome State Fault Refusal :=
  match i with
  | .ldrArray a => Sys2Proof.Machine.execLdrArray a s
  | .strArray a => Sys2Proof.Machine.execStrArray a s
  | .zeroTiles mask => Sys2Proof.Machine.execZeroTiles mask s
  | .ldrTable base => Sys2Proof.Machine.execLdrTable base s
  | .strTable base => Sys2Proof.Machine.execStrTable base s
  | .zeroTable => Sys2Proof.Machine.execZeroTable s
  | .smstartSM => Sys2Proof.Machine.execSmstartSM s
  | .smstopSM => Sys2Proof.Machine.execSmstopSM s
  | .smstartZA => Sys2Proof.Machine.execSmstartZA s
  | .smstopZA => Sys2Proof.Machine.execSmstopZA s
  | .smstart => Sys2Proof.Machine.execSmstart s
  | .smstop => Sys2Proof.Machine.execSmstop s
  | .msrSVCR rt => Sys2Proof.Machine.execMsrSVCR rt s
  | .mrsSVCR rt => Sys2Proof.Machine.execMrsSVCR rt s
  | .ld1b a => Sys2Proof.Machine.execLd1b a s
  | .ld1h a => Sys2Proof.Machine.execLd1h a s
  | .ld1w a => Sys2Proof.Machine.execLd1w a s
  | .ld1d a => Sys2Proof.Machine.execLd1d a s
  | .ld1q a => Sys2Proof.Machine.execLd1q a s
  | .st1b a => Sys2Proof.Machine.execSt1b a s
  | .st1h a => Sys2Proof.Machine.execSt1h a s
  | .st1w a => Sys2Proof.Machine.execSt1w a s
  | .st1d a => Sys2Proof.Machine.execSt1d a s
  | .st1q a => Sys2Proof.Machine.execSt1q a s
  | .movaT2VB a => Sys2Proof.Machine.execMovaT2VB a s
  | .movaT2VH a => Sys2Proof.Machine.execMovaT2VH a s
  | .movaT2VS a => Sys2Proof.Machine.execMovaT2VS a s
  | .movaT2VD a => Sys2Proof.Machine.execMovaT2VD a s
  | .movaT2VQ a => Sys2Proof.Machine.execMovaT2VQ a s
  | .movaV2TB a => Sys2Proof.Machine.execMovaV2TB a s
  | .movaV2TH a => Sys2Proof.Machine.execMovaV2TH a s
  | .movaV2TS a => Sys2Proof.Machine.execMovaV2TS a s
  | .movaV2TD a => Sys2Proof.Machine.execMovaV2TD a s
  | .movaV2TQ a => Sys2Proof.Machine.execMovaV2TQ a s

end Sys2Proof.Machine
end

