-- ==== Sys2Proof/Machine/Fetch.lean ====
section
/-! DEFINITION. Fetching an instruction word from the program text (30_encoding.md R80; 20_memory.md R67). -/

namespace Sys2Proof.Machine

/-- `program(pc)`: the word at pc, little-endian; none where pc is not a multiple of 4 or a byte of the word
is outside the program text (R80, D6). -/
def State.fetch (s : State) : Option IWord :=
  if s.pc.toNat % 4 ≠ 0 then none
  else
    match s.text.byteAt s.pc.toNat, s.text.byteAt (s.pc.toNat + 1), s.text.byteAt (s.pc.toNat + 2),
        s.text.byteAt (s.pc.toNat + 3) with
    | some b0, some b1, some b2, some b3 => some (wordOfBytes b0 b1 b2 b3)
    | _, _, _, _ => none

/-- The program text with one word placed at an address. -/
def placeWord (text : Memory) (a : Nat) (w : IWord) : Memory := text.writeBytes a (bytesOfWord w)

end Sys2Proof.Machine
end

