-- ==== Sys2Proof/Machine/Step.lean ====
section
/-! DEFINITION. One step of the PE: fetch, decode, execute (47_named_instructions.md R281). -/

namespace Sys2Proof.Machine

/-- One step: stuck where nothing can be fetched, refused where the word is no instruction of this spec, else
the instruction's own outcome (30_encoding.md R80, R88; 47_named_instructions.md R281). -/
def step (s : State) : Host.Outcome State Fault Refusal :=
  match s.fetch with
  | none => .fault (.fetchOutsideText s.pc)
  | some w =>
    match decodeWord w with
    | .ok i => exec i s
    | .error e => .refused (.wordOutsideSpec e)

/-- The state with the instruction whose `nbits` bits are `w` (every bit above zero) as the program text at pc:
this stands for the load of a program at launch (notes/assumptions/7.md). -/
def State.withFetchWord (s : State) (nbits w : Nat) : State :=
  { s with text := placeWord s.text s.pc.toNat (BitVec.ofNat 32 (w % 2 ^ nbits)) }

end Sys2Proof.Machine
end

