-- ==== Sys2Proof/Machine/Events.lean ====
section
/-! DEFINITION. What system software and exceptions do to SVE and SME state beside the instructions of the
table: changes of LEN fields, of the Exception level, and of PSTATE.SM and PSTATE.ZA by any method
(40_vector_lengths.md R112-R117; 43_streaming_mode_and_za_enable.md R178, R179; 60_exceptions.md R324, R328).
The step takes no event (60_exceptions.md R327; notes/assumptions/27.md). -/

namespace Sys2Proof.Machine

/-- The levels that have LEN fields (10_state.md R31, R32, from general knowledge). -/
inductive LenLevel where
  | el1 | el2 | el3
  deriving DecidableEq, Repr

/-- The number of the level of a LEN field. -/
def LenLevel.num : LenLevel → Nat
  | .el1 => 1
  | .el2 => 2
  | .el3 => 3

/-- One of the LEN fields. -/
def LenFields.read (r : LenFields) : LenLevel → BitVec 4
  | .el1 => r.el1
  | .el2 => r.el2
  | .el3 => r.el3

/-- The LEN fields with one of them written. -/
def LenFields.write (r : LenFields) : LenLevel → BitVec 4 → LenFields
  | .el1, v => { r with el1 := v }
  | .el2, v => { r with el2 := v }
  | .el3, v => { r with el3 := v }

/-- The events. -/
inductive Event where
  /-- A write of SMCR_ELx.LEN (R112). -/
  | writeSmcrLen (lvl : LenLevel) (v : BitVec 4)
  /-- A write of ZCR_ELx.LEN (R112). -/
  | writeZcrLen (lvl : LenLevel) (v : BitVec 4)
  /-- Taking an exception to a target Exception level: its effect on vector lengths (R112, R115). -/
  | exceptionEntry (target : ELevel)
  /-- Returning to an Exception level: its effect on vector lengths (R112; 60_exceptions.md R328). -/
  | exceptionReturn (target : ELevel)
  /-- A change of PSTATE.SM by any method. -/
  | setSM (v : Bool)
  /-- A change of PSTATE.ZA by any method. -/
  | setZA (v : Bool)
  deriving DecidableEq, Repr

/-- The condition of R115: SVE, SME and floating-point instructions are disabled, trapped, or not available at
every level below the target. -/
def preservedOnEntry (c : Params) (target : ELevel) : Bool :=
  ELevel.all.all (fun l => !decide (l.num < target.num) || c.simdUnavailable.at l)

/-- SMCR_ELx can be accessed: FEAT_SME is implemented and the current level is ELx or above, so never EL0
(10_state.md R31; 60_exceptions.md R330; notes/assumptions/48.md). That the register of a level which
`Params.implemented` leaves out is there all the same is a DESIGN CHOICE (notes/assumptions/51.md). -/
def State.smcrAccessible (s : State) (lvl : LenLevel) : Bool := s.cfg.haveSME && decide (lvl.num ≤ s.el.num)

/-- ZCR_ELx can be accessed: FEAT_SVE is implemented and the current level is ELx or above (10_state.md R32;
60_exceptions.md R330; notes/assumptions/48.md). For a level that `Params.implemented` leaves out, as `smcrAccessible`
(notes/assumptions/51.md). -/
def State.zcrAccessible (s : State) (lvl : LenLevel) : Bool := s.cfg.haveSVE && decide (lvl.num ≤ s.el.num)

/-- SMCR_ELx.LEN as software reads it, none where the register cannot be accessed (10_state.md R31). -/
def State.readSmcrLen (s : State) (lvl : LenLevel) : Option (BitVec 4) :=
  if s.smcrAccessible lvl then some (LenFields.read s.smcrLen lvl) else none

/-- ZCR_ELx.LEN as software reads it, none where the register cannot be accessed (10_state.md R32). -/
def State.readZcrLen (s : State) (lvl : LenLevel) : Option (BitVec 4) :=
  if s.zcrAccessible lvl then some (LenFields.read s.zcrLen lvl) else none

/-- A write of an SMCR_ELx.LEN field. Where the register cannot be accessed nothing is written
(10_state.md R31; 40_vector_lengths.md R112; notes/assumptions/48.md). VL changes with the write itself, before any
context synchronisation event: DEDUCED from R112, against the general knowledge in 70_reset_and_hazards.md R361
(notes/assumptions/56.md). -/
def State.writeSmcrLen (s : State) (lvl : LenLevel) (v : BitVec 4) : State :=
  if s.smcrAccessible lvl then s.afterLengthEvent { s with smcrLen := LenFields.write s.smcrLen lvl v } false else s

/-- A write of a ZCR_ELx.LEN field. Where the register cannot be accessed nothing is written
(10_state.md R32; 40_vector_lengths.md R112; notes/assumptions/48.md). VL changes with the write itself, before any
context synchronisation event: DEDUCED from R112, against the general knowledge in 70_reset_and_hazards.md R361
(notes/assumptions/56.md). -/
def State.writeZcrLen (s : State) (lvl : LenLevel) (v : BitVec 4) : State :=
  if s.zcrAccessible lvl then s.afterLengthEvent { s with zcrLen := LenFields.write s.zcrLen lvl v } false else s

/-- The effect of exception entry on SVE and SME state: the level becomes the target, PSTATE.SM and PSTATE.ZA
are unchanged, VL is selected anew (60_exceptions.md R324). The spec names no target levels (40_vector_lengths.md R112):
that every level is admitted, lower, EL0 and unimplemented ones included, is a DESIGN CHOICE
(notes/assumptions/50.md). -/
def State.enterLevel (s : State) (target : ELevel) : State :=
  s.afterLengthEvent { s with el := target } (preservedOnEntry s.cfg target)

/-- The effect of exception return on SVE and SME state (60_exceptions.md R328). That every target level is admitted,
higher and unimplemented ones included, is a DESIGN CHOICE (40_vector_lengths.md R112; notes/assumptions/50.md). -/
def State.returnToLevel (s : State) (target : ELevel) : State :=
  s.afterLengthEvent { s with el := target } false

/-- The effect of an event. That a change of PSTATE.SM or PSTATE.ZA is applied on a PE without FEAT_SME too, which has
neither bit (10_state.md R28, R29), is a DESIGN CHOICE (notes/assumptions/49.md). -/
def applyEvent (e : Event) (s : State) : State :=
  match e with
  | .writeSmcrLen lvl v => s.writeSmcrLen lvl v
  | .writeZcrLen lvl v => s.writeZcrLen lvl v
  | .exceptionEntry target => s.enterLevel target
  | .exceptionReturn target => s.returnToLevel target
  | .setSM v => s.setSM v
  | .setZA v => s.setZA v

end Sys2Proof.Machine
end

