-- ==== Sys2Proof/Machine/Flags.lean ====
section
/-! DEFINITION. Status and condition flags: the bits of FPSR (10_state.md R30) and the NZCV computation of
predicate-generating instructions (10_state.md R34). No instruction of the table reads or writes NZCV
(47_named_instructions.md, opening). -/

namespace Sys2Proof.Machine

/-- The named bits of FPSR (10_state.md R30; the names are from general knowledge). -/
structure FpsrFlags where
  qc  : Bool
  idc : Bool
  ixc : Bool
  ufc : Bool
  ofc : Bool
  dzc : Bool
  ioc : Bool
  deriving DecidableEq, Repr

/-- The flags an FPSR value holds. -/
def fpsrFlags (v : DWord) : FpsrFlags :=
  { qc := v.getLsbD 27
    idc := v.getLsbD 7
    ixc := v.getLsbD 4
    ufc := v.getLsbD 3
    ofc := v.getLsbD 2
    dzc := v.getLsbD 1
    ioc := v.getLsbD 0 }

/-- The condition flags (10_state.md R34). -/
structure CondFlags where
  n : Bool
  z : Bool
  c : Bool
  v : Bool
  deriving DecidableEq, Repr

/-- The condition flags of a state. -/
def State.condFlags (s : State) : CondFlags :=
  { n := s.nzcv.getLsbD 3, z := s.nzcv.getLsbD 2, c := s.nzcv.getLsbD 1, v := s.nzcv.getLsbD 0 }

/-- The flags in NZCV order. -/
def CondFlags.toBits (f : CondFlags) : BitVec 4 :=
  BitVec.ofBool f.n ++ BitVec.ofBool f.z ++ BitVec.ofBool f.c ++ BitVec.ofBool f.v

/-- A write of the condition flags. -/
def State.writeCondFlags (s : State) (f : CondFlags) : State := { s with nzcv := f.toBits }

/-- The flags a flag-setting predicate-generating instruction sets from its governing elements and its
result: N where the first active element is TRUE, Z where no active element is TRUE, C where the last active
element is not TRUE, V clear (10_state.md R34, from general knowledge; PRESUMED where no element is active). -/
def predicateFlags (active result : List Bool) : CondFlags :=
  let picked := ((active.zip result).filter (fun p => p.1)).map (fun p => p.2)
  { n := picked.head?.getD false
    z := !picked.any (fun b => b)
    c := !(picked.getLast?.getD false)
    v := false }

end Sys2Proof.Machine
end

