-- ==== Sys2Proof/Machine/LookupTable.lean ====
section
/-! DEFINITION. The ZT0 lookup table: entries, elements and the lookup (46_zt0.md R270-R275). No instruction of
the table performs a lookup (47_named_instructions.md R317). -/

namespace Sys2Proof.Machine

/-- `TableEntry(i)`: bits [32i+31:32i] of ZT0 (R270). -/
def tableEntry (t : TableReg) (i : Nat) : BitVec 32 := elem t i 32

/-- The element sizes a table holds: 8, 16 or 32 bits (R270). -/
inductive TableESize where
  | b | h | s
  deriving DecidableEq, Repr

/-- Bits of a table element. -/
def TableESize.bits : TableESize → Nat
  | .b => 8
  | .h => 16
  | .s => 32

/-- The index sizes: 2 or 4 bits (R271). -/
inductive IndexSize where
  | two | four
  deriving DecidableEq, Repr

/-- Bits of an index. -/
def IndexSize.bits : IndexSize → Nat
  | .two => 2
  | .four => 4

/-- `TableElement(i, esize)`: the low esize bits of entry i (R270). -/
def tableElement (t : TableReg) (i : Nat) (es : TableESize) : BitVec es.bits := (tableEntry t i).setWidth es.bits

/-- Index k of a source register: the packed field at bits [k*isize+isize-1 : k*isize] (R271, R274). -/
def packedIndex (src : VecReg) (k : Nat) (isz : IndexSize) : Nat := (elem src k isz.bits).toNat

/-- The portions a lookup can name: portion imm of total * isize bits lies inside Zn, so imm is at most
VL / (total * isize) - 1, and a portion longer than Zn has no number (R274). -/
def lookupImmOk (vl : VecLen) (es : TableESize) (isz : IndexSize) (nreg imm : Nat) : Bool :=
  decide ((imm + 1) * (nreg * (vl.bits / es.bits)) * isz.bits ≤ vl.bits)

/-- The value of destination register number r of a lookup with `nreg` destinations from portion `imm`
(R274; the position of an index is PRESUMED, notes/assumptions/30.md). Where `lookupImmOk` is false R274 gives no
meaning, and that an index past VL reads as 0, hence entry 0, is a DESIGN CHOICE (notes/assumptions/44.md). -/
def lookupResult (t : TableReg) (src : VecReg) (vl : VecLen) (es : TableESize) (isz : IndexSize)
    (nreg imm r : Nat) : VecReg :=
  let elements := vl.bits / es.bits
  buildElems 2048 es.bits elements (fun e =>
    tableElement t (packedIndex src (imm * (nreg * elements) + r * elements + e) isz) es)

/-- The destination lists of a lookup: one register, or a Z multi-vector operand of two or four registers with
consecutive or strided numbering (R273, R274; 45_multi_vector_operands.md R233-R236). -/
def lookupListOk (dlist : List (Fin 32)) : Bool :=
  match dlist with
  | [_] => true
  | d :: _ =>
    dlist == zConsecutive 2 d || dlist == zConsecutive 4 d || some dlist == zStrided2 d || some dlist == zStrided4 d
  | [] => false

/-- The registers of a list written in order, register number r of the list with `f r`. -/
def State.writeZList (s : State) : List (Fin 32) → Nat → (Nat → VecReg) → State
  | [], _, _ => s
  | d :: ds, r, f => (s.writeZ d (f r)).writeZList ds (r + 1) f

/-- `ZT0Lookup(dlist, esize, isize, n, imm)`: the source is read before any destination is written
(R274; 41_vector_registers_scalar_writes.md R121). `lookupListOk` says which destination lists the rules name; that any
other list is written all the same, with nreg its length, is a DESIGN CHOICE (notes/assumptions/52.md). -/
def State.zt0Lookup (s : State) (dlist : List (Fin 32)) (es : TableESize) (isz : IndexSize) (n : Fin 32) (imm : Nat) :
    State :=
  s.writeZList dlist 0 (lookupResult s.zt0 (s.readZ n) s.vl es isz dlist.length imm)

/-- An instruction that performs a lookup, with the steps common to every instruction: FEAT_SME2, the access check,
class K3, the lookup, pc + 4 (R274, R275; 43_streaming_mode_and_za_enable.md R177; 47_named_instructions.md R281). No
row of the opcode table is one. -/
def lookupInstruction (dlist : List (Fin 32)) (es : TableESize) (isz : IndexSize) (n : Fin 32) (imm : Nat) (s : State) :
    Out :=
  checked s.cfg.haveSME2 .k3 s (complete (s.zt0Lookup dlist es isz n imm))

end Sys2Proof.Machine
end

