-- ==== Sys2Proof/Safety.lean ====
section
/-! DEFINITION. What a consistent launch is, what a safe run is, and the duties the source puts on system
software (70_reset_and_hazards.md R351-R354). -/

namespace Sys2Proof.Safety

open Sys2Proof.Machine

/-- Nothing is stored in the unimplemented bits of the vector, predicate and ZA registers: those at and above
MaxZ, MaxZ/8 and MaxSVL, the array vectors from number MaxSVL/8 on, and ZT0 where FEAT_SME2 is absent
(10_state.md R20, R22, R25, R27; notes/assumptions/8.md). -/
structure OnlyImplementedBits (s : State) : Prop where
  z : ∀ n : Fin 32, lowBits (maxZ s.cfg) s.z[n] = s.z[n]
  p : ∀ n : Fin 16, lowBits (maxZ s.cfg / 8) s.p[n] = s.p[n]
  ffr : lowBits (maxZ s.cfg / 8) s.ffr = s.ffr
  za : ∀ k : Fin 256, lowBits s.cfg.maxSVL.bits s.za[k] = s.za[k]
  zaRows : ∀ k : Fin 256, s.cfg.maxSVL.bits / 8 ≤ k.val → s.za[k] = 0#2048
  zt0 : s.cfg.haveSME2 = false → s.zt0 = 0#512

/-- A launch state that is consistent (70_reset_and_hazards.md R351), with the canonical memories the model
adds: this is the invariant every step keeps. -/
structure Consistent (s : State) : Prop where
  /-- SVLSet, MaxSVL and the feature dependencies (00_scope.md R2, R5). -/
  params : s.cfg.ok = true
  /-- PSTATE.SM and PSTATE.ZA are present when FEAT_SME is implemented (10_state.md R28, R29). -/
  modes : s.cfg.haveSME = false → s.pstateSM = false ∧ s.pstateZA = false
  /-- With PSTATE.ZA = 0 the state carries no ZA or ZT0 contents: their containers hold zero (R351;
  10_state.md R38; notes/assumptions/31.md). -/
  noContents : s.pstateZA = false → s.za = Vector.replicate 256 0#2048 ∧ s.zt0 = 0#512
  /-- The data memory is in canonical form. -/
  mem : s.mem.wf = true
  /-- The program text is in canonical form. -/
  text : s.text.wf = true
  /-- pc is a multiple of 4 (30_encoding.md R80). -/
  pcAligned : s.pc.toNat % 4 = 0
  /-- No unimplemented bit is set. -/
  implemented : OnlyImplementedBits s

/-- A run of k steps that meets no fault and no refusal. -/
def SafeRun (s : State) : Nat → Prop
  | 0 => True
  | k + 1 =>
    match step s with
    | .next t => SafeRun t k
    | .fault _ => False
    | .refused _ => False

/-- SME instructions can execute at the current level: the feature is present and the access is not trapped
(70_reset_and_hazards.md R354 (a); 60_exceptions.md R325). -/
def smeUsable (s : State) : Bool := s.cfg.haveSME && s.cfg.smeAccessEnabled.at s.el

/-- Duty of software that raises VL or SVL (70_reset_and_hazards.md R352; 40_vector_lengths.md R116), met in the way
those rules give as an example: before VL rises from `old` to `new` bits and SVL from `svlOld` to `svlNew`, what becomes
accessible is zero in every Z, P and FFR register and in ZA storage, and ZT0 is zero. ZT0 has one width at every
length, and that all of it counts is DEDUCED (notes/assumptions/54.md). -/
structure NewBitsCleared (s : State) (old new svlOld svlNew : Nat) : Prop where
  z : ∀ n : Fin 32, lowBits new s.z[n] = lowBits old s.z[n]
  p : ∀ n : Fin 16, lowBits (new / 8) s.p[n] = lowBits (old / 8) s.p[n]
  ffr : lowBits (new / 8) s.ffr = lowBits (old / 8) s.ffr
  /-- The array vectors there were: their bits from the old length on. -/
  zaBits : ∀ k : Fin 256, k.val < svlOld / 8 → lowBits svlNew s.za[k] = lowBits svlOld s.za[k]
  /-- The array vectors that are new. -/
  zaRows : ∀ k : Fin 256, svlOld / 8 ≤ k.val → k.val < svlNew / 8 → lowBits svlNew s.za[k] = 0#2048
  zt0 : old < new ∨ svlOld < svlNew → s.zt0 = 0#512

/-- Duty of a context switch (70_reset_and_hazards.md R353): the restored registers agree with the saved ones in
every bit up to the maximum length `len` the system software provides. -/
def restoredAt (len : Nat) (saved restored : State) : Prop :=
  (∀ n : Fin 32, lowBits len restored.z[n] = lowBits len saved.z[n])
    ∧ (∀ n : Fin 16, lowBits (len / 8) restored.p[n] = lowBits (len / 8) saved.p[n])
    ∧ lowBits (len / 8) restored.ffr = lowBits (len / 8) saved.ffr

/-- Boot requirements before code at a level relies on this spec (70_reset_and_hazards.md R354 (a)): SVE is not
disabled or trapped and SME access is enabled there. -/
def bootReady (c : Params) (el : ELevel) : Bool :=
  (!c.haveSVE || !(c.sveDisabledOrTrapped.at el)) && (!c.haveSME || c.smeAccessEnabled.at el)

/-! The words the statements are written in. -/

/-- The step (2), (3) and (6) of R281 let an SME instruction complete: FEAT_SME is implemented, no configurable
control prevents it, and pc + 4 does not reach 2^64 (47_named_instructions.md R281; 10_state.md R36). -/
structure SmeReady (s : State) : Prop where
  feature : s.cfg.haveSME = true
  access : s.cfg.smeAccessEnabled.at s.el = true
  pc : s.pc.toNat + 4 < 2 ^ 64

/-- The same for an instruction of FEAT_SME2. -/
structure Sme2Ready (s : State) : Prop where
  feature : s.cfg.haveSME2 = true
  access : s.cfg.smeAccessEnabled.at s.el = true
  pc : s.pc.toNat + 4 < 2 ^ 64

/-- A K3 instruction can complete: both mode bits are 1 (43_streaming_mode_and_za_enable.md R177). -/
structure TileReady (s : State) : Prop where
  sme : SmeReady s
  sm : s.pstateSM = true
  za : s.pstateZA = true

/-- The n bytes from an address are in the launch memory and below 2^64 (20_memory.md R60). -/
def Mapped (m : Memory) (a n : Nat) : Prop := a + n ≤ 2 ^ 64 ∧ ∀ k < n, (m.byteAt (a + k)).isSome = true

/-- None of the n bytes from an address holds program text (20_memory.md R67). -/
def NoText (text : Memory) (a n : Nat) : Prop := ∀ k < n, text.byteAt (a + k) = none

/-- An address is one of the n bytes from `a`. -/
def InRange (a n x : Nat) : Prop := a ≤ x ∧ x < a + n

/-- Byte `col` of ZA array vector `row` (44_za_storage_and_tiles.md R190). -/
def zaByte (s : State) (row col : Nat) : Byte := elem (s.zaVec row) col 8

/-- The byte of ZA storage at `row`, `col` belongs to slice n of tile t of an element size
(44_za_storage_and_tiles.md R210: tile row r is array row t + b * r, tile column c is byte columns b * c to
b * c + b - 1). -/
def sliceHasByte (es : ESize) (dir : SliceDir) (t n row col : Nat) : Bool :=
  match dir with
  | .horizontal => decide (row = t + es.bytes * n)
  | .vertical => decide (row % es.bytes = t ∧ col / es.bytes = n)

/-- The element of the slice that a byte of ZA storage belongs to: the tile column in a horizontal slice, the
tile row in a vertical one (44_za_storage_and_tiles.md R204, R209, R210). -/
def sliceElement (es : ESize) (dir : SliceDir) (row col : Nat) : Nat :=
  match dir with
  | .horizontal => col / es.bytes
  | .vertical => row / es.bytes

/-- The row and column of ZA storage of byte j of element e of slice n of tile t
(44_za_storage_and_tiles.md R210). -/
def slicePlace (es : ESize) (dir : SliceDir) (t n e j : Nat) : Nat × Nat :=
  match dir with
  | .horizontal => (t + es.bytes * n, es.bytes * e + j)
  | .vertical => (t + es.bytes * e, es.bytes * n + j)

/-- Element e is governed by a TRUE element of a predicate read as a mask: the lowest-numbered bit of its
esize/8 bits (42_predication.md R134, R135, R138, R139, R154). -/
def governs (s : State) (pg : Fin 8) (es : ESize) (e : Nat) : Bool := (s.p[governing pg]).getLsbD (e * es.bytes)

/-- `t` is `s` after PSTATE.SM became `sm` and PSTATE.ZA became `za`, pc apart: the effects of R162 to R164 where
PSTATE.SM changed, of R174 where PSTATE.ZA became 1, and nothing else (43_streaming_mode_and_za_enable.md R176,
R178, R179). Two clauses are the model's: FFR is zeroed on every entry (notes/assumptions/10.md), and the contents of
ZA storage and ZT0 are discarded when PSTATE.ZA becomes 0, where R175 defines no effect (notes/assumptions/31.md). -/
structure ModeChanged (s t : State) (sm za : Bool) : Prop where
  smValue : t.pstateSM = sm
  zaValue : t.pstateZA = za
  smSame : sm = s.pstateSM → t.z = s.z ∧ t.p = s.p ∧ t.ffr = s.ffr ∧ t.fpsr = s.fpsr
  smChanged : sm ≠ s.pstateSM →
    (∀ n : Fin 32, t.z[n] = 0#2048) ∧ (∀ n : Fin 16, t.p[n] = 0#256) ∧ t.ffr = 0#256 ∧ t.fpsr = 0x0800009F#64
  zaSame : za = s.pstateZA → t.za = s.za ∧ t.zt0 = s.zt0
  zaDisabled : s.pstateZA = true → za = false → (∀ k : Fin 256, t.za[k] = 0#2048) ∧ t.zt0 = 0#512
  zaEnabled : s.pstateZA = false → za = true →
    (∀ k : Fin 256, t.za[k] = 0#2048) ∧ (s.cfg.haveSME2 = true → t.zt0 = 0#512)
      ∧ (s.cfg.haveSME2 = false → t.zt0 = s.zt0)
  rest : t = { s with
    pc := t.pc, pstateSM := t.pstateSM, pstateZA := t.pstateZA, z := t.z, p := t.p, ffr := t.ffr, fpsr := t.fpsr,
    za := t.za, zt0 := t.zt0 }

/-- The instructions that name ZA storage as their destination (47_named_instructions.md R284, R286, R305-R309,
R316). -/
def writesZA : Instr → Bool
  | .ldrArray _ | .zeroTiles _ => true
  | .ld1b _ | .ld1h _ | .ld1w _ | .ld1d _ | .ld1q _ => true
  | .movaV2TB _ | .movaV2TH _ | .movaV2TS _ | .movaV2TD _ | .movaV2TQ _ => true
  | _ => false

/-- The instructions that name a vector register as their destination (47_named_instructions.md R315). -/
def writesZ : Instr → Bool
  | .movaT2VB _ | .movaT2VH _ | .movaT2VS _ | .movaT2VD _ | .movaT2VQ _ => true
  | _ => false

/-- The instructions that name ZT0 as their destination (47_named_instructions.md R287, R289). -/
def writesZT0 : Instr → Bool
  | .ldrTable _ | .zeroTable => true
  | _ => false

/-- The instructions that store to memory (47_named_instructions.md R285, R288, R310-R314). -/
def storesMemory : Instr → Bool
  | .strArray _ | .strTable _ => true
  | .st1b _ | .st1h _ | .st1w _ | .st1d _ | .st1q _ => true
  | _ => false

/-- The instructions that change PSTATE.SM or PSTATE.ZA (47_named_instructions.md R300, R301). -/
def changesModes : Instr → Bool
  | .smstartSM | .smstopSM | .smstartZA | .smstopZA | .smstart | .smstop | .msrSVCR _ => true
  | _ => false

/-- One move of the machine: a step of the PE, or an event of Machine/Events.lean. -/
def Moves (s t : State) : Prop := step s = .next t ∨ ∃ e, t = applyEvent e s

/-- Two states that differ at most in bits that are not accessible at the current VL
(40_vector_lengths.md R110). -/
structure SameAccessible (s t : State) : Prop where
  rest : t = { s with z := t.z, p := t.p, ffr := t.ffr }
  z : ∀ n : Fin 32, lowBits s.vlBits t.z[n] = lowBits s.vlBits s.z[n]
  p : ∀ n : Fin 16, lowBits s.plBits t.p[n] = lowBits s.plBits s.p[n]
  ffr : lowBits s.plBits t.ffr = lowBits s.plBits s.ffr

/-- Two outcomes of the same kind and reason whose next states, if any, are related. -/
def SameOutcome (R : State → State → Prop) : Out → Out → Prop
  | .next s, .next t => R s t
  | .fault f, .fault g => f = g
  | .refused r, .refused q => r = q
  | _, _ => False

/-- The events that can change a vector length without changing a mode bit (40_vector_lengths.md R112). -/
def isLengthEvent : Event → Bool
  | .writeSmcrLen _ _ | .writeZcrLen _ _ | .exceptionEntry _ | .exceptionReturn _ => true
  | .setSM _ | .setZA _ => false

/-- The state after a sequence of events. -/
def applyEvents (es : List Event) (s : State) : State := es.foldl (fun s e => applyEvent e s) s

end Sys2Proof.Safety
end

