-- ==== Sys2Proof/Certificates/Slice0/Obligations.lean ====
section
/-! DEFINITION. The statements for the provers. Each docstring names the rule of spec/ it formalises, or says
that the statement is derived and from what. -/

open Sys2Proof Sys2Proof.Machine Sys2Proof.Safety

/-! Encoding. -/

/-- Decoding the bytes of a well-formed instruction gives the instruction back and leaves the bytes after it
(derived from the encoding lines of 47_named_instructions.md R284-R316, which are from general knowledge:
notes/assumptions/21.md). -/
def Obligations.DecodeAfterEncode : Prop :=
  ∀ (i : Instr) (rest : List Byte), i.wf = true → decode (encode i ++ rest) = .ok (i, rest)

/-- A word that decodes is the word of the instruction it decodes to, and that instruction is well-formed: no bit
of a word is dropped (derived, as the statement before it). -/
def Obligations.EncodeAfterDecode : Prop :=
  ∀ (w : IWord) (i : Instr), decodeWord w = .ok i → i.wf = true ∧ encodeWord i = w

/-- No word matches two rows of the opcode table, so decode order decides nothing; a word that matches a row
decodes to that row's instruction (derived from 30_encoding.md R81, whose encodings are from general knowledge:
notes/assumptions/21.md). -/
def Obligations.RowsAreDisjoint : Prop :=
  ∀ (w : IWord) (a b : Opc), a.matchesWord w = true →
    (b.matchesWord w = true → a = b) ∧ decodeWord w = .ok (a.build w)

/-- Words written out in 95_test_vectors.md section 3 decode to the instructions and fields given there, one for
each format; the words that section lists as matching no row are refused, the two reserved patterns of
30_encoding.md R88 under names of their own (derived, as the statement before it). -/
def Obligations.SpecWordsDecodeOrAreRefused : Prop :=
  decodeWord 0xE1000023#32 = .ok (.ldrArray { wv := .w12, offs := 3, base := .x 1 })
  ∧ decodeWord 0xE12023E0#32 = .ok (.strArray { wv := .w13, offs := 0, base := .sp })
  ∧ decodeWord 0xC0080011#32 = .ok (.zeroTiles 0x11#8)
  ∧ decodeWord 0xE11F8040#32 = .ok (.ldrTable (.x 2))
  ∧ decodeWord 0xC0480001#32 = .ok .zeroTable
  ∧ decodeWord 0xD503457F#32 = .ok .smstartZA
  ∧ decodeWord 0xD51B4243#32 = .ok (.msrSVCR (.x 3))
  ∧ decodeWord 0xE044C86F#32 = .ok (.ld1h
      { slice := { dir := .vertical, tile := 1, ws := .w14, offs := 7 }, pg := 2, base := .x 3, index := .x 4 })
  ∧ decodeWord 0xE0FFA8C8#32 = .ok (.st1d
      { slice := { dir := .vertical, tile := 4, ws := .w13, offs := 0 }, pg := 2, base := .x 6, index := .zr })
  ∧ decodeWord 0xC0820527#32 = .ok (.movaT2VS
      { slice := { dir := .horizontal, tile := 2, ws := .w12, offs := 1 }, pg := 1, z := 7 })
  ∧ decodeWord 0xC0C0E069#32 = .ok (.movaV2TD
      { slice := { dir := .vertical, tile := 4, ws := .w15, offs := 1 }, pg := 0, z := 3 })
  ∧ decodeWord 0x00000000#32 = .error .outsideTable
  ∧ decodeWord 0xD503201F#32 = .error .outsideTable
  ∧ decodeWord 0xD503417F#32 = .error .svcrMaskZero
  ∧ decodeWord 0xE1000010#32 = .error .outsideTable
  ∧ decodeWord 0xC0830000#32 = .error .movaUnallocated
  ∧ decodeWord 0xC0480000#32 = .error .outsideTable
  ∧ decodeWord 0xC0480003#32 = .error .outsideTable
  ∧ decodeWord 0xC0090000#32 = .error .outsideTable

/-! The step. -/

/-- When pc is a multiple of 4 and the four bytes of the program text there decode, the step is the instruction at
that very state: the step adds nothing around it (derived from 47_named_instructions.md R281 and
30_encoding.md R80). -/
def Obligations.StepRunsDecodedInstruction : Prop :=
  ∀ (s : State) (b0 b1 b2 b3 : Byte) (i : Instr) (rest : List Byte),
    s.pc.toNat % 4 = 0 →
    s.text.byteAt s.pc.toNat = some b0 → s.text.byteAt (s.pc.toNat + 1) = some b1 →
    s.text.byteAt (s.pc.toNat + 2) = some b2 → s.text.byteAt (s.pc.toNat + 3) = some b3 →
    decode (b0 :: b1 :: b2 :: b3 :: rest) = .ok (i, rest) →
    step s = exec i s

/-- Where nothing can be fetched the step is stuck, and where the word is no row it is refused: the step never goes
on without an instruction of the table (derived from 30_encoding.md R80, R88). -/
def Obligations.StepStopsWithoutInstruction : Prop :=
  ∀ s : State,
    ((s.pc.toNat % 4 ≠ 0 ∨ ∃ k < 4, s.text.byteAt (s.pc.toNat + k) = none) →
      step s = .fault (.fetchOutsideText s.pc))
    ∧ (∀ b0 b1 b2 b3 : Byte, s.pc.toNat % 4 = 0 →
        s.text.byteAt s.pc.toNat = some b0 → s.text.byteAt (s.pc.toNat + 1) = some b1 →
        s.text.byteAt (s.pc.toNat + 2) = some b2 → s.text.byteAt (s.pc.toNat + 3) = some b3 →
        (∀ o : Opc, o.matchesWord (wordOfBytes b0 b1 b2 b3) = false) →
        ∃ e, step s = .refused (.wordOutsideSpec e))

/-! What each instruction does: it completes, its result, and its frame. -/

/-- LDR (array vector): byte k of the selected array vector becomes the byte at address + k; every other array
vector, every other register and memory are unchanged (derived from 47_named_instructions.md R284, whose address
arithmetic is notes/assumptions/14.md). -/
def Obligations.LdrArrayLoadsSelectedVector : Prop :=
  ∀ (a : ArrayOperands) (s : State),
    SmeReady s → s.pstateZA = true → (s.base a.base).toNat % 16 = 0 → Mapped s.mem (s.arrayAddr a) s.svlB →
    ∃ t, exec (.ldrArray a) s = .next t
      ∧ t = { s with za := t.za, pc := s.pc + 4#64 }
      ∧ (∀ j < s.svlB, s.mem.byteAt (s.arrayAddr a + j) = some (zaByte t (s.selectVector a.wv a.offs.val) j))
      ∧ ∀ k < s.svlB, k ≠ s.selectVector a.wv a.offs.val → t.zaVec k = s.zaVec k

/-- STR (array vector): byte k of the selected array vector goes to address + k; every other byte of memory and
every register are unchanged (derived from 47_named_instructions.md R285, as the statement before it). -/
def Obligations.StrArrayStoresSelectedVector : Prop :=
  ∀ (a : ArrayOperands) (s : State),
    SmeReady s → s.pstateZA = true → (s.base a.base).toNat % 16 = 0 → Mapped s.mem (s.arrayAddr a) s.svlB →
    NoText s.text (s.arrayAddr a) s.svlB →
    ∃ t, exec (.strArray a) s = .next t
      ∧ t = { s with mem := t.mem, pc := s.pc + 4#64 }
      ∧ (∀ j < s.svlB, t.mem.byteAt (s.arrayAddr a + j) = some (zaByte s (s.selectVector a.wv a.offs.val) j))
      ∧ ∀ x, ¬ InRange (s.arrayAddr a) s.svlB x → t.mem.byteAt x = s.mem.byteAt x

/-- ZERO (tiles): array vector k becomes zero where bit k mod 8 of the mask is set, every other array vector, every
other register and memory are unchanged (derived from 47_named_instructions.md R286). -/
def Obligations.ZeroTilesZeroesMaskedVectors : Prop :=
  ∀ (mask : BitVec 8) (s : State), SmeReady s → s.pstateZA = true →
    ∃ t, exec (.zeroTiles mask) s = .next t
      ∧ t = { s with za := t.za, pc := s.pc + 4#64 }
      ∧ ∀ k < s.svlB, t.zaVec k = if mask.getLsbD (k % 8) = true then 0#2048 else s.zaVec k

/-- ZERO (tiles) with the mask of one tile of 8, 16, 32 or 64-bit elements zeroes every slice of that tile, in
both directions, and no byte of another tile of that size (derived from 47_named_instructions.md R286 and
44_za_storage_and_tiles.md R207). -/
def Obligations.ZeroTilesAliasZeroesTile : Prop :=
  ∀ (mask : BitVec 8) (s : State) (es : ESize) (t : Nat),
    SmeReady s → s.pstateZA = true → es ≠ .q → t < es.bytes →
    (∀ i < 8, mask.getLsbD i = decide (i % es.bytes = t)) →
    ∃ u, exec (.zeroTiles mask) s = .next u
      ∧ (∀ dir, ∀ n < s.tileDim es, u.readSlice dir t n es = 0#2048)
      ∧ ∀ dir, ∀ t' < es.bytes, t' ≠ t → ∀ n < s.tileDim es, u.readSlice dir t' n es = s.readSlice dir t' n es

/-- LDR (table): byte k of ZT0 becomes the byte at the base + k, so table entry i is the little-endian word at
base + 4i; every other register and memory are unchanged (derived from 47_named_instructions.md R287). -/
def Obligations.LdrTableLoadsZT0 : Prop :=
  ∀ (r : XnSP) (s : State),
    Sme2Ready s → s.pstateZA = true → (s.base r).toNat % 16 = 0 → Mapped s.mem (s.base r).toNat 64 →
    ∃ t, exec (.ldrTable r) s = .next t
      ∧ t = { s with zt0 := t.zt0, pc := s.pc + 4#64 }
      ∧ (∀ k < 64, s.mem.byteAt ((s.base r).toNat + k) = some (elem t.zt0 k 8))
      ∧ ∀ i < 16, tableEntry t.zt0 i = s.mem.readLE ((s.base r).toNat + 4 * i) 4

/-- STR (table): byte k of ZT0 goes to the base + k; every other byte of memory and every register are unchanged
(derived from 47_named_instructions.md R288). -/
def Obligations.StrTableStoresZT0 : Prop :=
  ∀ (r : XnSP) (s : State),
    Sme2Ready s → s.pstateZA = true → (s.base r).toNat % 16 = 0 → Mapped s.mem (s.base r).toNat 64 →
    NoText s.text (s.base r).toNat 64 →
    ∃ t, exec (.strTable r) s = .next t
      ∧ t = { s with mem := t.mem, pc := s.pc + 4#64 }
      ∧ (∀ k < 64, t.mem.byteAt ((s.base r).toNat + k) = some (elem s.zt0 k 8))
      ∧ ∀ x, ¬ InRange (s.base r).toNat 64 x → t.mem.byteAt x = s.mem.byteAt x

/-- ZERO (table): every table entry becomes zero, nothing else changes (derived from
47_named_instructions.md R289). -/
def Obligations.ZeroTableClearsZT0 : Prop :=
  ∀ s : State, Sme2Ready s → s.pstateZA = true →
    ∃ t, exec .zeroTable s = .next t
      ∧ t = { s with zt0 := t.zt0, pc := s.pc + 4#64 }
      ∧ ∀ i < 16, tableEntry t.zt0 i = 0#32

/-- The six forms of SMSTART and SMSTOP complete in all four states of the mode bits, with exactly the effects of a
change of PSTATE.SM, of PSTATE.ZA, or of both (derived from 47_named_instructions.md R300; two effects are the
model's choice, not the source's: FFR is zeroed on every entry, notes/assumptions/10.md, and the contents of ZA storage
and ZT0 are discarded when PSTATE.ZA becomes 0, notes/assumptions/31.md). -/
def Obligations.SmstartSmstopChangeModes : Prop :=
  ∀ s : State, SmeReady s →
    (∃ t, exec .smstartSM s = .next t ∧ ModeChanged s t true s.pstateZA ∧ t.pc = s.pc + 4#64)
    ∧ (∃ t, exec .smstopSM s = .next t ∧ ModeChanged s t false s.pstateZA ∧ t.pc = s.pc + 4#64)
    ∧ (∃ t, exec .smstartZA s = .next t ∧ ModeChanged s t s.pstateSM true ∧ t.pc = s.pc + 4#64)
    ∧ (∃ t, exec .smstopZA s = .next t ∧ ModeChanged s t s.pstateSM false ∧ t.pc = s.pc + 4#64)
    ∧ (∃ t, exec .smstart s = .next t ∧ ModeChanged s t true true ∧ t.pc = s.pc + 4#64)
    ∧ (∃ t, exec .smstop s = .next t ∧ ModeChanged s t false false ∧ t.pc = s.pc + 4#64)

/-- MSR SVCR: PSTATE.SM becomes bit 0 and PSTATE.ZA bit 1 of the source, which is zero for register 31; bits 63:2
are ignored; no general-purpose register changes (derived from 47_named_instructions.md R301; two effects are the
model's choice, not the source's: FFR is zeroed on every entry, notes/assumptions/10.md, and the contents of ZA storage and
ZT0 are discarded when PSTATE.ZA becomes 0, notes/assumptions/31.md). -/
def Obligations.MsrSvcrWritesModes : Prop :=
  ∀ (rt : XnZR) (s : State), SmeReady s →
    ∃ t, exec (.msrSVCR rt) s = .next t ∧ t.pc = s.pc + 4#64
      ∧ (∀ n : Fin 31, rt = .x n → ModeChanged s t (s.x[n].getLsbD 0) (s.x[n].getLsbD 1))
      ∧ (rt = .zr → ModeChanged s t false false)

/-- MRS SVCR: bit 0 of the destination is PSTATE.SM, bit 1 is PSTATE.ZA, every other bit is zero; for register 31
the result is discarded; nothing but the destination changes (derived from 47_named_instructions.md R302). -/
def Obligations.MrsSvcrReadsModes : Prop :=
  ∀ (rt : XnZR) (s : State), SmeReady s →
    ∃ t, exec (.mrsSVCR rt) s = .next t
      ∧ t = { s with x := t.x, pc := s.pc + 4#64 }
      ∧ (rt = .zr → t.x = s.x)
      ∧ ∀ n : Fin 31, rt = .x n →
          (∀ i < 64, t.x[n].getLsbD i = ((i == 0 && s.pstateSM) || (i == 1 && s.pstateZA)))
          ∧ ∀ m : Fin 31, m ≠ n → t.x[m] = s.x[m]

/-- LD1B, LD1H, LD1W, LD1D, LD1Q, horizontal and vertical: a byte of the slice whose element is governed TRUE
becomes the byte of memory of that element, one whose element is governed FALSE becomes zero, and every byte of ZA
outside the slice, every other register and memory are unchanged; the addresses of Inactive elements need not be
mapped (derived from 47_named_instructions.md R304-R309; the model's choices, not the source's: the order of a vertical
slice is D13, notes/assumptions/18.md, .Q predication is 19.md there, no access for an Inactive element 20.md, address
sums modulo 2^64 14.md, little-endian elements D3, 15.md). -/
def Obligations.TileLoadWritesSlice : Prop :=
  ∀ (es : ESize) (a : SliceMemOperands) (s : State),
    TileReady s → a.slice.wf es = true → s.sliceStart es a % es.bytes = 0 →
    (∀ e < s.tileDim es, governs s a.pg es e = true → Mapped s.mem (s.sliceStart es a + e * es.bytes) es.bytes) →
    ∃ t, exec (Instr.tileLoad es a) s = .next t
      ∧ t = { s with za := t.za, pc := s.pc + 4#64 }
      ∧ ∀ row < s.svlB, ∀ col < s.svlB,
          (sliceHasByte es a.slice.dir a.slice.tile (s.sliceIndex es a.slice) row col = false →
            zaByte t row col = zaByte s row col)
          ∧ (sliceHasByte es a.slice.dir a.slice.tile (s.sliceIndex es a.slice) row col = true →
              (governs s a.pg es (sliceElement es a.slice.dir row col) = true →
                s.mem.byteAt (s.sliceStart es a + sliceElement es a.slice.dir row col * es.bytes + col % es.bytes)
                  = some (zaByte t row col))
              ∧ (governs s a.pg es (sliceElement es a.slice.dir row col) = false → zaByte t row col = 0#8))

/-- ST1B, ST1H, ST1W, ST1D, ST1Q, horizontal and vertical: byte j of every Active element e of the slice goes to
start + e * (esize / 8) + j, every other byte of memory and every register are unchanged (derived from
47_named_instructions.md R304, R310-R314; the model's choices, not the source's: the order of a vertical slice is D13,
notes/assumptions/18.md, .Q predication is 19.md there, no access for an Inactive element 20.md, address sums modulo
2^64 14.md, little-endian elements D3, 15.md). -/
def Obligations.TileStoreWritesActiveElements : Prop :=
  ∀ (es : ESize) (a : SliceMemOperands) (s : State),
    TileReady s → a.slice.wf es = true → s.sliceStart es a % es.bytes = 0 →
    (∀ e < s.tileDim es, governs s a.pg es e = true →
      Mapped s.mem (s.sliceStart es a + e * es.bytes) es.bytes
        ∧ NoText s.text (s.sliceStart es a + e * es.bytes) es.bytes) →
    ∃ t, exec (Instr.tileStore es a) s = .next t
      ∧ t = { s with mem := t.mem, pc := s.pc + 4#64 }
      ∧ (∀ e < s.tileDim es, governs s a.pg es e = true → ∀ j < es.bytes,
          t.mem.byteAt (s.sliceStart es a + e * es.bytes + j) =
            some (zaByte s (slicePlace es a.slice.dir a.slice.tile (s.sliceIndex es a.slice) e j).1
              (slicePlace es a.slice.dir a.slice.tile (s.sliceIndex es a.slice) e j).2))
      ∧ ∀ x, (∀ e < s.tileDim es, governs s a.pg es e = true →
              ¬ InRange (s.sliceStart es a + e * es.bytes) es.bytes x) →
            t.mem.byteAt x = s.mem.byteAt x

/-- MOVA (tile to vector), every element size and direction: the bytes of the Active elements of the Z register
become those of the slice, the others keep their value, and so do the bits that are not accessible, every other
register and memory (derived from 47_named_instructions.md R304, R315; the order of a vertical slice is the spec's D13,
notes/assumptions/18.md, and .Q predication rests on notes/assumptions/19.md). -/
def Obligations.MovaToVectorMergesSlice : Prop :=
  ∀ (es : ESize) (a : MovaOperands) (s : State), TileReady s → a.slice.wf es = true →
    ∃ t, exec (Instr.movaToVector es a) s = .next t
      ∧ t = { s with z := t.z, pc := s.pc + 4#64 }
      ∧ (∀ m : Fin 32, m ≠ a.z → t.z[m] = s.z[m])
      ∧ (∀ i, s.svlBits ≤ i → t.z[a.z].getLsbD i = s.z[a.z].getLsbD i)
      ∧ ∀ c < s.svlB, elem t.z[a.z] c 8 =
          if governs s a.pg es (c / es.bytes) = true then
            zaByte s
              (slicePlace es a.slice.dir a.slice.tile (s.sliceIndex es a.slice) (c / es.bytes) (c % es.bytes)).1
              (slicePlace es a.slice.dir a.slice.tile (s.sliceIndex es a.slice) (c / es.bytes) (c % es.bytes)).2
          else elem s.z[a.z] c 8

/-- MOVA (vector to tile), every element size and direction: a byte of the slice whose element is Active becomes
the byte of that element of the Z register; every other byte of ZA, every register and memory are unchanged
(derived from 47_named_instructions.md R304, R316; the order of a vertical slice is the spec's D13,
notes/assumptions/18.md, and .Q predication rests on notes/assumptions/19.md). -/
def Obligations.MovaToTileMergesVector : Prop :=
  ∀ (es : ESize) (a : MovaOperands) (s : State), TileReady s → a.slice.wf es = true →
    ∃ t, exec (Instr.movaToTile es a) s = .next t
      ∧ t = { s with za := t.za, pc := s.pc + 4#64 }
      ∧ ∀ row < s.svlB, ∀ col < s.svlB, zaByte t row col =
          if sliceHasByte es a.slice.dir a.slice.tile (s.sliceIndex es a.slice) row col = true
              ∧ governs s a.pg es (sliceElement es a.slice.dir row col) = true then
            elem s.z[a.z] (sliceElement es a.slice.dir row col * es.bytes + col % es.bytes) 8
          else zaByte s row col

/-! Exceptions, and where an instruction stops. -/

/-- An instruction whose feature is not implemented raises Undefined Instruction before anything else; with the
feature, one that a configurable control prevents raises the SME access trap, legal or not: the priority of
60_exceptions.md R325 (derived from R325 and 47_named_instructions.md R281). -/
def Obligations.UndefinedThenAccessTrap : Prop :=
  ∀ (i : Instr) (s : State),
    (featurePresent s.cfg i = false → exec i s = .fault (.undefinedInstruction s.pc))
    ∧ (featurePresent s.cfg i = true → s.cfg.smeAccessEnabled.at s.el = false → exec i s = .fault (.smeAccessTrap s.pc))

/-- When PSTATE.ZA is 0, every instruction of the table that accesses ZA storage or ZT0 is illegal, in both modes,
the six K2 instructions included: it raises the SME illegal instruction exception with no state changed
(derived from 43_streaming_mode_and_za_enable.md R172, R177; the reason of a tile slice instruction outside Streaming
SVE mode is the spec's D16, notes/assumptions/12.md). -/
def Obligations.ZaAccessIllegalWithoutZA : Prop :=
  ∀ (i : Instr) (s : State),
    featurePresent s.cfg i = true → s.cfg.smeAccessEnabled.at s.el = true → s.pstateZA = false →
    (legalClass i = .k2 → exec i s = .fault (.smeIllegal .zaIsZero s.pc))
    ∧ (legalClass i = .k3 → s.pstateSM = true → exec i s = .fault (.smeIllegal .zaIsZero s.pc))
    ∧ (legalClass i = .k3 → s.pstateSM = false → exec i s = .fault (.smeIllegal .smIsZero s.pc))

/-- Outside Streaming SVE mode every tile slice instruction is illegal, whatever PSTATE.ZA is, and the reason
reported is that PSTATE.SM is 0 (derived from 43_streaming_mode_and_za_enable.md R168, R177 and
60_exceptions.md R321; the order of the reasons is notes/assumptions/12.md). -/
def Obligations.TileSliceIllegalOutsideStreamingMode : Prop :=
  ∀ (es : ESize) (s : State), SmeReady s → s.pstateSM = false →
    (∀ a, exec (Instr.tileLoad es a) s = .fault (.smeIllegal .smIsZero s.pc))
    ∧ (∀ a, exec (Instr.tileStore es a) s = .fault (.smeIllegal .smIsZero s.pc))
    ∧ (∀ a, exec (Instr.movaToVector es a) s = .fault (.smeIllegal .smIsZero s.pc))
    ∧ ∀ a, exec (Instr.movaToTile es a) s = .fault (.smeIllegal .smIsZero s.pc)

/-- Where the legality table makes each of the six classes illegal, and the reason reported wherever it does
(derived from 43_streaming_mode_and_za_enable.md R177 and 60_exceptions.md R321; that K4 is legal with PSTATE.SM = 0 is
R177's own inference, and that K3 reports PSTATE.SM before PSTATE.ZA is D16, notes/assumptions/12.md). -/
def Obligations.LegalityTable : Prop :=
  ∀ sm za fa64 : Bool,
    (illegalReason .k1 sm za fa64 = none ↔ sm = true)
    ∧ (illegalReason .k2 sm za fa64 = none ↔ za = true)
    ∧ (illegalReason .k3 sm za fa64 = none ↔ sm = true ∧ za = true)
    ∧ illegalReason .k4 sm za fa64 = none
    ∧ (illegalReason .k5 sm za fa64 = none ↔ sm = false ∨ fa64 = true)
    ∧ illegalReason .k6 sm za fa64 = none
    ∧ (sm = false → illegalReason .k1 sm za fa64 = some .smIsZero)
    ∧ (za = false → illegalReason .k2 sm za fa64 = some .zaIsZero)
    ∧ (sm = false → illegalReason .k3 sm za fa64 = some .smIsZero)
    ∧ (sm = true → za = false → illegalReason .k3 sm za fa64 = some .zaIsZero)
    ∧ (sm = true → fa64 = false → illegalReason .k5 sm za fa64 = some .smIsOne)

/-- A base register that is not a multiple of 16 is refused by LDR and STR, and a start address that is not a
multiple of the element size by LD1 and ST1 (derived from 20_memory.md R62 and 47_named_instructions.md R305, R310:
the spec's decision D4). -/
def Obligations.MisalignedAccessRefused : Prop :=
  ∀ s : State,
    (SmeReady s → s.pstateZA = true → ∀ a : ArrayOperands, (s.base a.base).toNat % 16 ≠ 0 →
      exec (.ldrArray a) s = .refused .misalignedBase ∧ exec (.strArray a) s = .refused .misalignedBase)
    ∧ (Sme2Ready s → s.pstateZA = true → ∀ r : XnSP, (s.base r).toNat % 16 ≠ 0 →
      exec (.ldrTable r) s = .refused .misalignedBase ∧ exec (.strTable r) s = .refused .misalignedBase)
    ∧ (TileReady s → ∀ (es : ESize) (a : SliceMemOperands), s.sliceStart es a % es.bytes ≠ 0 →
      exec (Instr.tileLoad es a) s = .refused .misalignedStart
        ∧ exec (Instr.tileStore es a) s = .refused .misalignedStart)

/-- A request any byte of which is outside the launch memory, or that reaches 2^64, has no step: every memory
instruction is stuck, with nothing written (derived from 20_memory.md R60, the spec's D2; for the tile slices only the
Active elements make a request, notes/assumptions/20.md). A store to program text is refused instead, so stores are
stated where no byte holds text. -/
def Obligations.AccessOutsideMemoryIsStuck : Prop :=
  ∀ s : State,
    (SmeReady s → s.pstateZA = true → ∀ a : ArrayOperands, (s.base a.base).toNat % 16 = 0 →
      ¬ Mapped s.mem (s.arrayAddr a) s.svlB →
      exec (.ldrArray a) s = .fault (.outsideLaunchMemory s.pc)
        ∧ (NoText s.text (s.arrayAddr a) s.svlB → exec (.strArray a) s = .fault (.outsideLaunchMemory s.pc)))
    ∧ (Sme2Ready s → s.pstateZA = true → ∀ r : XnSP, (s.base r).toNat % 16 = 0 →
      ¬ Mapped s.mem (s.base r).toNat 64 →
      exec (.ldrTable r) s = .fault (.outsideLaunchMemory s.pc)
        ∧ (NoText s.text (s.base r).toNat 64 → exec (.strTable r) s = .fault (.outsideLaunchMemory s.pc)))
    ∧ (TileReady s → ∀ (es : ESize) (a : SliceMemOperands) (e : Nat), s.sliceStart es a % es.bytes = 0 →
      e < s.tileDim es → governs s a.pg es e = true →
      ¬ Mapped s.mem (s.sliceStart es a + e * es.bytes) es.bytes →
      exec (Instr.tileLoad es a) s = .fault (.outsideLaunchMemory s.pc)
        ∧ ((∀ f < s.tileDim es, governs s a.pg es f = true →
              NoText s.text (s.sliceStart es a + f * es.bytes) es.bytes) →
            exec (Instr.tileStore es a) s = .fault (.outsideLaunchMemory s.pc)))

/-- A store any byte of which goes to an address that holds program text is refused (derived from
20_memory.md R67). -/
def Obligations.StoreToProgramTextRefused : Prop :=
  ∀ s : State,
    (SmeReady s → s.pstateZA = true → ∀ a : ArrayOperands, (s.base a.base).toNat % 16 = 0 →
      ¬ NoText s.text (s.arrayAddr a) s.svlB → exec (.strArray a) s = .refused .storeToProgramText)
    ∧ (Sme2Ready s → s.pstateZA = true → ∀ r : XnSP, (s.base r).toNat % 16 = 0 →
      ¬ NoText s.text (s.base r).toNat 64 → exec (.strTable r) s = .refused .storeToProgramText)
    ∧ (TileReady s → ∀ (es : ESize) (a : SliceMemOperands) (e : Nat), s.sliceStart es a % es.bytes = 0 →
      e < s.tileDim es → governs s a.pg es e = true →
      ¬ NoText s.text (s.sliceStart es a + e * es.bytes) es.bytes →
      exec (Instr.tileStore es a) s = .refused .storeToProgramText)

/-- Every instruction that completes moves pc by exactly 4, and none completes where pc + 4 would reach 2^64
(derived from 10_state.md R36, the spec's decision D6). -/
def Obligations.PcMovesByFourWithoutWrapping : Prop :=
  ∀ (i : Instr) (s t : State), exec i s = .next t → t.pc.toNat = s.pc.toNat + 4

/-- Every fault an instruction raises carries the pc of the instruction, and the reasons that no instruction of the
table can have are never reported: not smIsOne (no row is NonStreamingOnly), not zt0Trapped (the model has no such
enable), not accessTrapped as an illegality (derived from 60_exceptions.md R320, R321, R324; D15, D18). -/
def Obligations.FaultsNameTheirInstruction : Prop :=
  ∀ (i : Instr) (s : State) (f : Fault), exec i s = .fault f →
    f = .undefinedInstruction s.pc ∨ f = .smeAccessTrap s.pc ∨ f = .smeIllegal .smIsZero s.pc
      ∨ f = .smeIllegal .zaIsZero s.pc ∨ f = .outsideLaunchMemory s.pc

/-! Rules of the whole machine. -/

/-- Every step keeps a consistent state consistent: the parameters, the presence of the mode bits, the canonical
form of both memories, the alignment of pc, no contents of ZA storage and ZT0 while PSTATE.ZA is 0, and no bit of the
vector, predicate and ZA registers set above what the PE implements (derived from 70_reset_and_hazards.md R351,
10_state.md R20, R22, R25, R38 and 30_encoding.md R80; that no contents means zero is notes/assumptions/31.md). -/
def Obligations.StepKeepsConsistent : Prop :=
  ∀ s t : State, Consistent s → step s = .next t → Consistent t

/-- The state after reset is consistent (derived, as the statement before it; the values of the registers are the
model's, notes/assumptions/3.md). -/
def Obligations.ResetIsConsistent : Prop := Consistent State.reset

/-- SVL and NSVL are constant through every run: no instruction of the table writes a LEN field or changes the
Exception level. The parameters, the Security state, the program text, SP and NZCV are constant too (derived from
70_reset_and_hazards.md R351, 60_exceptions.md R330 and the opening of 47_named_instructions.md). -/
def Obligations.StepKeepsLengthsAndLaunchParameters : Prop :=
  ∀ s t : State, step s = .next t →
    t.svl = s.svl ∧ t.nsvl = s.nsvl ∧ t.cfg = s.cfg ∧ t.el = s.el ∧ t.sec = s.sec ∧ t.smcrLen = s.smcrLen
      ∧ t.zcrLen = s.zcrLen ∧ t.text = s.text ∧ t.sp = s.sp ∧ t.nzcv = s.nzcv

/-- Whatever changes PSTATE.SM, a step or an event, zeroes every bit of the vector and predicate registers, in both
directions, and sets FPSR to its value, every cumulative flag raised; it zeroes FFR on exit, and on entry where FFR is
part of Streaming SVE register state (derived from 43_streaming_mode_and_za_enable.md R162, R163, R164; the names of the
flags are from general knowledge in 10_state.md R30, notes/assumptions/40.md, and that the Effective value of PSTATE.SM
is the stored one is notes/assumptions/9.md; that the model zeroes FFR on every entry, notes/assumptions/10.md, is not
stated here). -/
def Obligations.AnyChangeOfSMZeroesAndSetsFPSR : Prop :=
  ∀ s t : State, Moves s t → t.pstateSM ≠ s.pstateSM →
    (∀ n : Fin 32, t.z[n] = 0#2048) ∧ (∀ n : Fin 16, t.p[n] = 0#256)
      ∧ (s.pstateSM = true ∨ s.fa64Active = true → t.ffr = 0#256)
      ∧ t.fpsr = 0x000000000800009F#64
      ∧ fpsrFlags t.fpsr =
          { qc := true, idc := true, ixc := true, ufc := true, ofc := true, dzc := true, ioc := true }

/-- Whatever changes PSTATE.ZA from 0 to 1 zeroes all of ZA storage, and ZT0 where it is implemented
(43_streaming_mode_and_za_enable.md R174). -/
def Obligations.AnyEnableOfZAZeroesStorage : Prop :=
  ∀ s t : State, Moves s t → s.pstateZA = false → t.pstateZA = true →
    (∀ k : Fin 256, t.za[k] = 0#2048) ∧ (∀ k < t.svlB, t.zaVec k = 0#2048)
      ∧ (s.cfg.haveSME2 = true → ∀ i < 16, tableEntry t.zt0 i = 0#32)

/-- Whatever changes PSTATE.ZA and not PSTATE.SM leaves the vector registers, the predicate registers and FPSR as
they were (derived from 43_streaming_mode_and_za_enable.md R176, first sentence; its second is the two statements before
this one; FFR with them is the model's, from R179). -/
def Obligations.ChangeOfZAAloneKeepsRegisters : Prop :=
  ∀ s t : State, Moves s t → t.pstateZA ≠ s.pstateZA → t.pstateSM = s.pstateSM →
    t.z = s.z ∧ t.p = s.p ∧ t.ffr = s.ffr ∧ t.fpsr = s.fpsr

/-- While PSTATE.ZA stays 1, ZA storage and ZT0 are retained: no change of PSTATE.SM, and no instruction that does
not name ZA storage or ZT0 as a destination, changes them (derived from 43_streaming_mode_and_za_enable.md R173). -/
def Obligations.ZaStorageRetained : Prop :=
  (∀ (i : Instr) (s t : State), exec i s = .next t → s.pstateZA = true → t.pstateZA = true →
    (writesZA i = false → ∀ k < s.svlB, t.zaVec k = s.zaVec k) ∧ (writesZT0 i = false → t.zt0 = s.zt0))
  ∧ ∀ (s : State) (v : Bool), s.pstateZA = true →
      (∀ k < s.svlB, (applyEvent (.setSM v) s).zaVec k = s.zaVec k) ∧ (applyEvent (.setSM v) s).zt0 = s.zt0

/-- While PSTATE.ZA is 0 the contents of ZA storage and ZT0 cannot be observed: whatever they are, every instruction
has the same outcome and the same effect on everything else (derived from 43_streaming_mode_and_za_enable.md R172,
R175 and 10_state.md R38). -/
def Obligations.DisabledZAIsNotObservable : Prop :=
  ∀ (i : Instr) (s : State) (za : Vector VecReg 256) (zt0 : TableReg), s.pstateZA = false →
    SameOutcome (fun t u => u = { t with za := u.za, zt0 := u.zt0 }
        ∧ (t.pstateZA = true → u.za = t.za ∧ (s.cfg.haveSME2 = true → u.zt0 = t.zt0)))
      (exec i s) (exec i { s with za := za, zt0 := zt0 })

/-- Bits at and above VL of the vector registers, and at and above VL/8 of the predicate registers and FFR, are
inaccessible: states that differ only there have the same outcome, and next states that differ at most there
(derived from 40_vector_lengths.md R110: what no instruction reads). -/
def Obligations.InaccessibleBitsAreNotRead : Prop :=
  ∀ (i : Instr) (s u : State), SameAccessible s u → SameOutcome SameAccessible (exec i s) (exec i u)

/-- No instruction writes inaccessible bits: unless it changes PSTATE.SM, the bits at and above VL and VL/8 are as
they were (derived from 40_vector_lengths.md R110 and 10_state.md R37, what no instruction writes). -/
def Obligations.InaccessibleBitsAreNotWritten : Prop :=
  ∀ (i : Instr) (s t : State), exec i s = .next t → t.pstateSM = s.pstateSM →
    (∀ (n : Fin 32) (b : Nat), s.vlBits ≤ b → t.z[n].getLsbD b = s.z[n].getLsbD b)
    ∧ (∀ (n : Fin 16) (b : Nat), s.plBits ≤ b → t.p[n].getLsbD b = s.p[n].getLsbD b)
    ∧ ∀ b, s.plBits ≤ b → t.ffr.getLsbD b = s.ffr.getLsbD b

/-- Only SMSTART, SMSTOP and MSR SVCR change the mode bits, FPSR, the predicate registers and FFR; beside them only
MOVA (tile to vector) changes a vector register, only LDR (array vector), ZERO (tiles), tile loads and MOVA (vector to
tile) change ZA storage, only LDR (table) and ZERO (table) change ZT0; only stores change memory, only MRS SVCR changes
a general-purpose register; no instruction maps or unmaps an address or changes any other field (derived from
47_named_instructions.md R284-R316, the lines on what each writes, and 20_memory.md R60). -/
def Obligations.OnlyNamedDestinationsChange : Prop :=
  ∀ (i : Instr) (s t : State), exec i s = .next t →
    (changesModes i = false → t.pstateSM = s.pstateSM ∧ t.pstateZA = s.pstateZA ∧ t.fpsr = s.fpsr ∧ t.p = s.p
        ∧ t.ffr = s.ffr
        ∧ (writesZ i = false → t.z = s.z)
        ∧ (writesZA i = false → t.za = s.za)
        ∧ (writesZT0 i = false → t.zt0 = s.zt0))
    ∧ (storesMemory i = false → t.mem = s.mem)
    ∧ ((∀ rt, i ≠ .mrsSVCR rt) → t.x = s.x)
    ∧ (∀ x, (t.mem.byteAt x).isSome = (s.mem.byteAt x).isSome)
    ∧ t = { s with
        pc := t.pc, x := t.x, z := t.z, p := t.p, ffr := t.ffr, fpsr := t.fpsr, pstateSM := t.pstateSM,
        pstateZA := t.pstateZA, za := t.za, zt0 := t.zt0, mem := t.mem }

/-! Tile slices, predicates and vectors. -/

/-- A slice read after it was written gives the vector written, in both directions, and array vector k is
horizontal slice k div b of tile k mod b (derived from 44_za_storage_and_tiles.md R203, R204, R206; the order of a
vertical slice is the spec's D13, notes/assumptions/18.md). -/
def Obligations.SliceReadsBackWhatWasWritten : Prop :=
  ∀ (s : State) (es : ESize) (dir : SliceDir) (t n : Nat) (v : VecReg),
    t < es.bytes → n < s.tileDim es → lowBits s.svlBits v = v →
    (s.writeSlice dir t n es v).readSlice dir t n es = v
      ∧ ∀ k < s.svlB, s.readSlice .horizontal (vectorAsSlice k es).1 (vectorAsSlice k es).2 es = s.zaVec k

/-- Vertical slice n of a tile is element n of each horizontal slice of the tile: its element i is element n of
horizontal slice i, and writing it writes that element of each and nothing else of the tile
(derived from 44_za_storage_and_tiles.md R204; the order is the spec's D13, notes/assumptions/18.md). -/
def Obligations.VerticalSliceIsElementOfEachHorizontal : Prop :=
  ∀ (s : State) (es : ESize) (t n i : Nat) (v : VecReg),
    t < es.bytes → n < s.tileDim es → i < s.tileDim es → lowBits s.svlBits v = v →
    elem (s.readVSlice t n es) i es.bits = elem (s.readHSlice t i es) n es.bits
    ∧ elem ((s.writeVSlice t n es v).readHSlice t i es) n es.bits = elem v i es.bits
    ∧ ∀ m < s.tileDim es, m ≠ n →
        elem ((s.writeVSlice t n es v).readHSlice t i es) m es.bits = elem (s.readHSlice t i es) m es.bits

/-- Two tiles share storage exactly when some array vector lies in both, for every SVL: the overlap formula agrees
with the sets of array vectors (derived from 44_za_storage_and_tiles.md R207, R208). -/
def Obligations.TilesOverlapIffVectorShared : Prop :=
  ∀ (s : State) (x y : ESize) (a b : Nat), a < x.bytes → b < y.bytes →
    (tilesOverlap a x b y = true ↔ ∃ k < s.svlB, tileHasVector a x k = true ∧ tileHasVector b y k = true)
    ∧ ∀ k < s.svlB, tileHasVector a x k = true ↔ ∃ n < s.tileDim x, k = hSliceVector a n x

/-- The upper bits of predicate elements are ignored by every instruction that reads a mask: with the same
lowest-numbered bits the outcome is the same, and so is all the next state but the predicate register itself
(derived from 42_predication.md R137, R139, R154). -/
def Obligations.UpperPredicateBitsIgnored : Prop :=
  ∀ (es : ESize) (s : State) (q : Vector PredReg 16) (pg : Fin 8) (i : Instr),
    ((∃ a, a.pg = pg ∧ (i = Instr.tileLoad es a ∨ i = Instr.tileStore es a))
      ∨ ∃ a, a.pg = pg ∧ (i = Instr.movaToVector es a ∨ i = Instr.movaToTile es a)) →
    (∀ e < s.tileDim es, q[governing pg].getLsbD (e * es.bytes) = s.p[governing pg].getLsbD (e * es.bytes)) →
    SameOutcome (fun t u => u = { t with p := q }) (exec i s) (exec i { s with p := q })

/-- The canonical mask of a list of Booleans has bit e * psize equal to element e and every other bit 0, and reads
back as the list (derived from 42_predication.md R134-R136, R138; for .Q from R139, notes/assumptions/19.md). -/
def Obligations.CanonicalMask : Prop :=
  ∀ (es : ESize) (b : List Bool), b.length * es.bytes ≤ 256 →
    (∀ e < b.length, ∀ j < es.bytes, (maskFromBools b es).getLsbD (e * es.bytes + j) = (j == 0 && b.getD e false))
    ∧ (∀ i, b.length * es.bytes ≤ i → (maskFromBools b es).getLsbD i = false)
    ∧ maskToBools (maskFromBools b es) es b.length = b

/-- A predicated write gives every Active element the result and every Inactive element zero or its old value, by
the kind of predication (42_predication.md R157). -/
def Obligations.PredicatedWriteByElement : Prop :=
  ∀ (W w n : Nat) (old result : BitVec W) (active : Nat → Bool) (e : Nat), e < n → n * w ≤ W →
    (active e = true → ∀ mode, elem (predicatedWrite old result active w n mode) e w = elem result e w)
    ∧ (active e = false → elem (predicatedWrite old result active w n .zeroing) e w = 0#w)
    ∧ (active e = false → elem (predicatedWrite old result active w n .merging) e w = elem old e w)

/-- A counter written by a generator reads back: element e is TRUE exactly when e < count, inverted by the invert
bit, for every vector length, number of vectors and element size (derived from 42_predication.md R141, R142, R143,
R150; which count bits count is the spec's D12, notes/assumptions/28.md). -/
def Obligations.CounterReadsBack : Prop :=
  ∀ (vl : VecLen) (nvec lsz count : Nat) (es : ESize) (invert : Bool),
    counterLsz es = some lsz → count < 2 ^ (counterMaxBit vl - lsz) →
    counterToBools (counterEncode invert count lsz) vl nvec es =
      some ((List.range (nvec * vl.bits / es.bits)).map (fun e => xor (decide (e < count)) invert))

/-- The canonical encodings: 0x0000, and every other value whose size field is 0b0000, is all FALSE at every
element size; 0x8001, 0x8002, 0x8004 and 0x8008 are all TRUE at theirs (42_predication.md R145, R146). -/
def Obligations.CanonicalCounters : Prop :=
  ∀ (vl : VecLen) (nvec : Nat),
    (∀ (pn : BitVec 16) (es : ESize), pn.setWidth 4 = 0#4 →
      counterToBools pn vl nvec es = some (List.replicate (nvec * vl.bits / es.bits) false))
    ∧ counterAllFalse = 0x0000#16
    ∧ counterAllTrue 0 = 0x8001#16 ∧ counterAllTrue 1 = 0x8002#16 ∧ counterAllTrue 2 = 0x8004#16
    ∧ counterAllTrue 3 = 0x8008#16
    ∧ ∀ (es : ESize) (lsz : Nat), counterLsz es = some lsz →
        counterToBools (counterAllTrue lsz) vl nvec es = some (List.replicate (nvec * vl.bits / es.bits) true)

/-- A consumer of a counter ignores the more significant bits of the count field, and bits 16 and higher of the
register (derived from 42_predication.md R148, R149; the bits used are the spec's D12, notes/assumptions/28.md). -/
def Obligations.CounterIgnoresHighCountBits : Prop :=
  (∀ (a b : BitVec 16) (vl : VecLen) (nvec : Nat) (es : ESize),
    (∀ i, i ≤ counterMaxBit vl ∨ i = 15 → a.getLsbD i = b.getLsbD i) →
    counterToBools a vl nvec es = counterToBools b vl nvec es)
  ∧ ∀ (s : State) (g : Fin 16) (v : PredReg), lowBits 16 v = lowBits 16 s.p[g] →
      State.readCounter { s with p := s.p.set g v } g = s.readCounter g

/-- A write of a 128-bit SIMD&FP register sets bits [VL-1:128] of the vector register to zero and leaves the bits
that are not accessible, and every other register, as they were (41_vector_registers_scalar_writes.md R124). -/
def Obligations.SimdWriteZeroesToVL : Prop :=
  ∀ (s : State) (n : Fin 32) (v : BitVec 128),
    s.writeV n v = { s with z := (s.writeV n v).z }
    ∧ (∀ i < 128, (s.writeV n v).z[n].getLsbD i = v.getLsbD i)
    ∧ (∀ i, 128 ≤ i → i < s.vlBits → (s.writeV n v).z[n].getLsbD i = false)
    ∧ (∀ i, s.vlBits ≤ i → (s.writeV n v).z[n].getLsbD i = s.z[n].getLsbD i)
    ∧ ∀ m : Fin 32, m ≠ n → (s.writeV n v).z[m] = s.z[m]

/-- A scalar result of N bits goes to bits [N-1:0] of the destination and every higher bit up to the accessible
width becomes zero: 64 bits of a general-purpose register, VL bits of a vector register (derived from
41_vector_registers_scalar_writes.md R125, R126; the 64 bits are from general knowledge there). -/
def Obligations.ScalarResultIsZeroExtended : Prop :=
  ∀ (s : State) (w : Nat) (r : BitVec w),
    (∀ d : Fin 31, w ≤ 64 → ∀ i < 64,
      (s.scalarWriteGPR d r).x[d].getLsbD i = (decide (i < w) && r.getLsbD i))
    ∧ ∀ d : Fin 32, w ≤ s.vlBits →
        (∀ i < s.vlBits, (s.scalarWriteVec d r).z[d].getLsbD i = (decide (i < w) && r.getLsbD i))
        ∧ ∀ i, s.vlBits ≤ i → (s.scalarWriteVec d r).z[d].getLsbD i = s.z[d].getLsbD i

/-! Vector lengths. -/

/-- The selected lengths are members of the implemented sets: SVL of SVLSet and at most MaxSVL, NSVL a power of two
up to MaxNSVL (derived from 40_vector_lengths.md R104, R105, R107, R108). -/
def Obligations.SelectedLengthsAreImplemented : Prop :=
  ∀ s : State, s.cfg.ok = true →
    s.svl ∈ s.cfg.svlSet ∧ s.svl.bits ≤ s.cfg.maxSVL.bits ∧ s.nsvl.bits ≤ s.cfg.maxNSVL.bits
      ∧ ∀ l : VecLen, l.bits ≤ s.cfg.maxNSVL.bits ↔ l ∈ nsvlSet s.cfg

/-- VL is SVL in Streaming SVE mode and NSVL otherwise, but 128 outside that mode where SVE instructions are
disabled or trapped; the Maximum implemented SVE vector length is MaxSVL in Streaming SVE mode and MaxNSVL
otherwise, on a PE with FEAT_SVE (derived from 40_vector_lengths.md R102, R109, R114; that R114 constrains only
VL outside Streaming SVE mode is notes/assumptions/25.md). -/
def Obligations.EffectiveVectorLength : Prop :=
  ∀ s : State,
    (s.pstateSM = true → s.vl = s.svl ∧ s.maxVL = s.cfg.maxSVL)
    ∧ (s.pstateSM = false → s.cfg.haveSVE = true →
        s.maxVL = s.cfg.maxNSVL
        ∧ (s.cfg.sveDisabledOrTrapped.at s.el = true → s.vl = .v128)
        ∧ (s.cfg.sveDisabledOrTrapped.at s.el = false → s.vl = s.nsvl))

/-- Across any sequence of LEN writes, exception entries and exception returns, the bits below the smallest VL of
the sequence (VL/8 for predicate registers and FFR) stay as they were (40_vector_lengths.md R113). -/
def Obligations.ConsistentlyAccessibleBitsKept : Prop :=
  ∀ (es : List Event) (s : State) (m : Nat),
    (∀ e ∈ es, isLengthEvent e = true) →
    (∀ k ≤ es.length, m ≤ (applyEvents (es.take k) s).vlBits) →
    (∀ n : Fin 32, lowBits m (applyEvents es s).z[n] = lowBits m s.z[n])
    ∧ (∀ n : Fin 16, lowBits (m / 8) (applyEvents es s).p[n] = lowBits (m / 8) s.p[n])
    ∧ lowBits (m / 8) (applyEvents es s).ffr = lowBits (m / 8) s.ffr

/-- When VL is increased, the bits of a register that become accessible are all zero or all as they were, each
register on its own; when it is not increased no bit changes; bits above the new VL never change, and neither does
any bit where the PE preserves the state (derived from 40_vector_lengths.md R111, R117; the choice is a free value,
notes/assumptions/22.md, and the statement holds for every one). -/
def Obligations.NewlyAccessibleBitsZeroOrPrevious : Prop :=
  ∀ (s : State) (old new : Nat) (preserved : Bool),
    ((new ≤ old ∨ preserved = true) →
      (s.changeVL old new preserved).z = s.z ∧ (s.changeVL old new preserved).p = s.p
        ∧ (s.changeVL old new preserved).ffr = s.ffr)
    ∧ (old < new →
      (∀ n : Fin 32, (s.changeVL old new preserved).z[n] = s.z[n]
        ∨ ∀ b, (s.changeVL old new preserved).z[n].getLsbD b = (!(decide (old ≤ b ∧ b < new)) && s.z[n].getLsbD b))
      ∧ (∀ n : Fin 16, (s.changeVL old new preserved).p[n] = s.p[n]
        ∨ ∀ b, (s.changeVL old new preserved).p[n].getLsbD b
            = (!(decide (old / 8 ≤ b ∧ b < new / 8)) && s.p[n].getLsbD b))
      ∧ ((s.changeVL old new preserved).ffr = s.ffr
        ∨ ∀ b, (s.changeVL old new preserved).ffr.getLsbD b
            = (!(decide (old / 8 ≤ b ∧ b < new / 8)) && s.ffr.getLsbD b)))

/-- Taking an exception to a level below which SVE, SME and floating-point instructions are unavailable everywhere
changes no bit of the vector and predicate registers and FFR; whatever the condition, exception entry and return
change neither mode bit, FPSR nor ZT0, and ZA storage at most where SVL changes with PSTATE.ZA = 1 (derived from
40_vector_lengths.md R115, R118, D9 and 60_exceptions.md R324). The model's choices, not the source's: preserved means
every bit, notes/assumptions/26.md; that entry and return leave the mode bits and FPSR as they are is from general
knowledge in R324 and R328, which 91_not_in_source.md N14 says not to assume, and from what the model takes an entry to
be, notes/assumptions/11.md and 27.md. -/
def Obligations.ExceptionEntryPreservesState : Prop :=
  ∀ (s : State) (target : ELevel),
    ((∀ l : ELevel, l.num < target.num → s.cfg.simdUnavailable.at l = true) →
      (s.enterLevel target).z = s.z ∧ (s.enterLevel target).p = s.p ∧ (s.enterLevel target).ffr = s.ffr)
    ∧ (∀ t : State, t = s.enterLevel target ∨ t = s.returnToLevel target →
        t.el = target ∧ t.pstateSM = s.pstateSM ∧ t.pstateZA = s.pstateZA ∧ t.fpsr = s.fpsr ∧ t.zt0 = s.zt0
          ∧ (t.svl = s.svl ∨ s.pstateZA = false → t.za = s.za))

/-! Multi-vector operands and the lookup table. -/

/-- A ZA multi-slice operand of k slices is UNDEFINED exactly when the tile has fewer than k slices; otherwise its
first slice is Ws + offs rounded down to a multiple of k, modulo the number of slices, and the k slices are
consecutive and inside the tile (derived from 45_multi_vector_operands.md R243, R244; that exactly these cases are
UNDEFINED is R244's own inference, notes/assumptions/39.md; that every offset is admitted, the source giving no range,
is the model's choice, 46.md there; that Ws is W12 to W15 is from general knowledge, 45.md there). -/
def Obligations.MultiSliceOperand : Prop :=
  ∀ (s : State) (ws : SelReg) (offs : Nat) (es : ESize) (k : GroupNum), k ≠ .one →
    (s.tileDim es < k.val → s.multiSliceOperand ws offs es k = .error .undefinedInstr)
    ∧ (k.val ≤ s.tileDim es →
        ∃ first, s.multiSliceOperand ws offs es k = .ok ((List.range k.val).map (fun j => first + j))
          ∧ first = ((s.sel ws + offs) / k.val * k.val) % s.tileDim es
          ∧ first % k.val = 0 ∧ first + k.val ≤ s.tileDim es)
    ∧ (s.tileDim es < k.val ↔
        (es = .d ∧ k = .four ∧ s.svl = .v128) ∨ (es = .q ∧ k = .two ∧ s.svl = .v128)
          ∨ (es = .q ∧ k = .four ∧ (s.svl = .v128 ∨ s.svl = .v256)))

/-- The ZA multi-vector operand of ng groups of gs vectors: group g holds vectors n to n + gs - 1 of its part of the
array, n is a multiple of gs below SVLB / ng, the groups lie in separate parts and every vector is one of the array
(derived from 45_multi_vector_operands.md R254-R264, R267; the rounding of n is the spec's D14,
notes/assumptions/29.md; that Wv is W8 to W11 is 45.md there, one group of one vector is 53.md). -/
def Obligations.MultiVectorOperand : Prop :=
  ∀ (s : State) (wv : GroupSelReg) (offs : Nat) (ng gs : GroupNum), ∃ n,
    n % gs.val = 0 ∧ n + gs.val ≤ s.svlB / ng.val
    ∧ n = (s.groupSel wv + offs) % (s.svlB / ng.val) / gs.val * gs.val
    ∧ (gs = .one → n = (s.groupSel wv + offs) % (s.svlB / ng.val))
    ∧ s.multiVectorOperand wv offs ng gs =
        (List.range ng.val).map (fun g => (List.range gs.val).map (fun j => s.svlB * g / ng.val + (n + j)))
    ∧ (s.multiVectorOperand wv offs ng gs).flatten.Nodup
    ∧ ∀ k ∈ (s.multiVectorOperand wv offs ng gs).flatten, k < s.svlB

/-- Z multi-vector operands: consecutive numbering wraps from 31 to 0; strided numbering is 8 apart for two and 4
apart for four, stays in one half of the file, and exists exactly for the first registers the rules name
(45_multi_vector_operands.md R233-R236). -/
def Obligations.ZMultiVectorRegisters : Prop :=
  (∀ (k : Nat) (n : Fin 32), (zConsecutive k n).map (fun r => r.val) = (List.range k).map (fun j => (n.val + j) % 32))
  ∧ (∀ n : Fin 32, ((zStrided2 n).isSome = true ↔ n.val < 8 ∨ (16 ≤ n.val ∧ n.val < 24))
      ∧ ∀ l, zStrided2 n = some l → l.map (fun r => r.val) = [n.val, n.val + 8])
  ∧ ∀ n : Fin 32, ((zStrided4 n).isSome = true ↔ n.val < 4 ∨ (16 ≤ n.val ∧ n.val < 20))
      ∧ ∀ l, zStrided4 n = some l → l.map (fun r => r.val) = [n.val, n.val + 4, n.val + 8, n.val + 12]

/-- The ZT0 lookup to a list of distinct destination registers: element e of destination register number r is the low
bits of the table entry that packed index imm * total + r * elements + e of the source names; every entry named is one
of the table, 2-bit indices name only entries 0 to 3; only the accessible bits of the destination registers change. An
instruction that performs it completes in Streaming SVE mode with PSTATE.ZA = 1 and is illegal otherwise (derived from
46_zt0.md R270-R275 and 43_streaming_mode_and_za_enable.md R177; where a portion starts is notes/assumptions/30.md, an
imm past the last portion is 44.md there, a list outside the forms of R273 is 52.md, the order of the reasons is
12.md). -/
def Obligations.Zt0LookupByElement : Prop :=
  ∀ (s : State) (dlist : List (Fin 32)) (n : Fin 32) (es : TableESize) (isz : IndexSize) (imm : Nat), dlist.Nodup →
    s.zt0Lookup dlist es isz n imm = { s with z := (s.zt0Lookup dlist es isz n imm).z }
    ∧ (∀ (r e : Nat) (d : Fin 32), dlist[r]? = some d → e < s.vlBits / es.bits →
        elem (s.zt0Lookup dlist es isz n imm).z[d] e es.bits =
          (tableEntry s.zt0 (packedIndex (s.readZ n)
            (imm * (dlist.length * (s.vlBits / es.bits)) + r * (s.vlBits / es.bits) + e) isz)).setWidth es.bits)
    ∧ (∀ k, packedIndex (s.readZ n) k isz < (match isz with | .two => 4 | .four => 16))
    ∧ (∀ (m : Fin 32) (b : Nat), m ∉ dlist ∨ s.vlBits ≤ b →
        (s.zt0Lookup dlist es isz n imm).z[m].getLsbD b = s.z[m].getLsbD b)
    ∧ (Sme2Ready s →
        (s.pstateSM = true → s.pstateZA = true →
          lookupInstruction dlist es isz n imm s = .next { s.zt0Lookup dlist es isz n imm with pc := s.pc + 4#64 })
        ∧ (s.pstateSM = false → lookupInstruction dlist es isz n imm s = .fault (.smeIllegal .smIsZero s.pc))
        ∧ (s.pstateSM = true → s.pstateZA = false →
          lookupInstruction dlist es isz n imm s = .fault (.smeIllegal .zaIsZero s.pc)))
end

