-- ==== Sys2Proof/Laws/Bits.lean ====
section
/-! SUPPORT. The bits and the elements of the container operations: what each operation of
Machine/Bits.lean leaves in every bit. -/

namespace Sys2Proof.Laws

open Sys2Proof.Machine

/-- Bit i of element e. -/
@[simp] theorem getLsbD_elem {W : Nat} (v : BitVec W) (e w i : Nat) :
    (elem v e w).getLsbD i = (decide (i < w) && v.getLsbD (e * w + i)) := by
  simp [elem]

/-- Bit i of the low n bits. -/
@[simp] theorem getLsbD_lowBits {W : Nat} (n : Nat) (v : BitVec W) (i : Nat) :
    (lowBits n v).getLsbD i = (decide (i < n) && v.getLsbD i) := by
  by_cases h : i < W
  · simp [lowBits, h]
  · simp [lowBits, h, BitVec.getLsbD_of_ge v i (by omega)]

/-- Bit i of a merged write: the new value below n, the old value from n on. -/
@[simp] theorem getLsbD_mergeLow {W : Nat} (n : Nat) (old new : BitVec W) (i : Nat) :
    (mergeLow n old new).getLsbD i = if i < n then new.getLsbD i else old.getLsbD i := by
  rw [mergeLow, BitVec.getLsbD_or, BitVec.getLsbD_shiftLeft, BitVec.getLsbD_ushiftRight, getLsbD_lowBits]
  by_cases hn : i < n
  · simp [hn]
  · by_cases h : i < W
    · simp [hn, h, show n + (i - n) = i by omega]
    · simp [hn, h, BitVec.getLsbD_of_ge old i (by omega)]

/-- Bit i of a container with one element replaced. -/
theorem getLsbD_setElem {W : Nat} (v : BitVec W) (e w : Nat) (x : BitVec w) (i : Nat) :
    (setElem v e w x).getLsbD i =
      if e * w ≤ i ∧ i < e * w + w then decide (i < W) && x.getLsbD (i - e * w) else v.getLsbD i := by
  rw [setElem, BitVec.getLsbD_or, BitVec.getLsbD_and, BitVec.getLsbD_not, BitVec.getLsbD_shiftLeft,
    BitVec.getLsbD_shiftLeft, BitVec.getLsbD_setWidth, BitVec.getLsbD_setWidth, BitVec.getLsbD_allOnes]
  by_cases h : i < W
  · by_cases h1 : e * w ≤ i
    · by_cases h2 : i < e * w + w
      · simp [h, h1, h2, show i - e * w < w by omega, show i - e * w < W by omega, Nat.not_lt.mpr h1]
      · simp [h, h1, h2, show ¬ i - e * w < w by omega, show i - e * w < W by omega, Nat.not_lt.mpr h1,
          BitVec.getLsbD_of_ge x (i - e * w) (by omega)]
    · simp [h, h1, Nat.lt_of_not_le h1]
  · simp [h, BitVec.getLsbD_of_ge v i (by omega)]

/-- Bit i of a value built from elements: the bit of its element, zero above the last one. -/
theorem getLsbD_buildElems (W w n : Nat) (f : Nat → BitVec w) (i : Nat) :
    (buildElems W w n f).getLsbD i = (decide (i < W) && decide (i < n * w) && (f (i / w)).getLsbD (i % w)) := by
  induction n with
  | zero => simp [buildElems]
  | succ n ih =>
    rw [buildElems, getLsbD_setElem, ih, Nat.succ_mul]
    rcases Nat.eq_zero_or_pos w with hw | hw
    · subst hw
      have : ∀ x : BitVec 0, ∀ k, x.getLsbD k = false := fun x k => BitVec.getLsbD_of_ge x k (Nat.zero_le k)
      simp
    · by_cases h1 : n * w ≤ i
      · by_cases h2 : i < n * w + w
        · have hd : i / w = n := by
            rw [Nat.div_eq_of_lt_le (by omega) (by rw [Nat.succ_mul]; omega)]
          have hm : i % w = i - n * w := by
            have := Nat.div_add_mod i w
            rw [hd, Nat.mul_comm] at this; omega
          simp [h1, h2, hd, hm]
        · simp [h1, h2, show ¬ i < n * w by omega]
      · simp [h1, show i < n * w by omega, show i < n * w + w by omega]

/-- An element read back from a value built from elements. -/
theorem elem_buildElems {W w n : Nat} (f : Nat → BitVec w) {e : Nat} (he : e < n) (hW : n * w ≤ W) :
    elem (buildElems W w n f) e w = f e := by
  apply BitVec.eq_of_getLsbD_eq
  intro i hi
  have h1 : (e + 1) * w ≤ n * w := Nat.mul_le_mul_right w he
  rw [Nat.succ_mul] at h1
  have hw : 0 < w := by omega
  have hd : (e * w + i) / w = e := by
    rw [Nat.mul_comm, Nat.mul_add_div hw, Nat.div_eq_of_lt hi, Nat.add_zero]
  have hm : (e * w + i) % w = i := by
    rw [Nat.mul_comm, Nat.mul_add_mod, Nat.mod_eq_of_lt hi]
  rw [getLsbD_elem, getLsbD_buildElems, hd, hm]
  simp only [hi, show e * w + i < W by omega, show e * w + i < n * w by omega, decide_true, Bool.true_and]

/-- A byte of a value built from elements of b bytes. -/
theorem byte_buildElems {W b n : Nat} (f : Nat → BitVec (8 * b)) {c : Nat} (hb : 0 < b) (hc : c < n * b)
    (hW : n * (8 * b) ≤ W) : elem (buildElems W (8 * b) n f) c 8 = elem (f (c / b)) (c % b) 8 := by
  apply BitVec.eq_of_getLsbD_eq
  intro i hi
  have h1 : (c * 8 + i) / (8 * b) = c / b := by
    rw [← Nat.div_div_eq_div_mul]
    congr 1
    omega
  have h2 : (c * 8 + i) % (8 * b) = c % b * 8 + i := by
    rw [Nat.mod_mul, show (c * 8 + i) % 8 = i by omega, show (c * 8 + i) / 8 = c by omega]
    omega
  have h3 : n * (8 * b) = 8 * (n * b) := by ring
  rw [getLsbD_elem, getLsbD_elem, getLsbD_buildElems, h1, h2]
  have h4 : c % b * 8 + i < 8 * b := by have := Nat.mod_lt c hb; omega
  simp only [hi, show c * 8 + i < W by omega, show c * 8 + i < n * (8 * b) by omega, decide_true, Bool.true_and]

/-- The low bits of the low bits. -/
@[simp] theorem lowBits_lowBits {W : Nat} (m n : Nat) (v : BitVec W) :
    lowBits m (lowBits n v) = lowBits (min m n) v := by
  apply BitVec.eq_of_getLsbD_eq
  intro i _
  simp only [getLsbD_lowBits, Nat.lt_min, Bool.decide_and, Bool.and_assoc]

/-- The accessible part of a merged write is the accessible part of the new value. -/
@[simp] theorem lowBits_mergeLow {W : Nat} (n : Nat) (old new : BitVec W) :
    lowBits n (mergeLow n old new) = lowBits n new := by
  apply BitVec.eq_of_getLsbD_eq
  intro i _
  by_cases h : i < n <;> simp [h]

/-- Writing back what was read changes nothing. -/
@[simp] theorem mergeLow_self {W : Nat} (n : Nat) (v : BitVec W) : mergeLow n v (lowBits n v) = v := by
  apply BitVec.eq_of_getLsbD_eq
  intro i _
  by_cases h : i < n <;> simp [h]

/-- No bit is set in the low bits of zero. -/
@[simp] theorem lowBits_zero {W : Nat} (n : Nat) : lowBits n (0#W) = 0#W := by
  apply BitVec.eq_of_getLsbD_eq
  intro i _
  simp

/-- A value built from elements has no bit above the last one. -/
theorem lowBits_buildElems {W w n k : Nat} (f : Nat → BitVec w) (h : n * w ≤ k) :
    lowBits k (buildElems W w n f) = buildElems W w n f := by
  apply BitVec.eq_of_getLsbD_eq
  intro i _
  simp only [getLsbD_lowBits, getLsbD_buildElems]
  by_cases hi : i < n * w
  · simp [show i < k by omega]
  · simp [hi]

/-- An element that lies whole in the low bits. -/
theorem elem_lowBits {W : Nat} (v : BitVec W) {n e w : Nat} (h : (e + 1) * w ≤ n) :
    elem (lowBits n v) e w = elem v e w := by
  rw [Nat.succ_mul] at h
  apply BitVec.eq_of_getLsbD_eq
  intro i hi
  rw [getLsbD_elem, getLsbD_elem, getLsbD_lowBits]
  simp only [show e * w + i < n by omega, decide_true, Bool.true_and]

/-- A byte of an element of b bytes. -/
theorem byte_elem {W : Nat} (v : BitVec W) {b e j : Nat} (hj : j < b) :
    elem (elem v e (8 * b)) j 8 = elem v (e * b + j) 8 := by
  apply BitVec.eq_of_getLsbD_eq
  intro i hi
  have : e * (8 * b) + (j * 8 + i) = (e * b + j) * 8 + i := by ring
  rw [getLsbD_elem, getLsbD_elem, getLsbD_elem, this]
  simp only [show j * 8 + i < 8 * b by omega, decide_true, Bool.true_and]

/-- Two containers with no bit at or above n agree when their elements of w bits agree. -/
theorem eq_of_elems {W : Nat} {u v : BitVec W} {n w : Nat} (hw : 0 < w) (hu : lowBits (n * w) u = u)
    (hv : lowBits (n * w) v = v) (h : ∀ e, e < n → elem u e w = elem v e w) : u = v := by
  rw [← hu, ← hv]
  apply BitVec.eq_of_getLsbD_eq
  intro i _
  by_cases hi : i < n * w
  · have he : i / w < n := by rw [Nat.div_lt_iff_lt_mul hw]; exact hi
    have hm : i % w < w := Nat.mod_lt i hw
    have hd : i / w * w + i % w = i := by rw [Nat.mul_comm]; exact Nat.div_add_mod i w
    have := congrArg (fun x => x.getLsbD (i % w)) (h (i / w) he)
    rw [getLsbD_elem, getLsbD_elem, hd] at this
    simpa only [hm, decide_true, Bool.true_and, getLsbD_lowBits, hi] using this
  · simp [hi]

/-- The number of bytes. -/
@[simp] theorem leBytes_length {W : Nat} (v : BitVec W) (n : Nat) : (leBytes v n).length = n := by
  induction n with
  | zero => rfl
  | succ n ih => simp [leBytes, ih]

/-- Byte k of the bytes of a value. -/
theorem leBytes_getElem? {W : Nat} (v : BitVec W) (n k : Nat) :
    (leBytes v n)[k]? = if k < n then some (elem v k 8) else none := by
  induction n with
  | zero => simp [leBytes]
  | succ n ih =>
    rw [leBytes, List.getElem?_append, leBytes_length, ih]
    by_cases h : k < n
    · simp [h, show k < n + 1 by omega]
    · by_cases h2 : k = n
      · subst h2; simp
      · simp [h, show ¬ k < n + 1 by omega, show k - n ≠ 0 by omega]

end Sys2Proof.Laws
end

