-- ==== Sys2Proof/Laws/Decode.lean ====
section
/-! SUPPORT. The laws of the opcode table and of the bit fields that decoding cuts and encoding places. -/

namespace Sys2Proof.Laws

/-- The rows are pairwise disjoint: some bit is fixed by both masks and differs (30_encoding.md R81). -/
theorem opcTable_disjoint :
    opcTable.Pairwise (fun a b => a.mask &&& b.mask &&& (a.value ^^^ b.value) ≠ 0#32) := by decide

/-- In every row the fixed bits lie inside the mask. -/
theorem value_and_mask (o : Opc) : o.value &&& o.mask = o.value := by
  cases o with
  | ld1 es => cases es <;> decide
  | st1 es => cases es <;> decide
  | movaT2V es => cases es <;> decide
  | movaV2T es => cases es <;> decide
  | _ => decide

/-- Every row is in the table. -/
theorem mem_opcTable (o : Opc) : o ∈ opcTable := by
  cases o with
  | ld1 es => cases es <;> decide
  | st1 es => cases es <;> decide
  | movaT2V es => cases es <;> decide
  | movaV2T es => cases es <;> decide
  | _ => decide

/-- No word matches two rows that are disjoint. -/
theorem not_both_match {a b : Opc} (h : a.mask &&& b.mask &&& (a.value ^^^ b.value) ≠ 0#32) {w : IWord}
    (ha : a.matchesWord w = true) (hb : b.matchesWord w = true) : False := by
  apply h
  unfold Opc.matchesWord at ha hb
  rw [beq_iff_eq] at ha hb
  rw [← ha, ← hb]
  apply BitVec.eq_of_getLsbD_eq
  intro i _
  simp only [BitVec.getLsbD_and, BitVec.getLsbD_xor, BitVec.getLsbD_zero]
  cases a.mask.getLsbD i <;> cases b.mask.getLsbD i <;> cases w.getLsbD i <;> rfl

/-- Looking up a word finds the row it matches, wherever the row stands. -/
theorem find_of_matches {w : IWord} {o : Opc} {l : List Opc}
    (hl : l.Pairwise (fun a b => a.mask &&& b.mask &&& (a.value ^^^ b.value) ≠ 0#32)) (ho : o ∈ l)
    (h : o.matchesWord w = true) : l.find? (fun o => o.matchesWord w) = some o := by
  induction l with
  | nil => exact absurd ho (by simp)
  | cons a rest ih =>
    rw [List.pairwise_cons] at hl
    rcases List.mem_cons.mp ho with h1 | h1
    · subst h1; simp [h]
    · cases hm : a.matchesWord w with
      | true => exact absurd (not_both_match (hl.1 o h1) hm h) id
      | false => simp [hm, ih hl.2 h1]

/-- A word that matches a row decodes to the row's instruction. -/
theorem decodeWord_of_matches {w : IWord} {o : Opc} (h : o.matchesWord w = true) : decodeWord w = .ok (o.build w) := by
  unfold decodeWord
  rw [find_of_matches opcTable_disjoint (mem_opcTable o) h]

/-- A word that decodes matches the row of its instruction. -/
theorem decodeWord_ok {w : IWord} {i : Instr} (h : decodeWord w = .ok i) :
    ∃ o : Opc, o.matchesWord w = true ∧ i = o.build w := by
  unfold decodeWord at h
  cases hf : opcTable.find? (fun o => o.matchesWord w) with
  | none => rw [hf] at h; exact absurd h (by simp)
  | some o =>
    rw [hf] at h
    exact ⟨o, List.find?_some (p := fun o : Opc => o.matchesWord w) hf, by simpa [eq_comm] using h⟩

/-- The row an instruction is built from is its row. -/
theorem opc_build (o : Opc) (w : IWord) : (o.build w).opc = o := by
  cases o with
  | ld1 es => cases es <;> rfl
  | st1 es => cases es <;> rfl
  | movaT2V es => cases es <;> rfl
  | movaV2T es => cases es <;> rfl
  | _ => rfl

/-! Fields. -/

theorem wordField_or (u v : IWord) (lo len : Nat) :
    wordField (u ||| v) lo len = wordField u lo len ||| wordField v lo len := by
  apply BitVec.eq_of_getLsbD_eq
  intro i hi
  simp only [wordField, BitVec.getLsbD_extractLsb', BitVec.getLsbD_or, hi, decide_true, Bool.true_and]

/-- A field is read back where it was placed. -/
theorem wordField_placeField_same {n : Nat} (f : BitVec n) {lo : Nat} (h : lo + n ≤ 32) :
    wordField (placeField f lo) lo n = f := by
  apply BitVec.eq_of_getLsbD_eq
  intro i hi
  rw [wordField, placeField, BitVec.getLsbD_extractLsb', BitVec.getLsbD_shiftLeft, BitVec.getLsbD_setWidth]
  simp only [hi, show lo + i < 32 by omega, show ¬ lo + i < lo by omega, show lo + i - lo = i by omega,
    show i < 32 by omega, decide_true, decide_false, Bool.not_false, Bool.true_and]

/-- A field placed elsewhere is not seen. -/
theorem wordField_placeField_other {n m : Nat} (f : BitVec n) {lo lo' : Nat} (h : lo + m ≤ lo' ∨ lo' + n ≤ lo) :
    wordField (placeField f lo') lo m = 0#m := by
  apply BitVec.eq_of_getLsbD_eq
  intro i hi
  rw [wordField, placeField, BitVec.getLsbD_extractLsb', BitVec.getLsbD_shiftLeft, BitVec.getLsbD_setWidth,
    BitVec.getLsbD_zero]
  rcases h with h | h
  · simp [show lo + i < lo' by omega]
  · simp [BitVec.getLsbD_of_ge f (lo + i - lo') (by omega)]

/-- A field placed outside a mask is not seen through it. -/
theorem placeField_and {n : Nat} (f : BitVec n) (lo : Nat) {mask : IWord}
    (h : placeField (BitVec.allOnes n) lo &&& mask = 0#32) : placeField f lo &&& mask = 0#32 := by
  apply BitVec.eq_of_getLsbD_eq
  intro i hi
  have := congrArg (fun v => v.getLsbD i) h
  simp only [placeField, BitVec.getLsbD_and, BitVec.getLsbD_shiftLeft, BitVec.getLsbD_setWidth,
    BitVec.getLsbD_allOnes, BitVec.getLsbD_zero] at this ⊢
  by_cases hb : i - lo < n
  · revert this
    simp only [hb, decide_true]
    cases f.getLsbD (i - lo) <;> simp
  · simp [BitVec.getLsbD_of_ge f (i - lo) (by omega)]

theorem and_or_distrib (u v mask : IWord) : (u ||| v) &&& mask = (u &&& mask) ||| (v &&& mask) := by
  apply BitVec.eq_of_getLsbD_eq
  intro i _
  simp only [BitVec.getLsbD_and, BitVec.getLsbD_or]
  cases mask.getLsbD i <;> simp

/-- The fields of an instruction lie outside its row's mask: the word of an instruction has the row's fixed bits. -/
theorem encodeWord_and_mask {i : Instr} (h : i.fields &&& i.opc.mask = 0#32) :
    encodeWord i &&& i.opc.mask = i.opc.value := by
  rw [encodeWord, and_or_distrib, h, value_and_mask]
  simp

/-! Register and direction fields. -/

theorem SelReg_ofField_toField (r : SelReg) : SelReg.ofField r.toField = r := by cases r <;> rfl

theorem SelReg_toField_ofField (f : BitVec 2) : (SelReg.ofField f).toField = f := by
  revert f; decide

theorem SliceDir_ofField_toField (d : SliceDir) : SliceDir.ofField d.toField = d := by cases d <;> rfl

theorem SliceDir_toField_ofField (f : BitVec 1) : (SliceDir.ofField f).toField = f := by
  revert f; decide

theorem XnSP_ofField_toField (r : XnSP) : XnSP.ofField r.toField = r := by
  cases r with
  | x n => revert n; decide
  | sp => rfl

theorem XnSP_toField_ofField (f : BitVec 5) : (XnSP.ofField f).toField = f := by
  revert f; decide

theorem XnZR_ofField_toField (r : XnZR) : XnZR.ofField r.toField = r := by
  cases r with
  | x n => revert n; decide
  | zr => rfl

theorem XnZR_toField_ofField (f : BitVec 5) : (XnZR.ofField f).toField = f := by
  revert f; decide

/-- Tile number and offset are read back from the shared field. -/
theorem tileField_split {es : ESize} {r : SliceRef} (h : r.wf es = true) :
    tileOfField es (tileField es r) = r.tile ∧ offsOfField es (tileField es r) = r.offs := by
  obtain ⟨d, t, ws, o⟩ := r
  simp only [SliceRef.wf, SliceRef.tileOk, SliceRef.offsOk, Bool.and_eq_true, decide_eq_true_eq] at h
  obtain ⟨ht, ho⟩ := h
  unfold tileField tileOfField offsOfField
  cases es <;> simp only [ESize.bytes, ESize.offsets, BitVec.toNat_ofNat] at ht ho ⊢ <;> constructor <;> omega

/-- The shared field of the tile number and the offset read from it. -/
theorem tileField_join (es : ESize) (f : BitVec 4) (d : SliceDir) (ws : SelReg) :
    tileField es { dir := d, tile := tileOfField es f, ws := ws, offs := offsOfField es f } = f := by
  unfold tileField tileOfField offsOfField
  rw [Nat.div_add_mod']
  simp

/-- A slice operand read from a word is well-formed. -/
theorem sliceOfWord_wf (es : ESize) (lo : Nat) (w : IWord) : (sliceOfWord es lo w).wf es = true := by
  have h := (wordField w lo 4).isLt
  rw [SliceRef.wf, Bool.and_eq_true]
  constructor
  · refine decide_eq_true (?_ : (wordField w lo 4).toNat / es.offsets < es.bytes)
    cases es <;> simp only [ESize.bytes, ESize.offsets] <;> omega
  · exact decide_eq_true (Nat.mod_lt _ (by cases es <;> decide))

/-- The four bytes of a word, put together again. -/
theorem wordOfBytes_bytesOfWord (w : IWord) :
    wordOfBytes (w.extractLsb' 0 8) (w.extractLsb' 8 8) (w.extractLsb' 16 8) (w.extractLsb' 24 8) = w := by
  apply BitVec.eq_of_getLsbD_eq
  intro i hi
  simp only [wordOfBytes, BitVec.getLsbD_append, BitVec.getLsbD_extractLsb']
  by_cases h1 : i < 8
  · simp [h1]
  · by_cases h2 : i - 8 < 8
    · simp [h1, h2, show 8 + (i - 8) = i by omega]
    · by_cases h3 : i - 8 - 8 < 8
      · simp [h1, h2, h3, show 16 + (i - 8 - 8) = i by omega]
      · simp [h1, h2, h3, show i - 8 - 8 - 8 < 8 by omega, show 24 + (i - 8 - 8 - 8) = i by omega]

end Sys2Proof.Laws
end

