-- ==== Sys2Proof/Laws/Events.lean ====
section
/-! SUPPORT. The events beside the step: what a change of a vector length leaves in every field, one lemma per field,
and what it does to the vector and predicate registers. -/

namespace Sys2Proof.Laws

open Sys2Proof.Machine

/-! A change of VL. -/

@[simp] theorem changeVL_cfg (s : State) (old new : Nat) (preserved : Bool) :
    (s.changeVL old new preserved).cfg = s.cfg := by unfold State.changeVL; split <;> rfl
@[simp] theorem changeVL_el (s : State) (old new : Nat) (preserved : Bool) :
    (s.changeVL old new preserved).el = s.el := by unfold State.changeVL; split <;> rfl
@[simp] theorem changeVL_sec (s : State) (old new : Nat) (preserved : Bool) :
    (s.changeVL old new preserved).sec = s.sec := by unfold State.changeVL; split <;> rfl
@[simp] theorem changeVL_x (s : State) (old new : Nat) (preserved : Bool) :
    (s.changeVL old new preserved).x = s.x := by unfold State.changeVL; split <;> rfl
@[simp] theorem changeVL_sp (s : State) (old new : Nat) (preserved : Bool) :
    (s.changeVL old new preserved).sp = s.sp := by unfold State.changeVL; split <;> rfl
@[simp] theorem changeVL_pc (s : State) (old new : Nat) (preserved : Bool) :
    (s.changeVL old new preserved).pc = s.pc := by unfold State.changeVL; split <;> rfl
@[simp] theorem changeVL_nzcv (s : State) (old new : Nat) (preserved : Bool) :
    (s.changeVL old new preserved).nzcv = s.nzcv := by unfold State.changeVL; split <;> rfl
@[simp] theorem changeVL_fpsr (s : State) (old new : Nat) (preserved : Bool) :
    (s.changeVL old new preserved).fpsr = s.fpsr := by unfold State.changeVL; split <;> rfl
@[simp] theorem changeVL_pstateSM (s : State) (old new : Nat) (preserved : Bool) :
    (s.changeVL old new preserved).pstateSM = s.pstateSM := by unfold State.changeVL; split <;> rfl
@[simp] theorem changeVL_pstateZA (s : State) (old new : Nat) (preserved : Bool) :
    (s.changeVL old new preserved).pstateZA = s.pstateZA := by unfold State.changeVL; split <;> rfl
@[simp] theorem changeVL_zt0 (s : State) (old new : Nat) (preserved : Bool) :
    (s.changeVL old new preserved).zt0 = s.zt0 := by unfold State.changeVL; split <;> rfl
@[simp] theorem changeVL_smcrLen (s : State) (old new : Nat) (preserved : Bool) :
    (s.changeVL old new preserved).smcrLen = s.smcrLen := by unfold State.changeVL; split <;> rfl
@[simp] theorem changeVL_zcrLen (s : State) (old new : Nat) (preserved : Bool) :
    (s.changeVL old new preserved).zcrLen = s.zcrLen := by unfold State.changeVL; split <;> rfl
@[simp] theorem changeVL_mem (s : State) (old new : Nat) (preserved : Bool) :
    (s.changeVL old new preserved).mem = s.mem := by unfold State.changeVL; split <;> rfl
@[simp] theorem changeVL_text (s : State) (old new : Nat) (preserved : Bool) :
    (s.changeVL old new preserved).text = s.text := by unfold State.changeVL; split <;> rfl
@[simp] theorem changeVL_za (s : State) (old new : Nat) (preserved : Bool) :
    (s.changeVL old new preserved).za = s.za := by unfold State.changeVL; split <;> rfl

/-- A vector register after a change of VL. -/
theorem changeVL_z (s : State) (old new : Nat) (preserved : Bool) (n : Fin 32) :
    (s.changeVL old new preserved).z[n] =
      if new ≤ old then s.z[n]
      else fillOnIncrease (preserved || Config.fillIsPrevious s.draws (.z n)) old new s.z[n] := by
  unfold State.changeVL; split <;> simp

/-- A predicate register after a change of VL. -/
theorem changeVL_p (s : State) (old new : Nat) (preserved : Bool) (n : Fin 16) :
    (s.changeVL old new preserved).p[n] =
      if new ≤ old then s.p[n]
      else fillOnIncrease (preserved || Config.fillIsPrevious s.draws (.p n)) (old / 8) (new / 8) s.p[n] := by
  unfold State.changeVL; split <;> simp

/-- FFR after a change of VL. -/
theorem changeVL_ffr (s : State) (old new : Nat) (preserved : Bool) :
    (s.changeVL old new preserved).ffr =
      if new ≤ old then s.ffr
      else fillOnIncrease (preserved || Config.fillIsPrevious s.draws .ffr) (old / 8) (new / 8) s.ffr := by
  unfold State.changeVL; split <;> rfl

/-- The bits below the old width are kept. -/
theorem lowBits_fillOnIncrease {W : Nat} (keep : Bool) {old m : Nat} (new : Nat) (v : BitVec W) (h : m ≤ old) :
    lowBits m (fillOnIncrease keep old new v) = lowBits m v := by
  unfold fillOnIncrease
  split
  · rfl
  · apply BitVec.eq_of_getLsbD_eq
    intro i _
    rw [getLsbD_lowBits, getLsbD_lowBits, getLsbD_mergeLow]
    by_cases hi : i < m
    · simp [hi, show i < old by omega]
    · simp [hi]

/-- Where software has cleared the bits that become accessible, the accessible part is the old one whatever the free
choice is (70_reset_and_hazards.md R352). -/
theorem lowBits_fillOnIncrease_cleared {W : Nat} (keep : Bool) {old new : Nat} {v : BitVec W} (hle : old ≤ new)
    (h : lowBits new v = lowBits old v) : lowBits new (fillOnIncrease keep old new v) = lowBits old v := by
  unfold fillOnIncrease
  split
  · exact h
  · rw [lowBits_mergeLow]
    apply BitVec.eq_of_getLsbD_eq
    intro i _
    rw [getLsbD_lowBits, getLsbD_lowBits]
    by_cases hi : i < old
    · simp [hi, show i < new by omega]
    · simp [hi]

/-! A change of SVL while PSTATE.ZA is 1. -/

@[simp] theorem redrawZA_cfg (s : State) : s.redrawZA.cfg = s.cfg := by simp only [State.redrawZA]
@[simp] theorem redrawZA_el (s : State) : s.redrawZA.el = s.el := by simp only [State.redrawZA]
@[simp] theorem redrawZA_sec (s : State) : s.redrawZA.sec = s.sec := by simp only [State.redrawZA]
@[simp] theorem redrawZA_x (s : State) : s.redrawZA.x = s.x := by simp only [State.redrawZA]
@[simp] theorem redrawZA_sp (s : State) : s.redrawZA.sp = s.sp := by simp only [State.redrawZA]
@[simp] theorem redrawZA_pc (s : State) : s.redrawZA.pc = s.pc := by simp only [State.redrawZA]
@[simp] theorem redrawZA_nzcv (s : State) : s.redrawZA.nzcv = s.nzcv := by simp only [State.redrawZA]
@[simp] theorem redrawZA_fpsr (s : State) : s.redrawZA.fpsr = s.fpsr := by simp only [State.redrawZA]
@[simp] theorem redrawZA_pstateSM (s : State) : s.redrawZA.pstateSM = s.pstateSM := by simp only [State.redrawZA]
@[simp] theorem redrawZA_pstateZA (s : State) : s.redrawZA.pstateZA = s.pstateZA := by simp only [State.redrawZA]
@[simp] theorem redrawZA_zt0 (s : State) : s.redrawZA.zt0 = s.zt0 := by simp only [State.redrawZA]
@[simp] theorem redrawZA_smcrLen (s : State) : s.redrawZA.smcrLen = s.smcrLen := by simp only [State.redrawZA]
@[simp] theorem redrawZA_zcrLen (s : State) : s.redrawZA.zcrLen = s.zcrLen := by simp only [State.redrawZA]
@[simp] theorem redrawZA_mem (s : State) : s.redrawZA.mem = s.mem := by simp only [State.redrawZA]
@[simp] theorem redrawZA_text (s : State) : s.redrawZA.text = s.text := by simp only [State.redrawZA]
@[simp] theorem redrawZA_z (s : State) : s.redrawZA.z = s.z := by simp only [State.redrawZA]
@[simp] theorem redrawZA_p (s : State) : s.redrawZA.p = s.p := by simp only [State.redrawZA]
@[simp] theorem redrawZA_ffr (s : State) : s.redrawZA.ffr = s.ffr := by simp only [State.redrawZA]

/-! Both: the effects of a length event on register state. -/

@[simp] theorem afterLengthEvent_cfg (s after : State) (preserved : Bool) :
    (s.afterLengthEvent after preserved).cfg = after.cfg := by
  unfold State.afterLengthEvent; dsimp only; split <;> simp
@[simp] theorem afterLengthEvent_el (s after : State) (preserved : Bool) :
    (s.afterLengthEvent after preserved).el = after.el := by
  unfold State.afterLengthEvent; dsimp only; split <;> simp
@[simp] theorem afterLengthEvent_sec (s after : State) (preserved : Bool) :
    (s.afterLengthEvent after preserved).sec = after.sec := by
  unfold State.afterLengthEvent; dsimp only; split <;> simp
@[simp] theorem afterLengthEvent_x (s after : State) (preserved : Bool) :
    (s.afterLengthEvent after preserved).x = after.x := by
  unfold State.afterLengthEvent; dsimp only; split <;> simp
@[simp] theorem afterLengthEvent_sp (s after : State) (preserved : Bool) :
    (s.afterLengthEvent after preserved).sp = after.sp := by
  unfold State.afterLengthEvent; dsimp only; split <;> simp
@[simp] theorem afterLengthEvent_pc (s after : State) (preserved : Bool) :
    (s.afterLengthEvent after preserved).pc = after.pc := by
  unfold State.afterLengthEvent; dsimp only; split <;> simp
@[simp] theorem afterLengthEvent_nzcv (s after : State) (preserved : Bool) :
    (s.afterLengthEvent after preserved).nzcv = after.nzcv := by
  unfold State.afterLengthEvent; dsimp only; split <;> simp
@[simp] theorem afterLengthEvent_fpsr (s after : State) (preserved : Bool) :
    (s.afterLengthEvent after preserved).fpsr = after.fpsr := by
  unfold State.afterLengthEvent; dsimp only; split <;> simp
@[simp] theorem afterLengthEvent_pstateSM (s after : State) (preserved : Bool) :
    (s.afterLengthEvent after preserved).pstateSM = after.pstateSM := by
  unfold State.afterLengthEvent; dsimp only; split <;> simp
@[simp] theorem afterLengthEvent_pstateZA (s after : State) (preserved : Bool) :
    (s.afterLengthEvent after preserved).pstateZA = after.pstateZA := by
  unfold State.afterLengthEvent; dsimp only; split <;> simp
@[simp] theorem afterLengthEvent_zt0 (s after : State) (preserved : Bool) :
    (s.afterLengthEvent after preserved).zt0 = after.zt0 := by
  unfold State.afterLengthEvent; dsimp only; split <;> simp
@[simp] theorem afterLengthEvent_smcrLen (s after : State) (preserved : Bool) :
    (s.afterLengthEvent after preserved).smcrLen = after.smcrLen := by
  unfold State.afterLengthEvent; dsimp only; split <;> simp
@[simp] theorem afterLengthEvent_zcrLen (s after : State) (preserved : Bool) :
    (s.afterLengthEvent after preserved).zcrLen = after.zcrLen := by
  unfold State.afterLengthEvent; dsimp only; split <;> simp
@[simp] theorem afterLengthEvent_mem (s after : State) (preserved : Bool) :
    (s.afterLengthEvent after preserved).mem = after.mem := by
  unfold State.afterLengthEvent; dsimp only; split <;> simp
@[simp] theorem afterLengthEvent_text (s after : State) (preserved : Bool) :
    (s.afterLengthEvent after preserved).text = after.text := by
  unfold State.afterLengthEvent; dsimp only; split <;> simp
@[simp] theorem afterLengthEvent_z (s after : State) (preserved : Bool) :
    (s.afterLengthEvent after preserved).z = (after.changeVL s.vlBits after.vlBits preserved).z := by
  unfold State.afterLengthEvent; dsimp only; split <;> simp
@[simp] theorem afterLengthEvent_p (s after : State) (preserved : Bool) :
    (s.afterLengthEvent after preserved).p = (after.changeVL s.vlBits after.vlBits preserved).p := by
  unfold State.afterLengthEvent; dsimp only; split <;> simp
@[simp] theorem afterLengthEvent_ffr (s after : State) (preserved : Bool) :
    (s.afterLengthEvent after preserved).ffr = (after.changeVL s.vlBits after.vlBits preserved).ffr := by
  unfold State.afterLengthEvent; dsimp only; split <;> simp

/-! Writes of LEN fields (10_state.md R31, R32). -/

/-- A write of SMCR_ELx.LEN at a level from which the register can be accessed. -/
theorem writeSmcrLen_accessible {s : State} {lvl : LenLevel} (v : BitVec 4) (h : s.smcrAccessible lvl = true) :
    s.writeSmcrLen lvl v = s.afterLengthEvent { s with smcrLen := LenFields.write s.smcrLen lvl v } false := if_pos h

/-- A write of SMCR_ELx.LEN at another level writes nothing. -/
theorem writeSmcrLen_inaccessible {s : State} {lvl : LenLevel} (v : BitVec 4) (h : s.smcrAccessible lvl = false) :
    s.writeSmcrLen lvl v = s := if_neg (by simp [h])

/-- A write of ZCR_ELx.LEN at a level from which the register can be accessed. -/
theorem writeZcrLen_accessible {s : State} {lvl : LenLevel} (v : BitVec 4) (h : s.zcrAccessible lvl = true) :
    s.writeZcrLen lvl v = s.afterLengthEvent { s with zcrLen := LenFields.write s.zcrLen lvl v } false := if_pos h

/-- A write of ZCR_ELx.LEN at another level writes nothing. -/
theorem writeZcrLen_inaccessible {s : State} {lvl : LenLevel} (v : BitVec 4) (h : s.zcrAccessible lvl = false) :
    s.writeZcrLen lvl v = s := if_neg (by simp [h])

/-- No LEN field can be accessed at EL0. -/
theorem len_inaccessible_at_el0 {s : State} (h : s.el = .el0) (lvl : LenLevel) :
    s.smcrAccessible lvl = false ∧ s.zcrAccessible lvl = false := by
  cases lvl <;> simp [State.smcrAccessible, State.zcrAccessible, h, LenLevel.num, ELevel.num]

/-- ZA storage is kept unless SVL changes while PSTATE.ZA is 1. -/
theorem afterLengthEvent_za {s after : State} {preserved : Bool} (h : after.svl = s.svl ∨ s.pstateZA = false) :
    (s.afterLengthEvent after preserved).za = after.za := by
  unfold State.afterLengthEvent
  dsimp only
  rw [if_neg, changeVL_za]
  rcases h with h | h <;> simp [h]

end Sys2Proof.Laws
end

