-- ==== Sys2Proof/Laws/Memory.lean ====
section
/-! SUPPORT. The laws of the byte memories: a read after a write, the canonical form, the set of mapped
addresses, and the stores of the elements of a slice. -/

namespace Sys2Proof.Laws

open Sys2Proof.Machine

/-- A read after a write of one byte. -/
theorem byteAt_insert (m : Memory) (a : Nat) (b : Byte) (x : Nat) :
    (m.insert a b).byteAt x = if x = a then some b else m.byteAt x := by
  induction m with
  | nil => simp only [Memory.insert, Memory.byteAt, eq_comm]
  | cons c rest ih =>
    unfold Memory.insert
    split
    · by_cases h : x = a
      · simp [Memory.byteAt, h]
      · simp [Memory.byteAt, h, Ne.symm h]
    · split
      · next h2 =>
        by_cases h : x = a
        · simp [Memory.byteAt, h]
        · simp [Memory.byteAt, h, Ne.symm h, show c.1 ≠ x by omega]
      · next h2 =>
        by_cases h : c.1 = x
        · simp [Memory.byteAt, h, show x ≠ a by omega]
        · simp [Memory.byteAt, h, ih]

/-- A read after a write of consecutive bytes. -/
theorem byteAt_writeBytes (m : Memory) (a : Nat) (bs : List Byte) (x : Nat) :
    (m.writeBytes a bs).byteAt x = if a ≤ x ∧ x < a + bs.length then bs[x - a]? else m.byteAt x := by
  induction bs generalizing m a with
  | nil => rw [Memory.writeBytes, if_neg (by simp only [List.length_nil]; omega)]
  | cons b bs ih =>
    rw [Memory.writeBytes, ih, byteAt_insert, List.length_cons]
    by_cases h1 : a + 1 ≤ x ∧ x < a + 1 + bs.length
    · rw [if_pos h1, if_pos (by omega), show x - a = (x - (a + 1)) + 1 by omega, List.getElem?_cons_succ]
    · rw [if_neg h1]
      by_cases h2 : x = a
      · subst h2; simp
      · rw [if_neg h2, if_neg (by omega)]

/-- A read after the store of the bytes of a value. -/
theorem byteAt_writeBytes_leBytes {W : Nat} (m : Memory) (a n : Nat) (v : BitVec W) (x : Nat) :
    (m.writeBytes a (leBytes v n)).byteAt x =
      if a ≤ x ∧ x < a + n then some (elem v (x - a) 8) else m.byteAt x := by
  rw [byteAt_writeBytes, leBytes_length]
  by_cases h : a ≤ x ∧ x < a + n
  · rw [if_pos h, if_pos h, leBytes_getElem?, if_pos (by omega)]
  · rw [if_neg h, if_neg h]

/-- The canonical form, read at the head. -/
theorem wf_cons {c : Host.Cell} {m : Memory} :
    Memory.wf (c :: m) = true ↔ c.1 < 2 ^ 64 ∧ m.wf = true ∧ ∀ d ∈ m.head?, c.1 < d.1 := by
  induction m generalizing c with
  | nil => simp [Memory.wf]
  | cons d rest ih =>
    rw [Memory.wf]
    simp only [Bool.and_eq_true, decide_eq_true_eq, List.head?_cons, Option.mem_def, Option.some.injEq,
      forall_eq']
    constructor
    · rintro ⟨h1, h2⟩
      have := (ih.mp h2).1
      exact ⟨by omega, h2, h1⟩
    · rintro ⟨_, h2, h1⟩
      exact ⟨h1, h2⟩

/-- The head of a memory after a write of one byte. -/
theorem head?_insert {m : Memory} {a : Nat} {b : Byte} {d : Host.Cell} (h : d ∈ (m.insert a b).head?) :
    d.1 = a ∨ d ∈ m.head? := by
  cases m with
  | nil => simp [Memory.insert] at h; simp [← h]
  | cons c rest =>
    unfold Memory.insert at h
    split at h
    · simp at h; simp [← h]
    · split at h
      · simp at h; simp [← h]
      · right; simpa using h

/-- A write of one byte keeps the canonical form. -/
theorem wf_insert {m : Memory} {a : Nat} (b : Byte) (hm : m.wf = true) (ha : a < 2 ^ 64) :
    (m.insert a b).wf = true := by
  induction m with
  | nil => simpa [Memory.insert, Memory.wf] using ha
  | cons c rest ih =>
    obtain ⟨h1, h2, h3⟩ := wf_cons.mp hm
    unfold Memory.insert
    split
    · next h => exact wf_cons.mpr ⟨ha, hm, by simpa using h⟩
    · next hn =>
      split
      · next h => exact wf_cons.mpr ⟨ha, h2, by intro d hd; have := h3 d hd; simp only; omega⟩
      · next h =>
        refine wf_cons.mpr ⟨h1, ih h2, ?_⟩
        intro d hd
        rcases head?_insert hd with h4 | h4
        · omega
        · exact h3 d h4

/-- A write of consecutive bytes keeps the canonical form. -/
theorem wf_writeBytes {m : Memory} {a : Nat} (bs : List Byte) (hm : m.wf = true) (ha : a + bs.length ≤ 2 ^ 64) :
    (m.writeBytes a bs).wf = true := by
  induction bs generalizing m a with
  | nil => exact hm
  | cons b bs ih =>
    rw [List.length_cons] at ha
    exact ih (wf_insert b hm (by omega)) (by omega)

/-- No address below the head of a canonical memory is mapped. -/
theorem byteAt_of_lt_head {m : Memory} {a : Nat} (hm : m.wf = true) (h : ∀ d ∈ m.head?, a < d.1) :
    m.byteAt a = none := by
  induction m with
  | nil => rfl
  | cons c rest ih =>
    obtain ⟨_, h2, h3⟩ := wf_cons.mp hm
    have hc : a < c.1 := by simpa using h
    rw [Memory.byteAt, if_neg (by omega)]
    exact ih h2 (fun d hd => by have := h3 d hd; omega)

/-- Equal reads make equal canonical memories. -/
theorem memory_ext {m n : Memory} (hm : m.wf = true) (hn : n.wf = true) (h : ∀ a, m.byteAt a = n.byteAt a) :
    m = n := by
  induction m generalizing n with
  | nil =>
    cases n with
    | nil => rfl
    | cons d rest => have := h d.1; simp [Memory.byteAt] at this
  | cons c rest ih =>
    cases n with
    | nil => have := h c.1; simp [Memory.byteAt] at this
    | cons d rest' =>
      obtain ⟨_, m2, m3⟩ := wf_cons.mp hm
      obtain ⟨_, n2, n3⟩ := wf_cons.mp hn
      have hcd : c.1 = d.1 := by
        rcases Nat.lt_trichotomy c.1 d.1 with hlt | heq | hlt
        · have := h c.1
          rw [byteAt_of_lt_head hn (by simpa using hlt)] at this
          simp [Memory.byteAt] at this
        · exact heq
        · have := h d.1
          rw [byteAt_of_lt_head hm (by simpa using hlt)] at this
          simp [Memory.byteAt] at this
      have hv : c.2 = d.2 := by
        have := h c.1
        simpa [Memory.byteAt, hcd] using this
      have : rest = rest' := by
        refine ih m2 n2 (fun a => ?_)
        by_cases ha : a = c.1
        · subst ha
          rw [byteAt_of_lt_head m2 m3, hcd, byteAt_of_lt_head n2 n3]
        · have := h a
          rwa [Memory.byteAt, Memory.byteAt, if_neg (Ne.symm ha), if_neg (by omega)] at this
      rw [this, Prod.ext hcd hv]

/-- Every byte of a range is mapped. -/
theorem allMapped_iff (m : Memory) (a n : Nat) :
    m.allMapped a n = true ↔ ∀ k < n, (m.byteAt (a + k)).isSome = true := by
  induction n with
  | zero => simp [Memory.allMapped]
  | succ n ih =>
    rw [Memory.allMapped, Bool.and_eq_true, ih]
    constructor
    · rintro ⟨h1, h2⟩ k hk
      rcases Nat.lt_succ_iff_lt_or_eq.mp hk with h | h
      · exact h1 k h
      · exact h ▸ h2
    · intro h
      exact ⟨fun k hk => h k (by omega), h n (by omega)⟩

/-- Some byte of a range is mapped. -/
theorem someMapped_iff (m : Memory) (a n : Nat) :
    m.someMapped a n = true ↔ ∃ k < n, (m.byteAt (a + k)).isSome = true := by
  induction n with
  | zero => simp [Memory.someMapped]
  | succ n ih =>
    rw [Memory.someMapped, Bool.or_eq_true, ih]
    constructor
    · rintro (⟨k, hk, h⟩ | h)
      · exact ⟨k, by omega, h⟩
      · exact ⟨n, by omega, h⟩
    · rintro ⟨k, hk, h⟩
      rcases Nat.lt_succ_iff_lt_or_eq.mp hk with h1 | h1
      · exact Or.inl ⟨k, h1, h⟩
      · exact Or.inr (h1 ▸ h)

/-- A request the memory admits. -/
theorem admits_iff (m : Memory) (a n : Nat) :
    m.admits a n = true ↔ a + n ≤ 2 ^ 64 ∧ ∀ k < n, (m.byteAt (a + k)).isSome = true := by
  rw [Memory.admits, Bool.and_eq_true, decide_eq_true_eq, allMapped_iff]

/-- A byte of a mapped address. -/
theorem byteAt_eq_byteD {m : Memory} {a : Nat} (h : (m.byteAt a).isSome = true) : m.byteAt a = some (m.byteD a) := by
  rw [Memory.byteD]
  cases hb : m.byteAt a with
  | none => simp [hb] at h
  | some b => rfl

/-- Byte k of a read of n bytes. -/
theorem elem_readLE (m : Memory) (a : Nat) {n k : Nat} (hk : k < n) :
    elem (m.readLE a n) k 8 = m.byteD (a + k) := by
  rw [Memory.readLE]
  exact elem_buildElems (w := 8) (fun k => m.byteD (a + k)) hk (by omega)

/-- Every Active element is admitted. -/
theorem elemsAdmitted_iff (m : Memory) (start b : Nat) (active : Nat → Bool) (n : Nat) :
    elemsAdmitted m start b active n = true ↔
      ∀ e < n, active e = true → m.admits (start + e * b) b = true := by
  induction n with
  | zero => simp [elemsAdmitted]
  | succ n ih =>
    rw [elemsAdmitted, Bool.and_eq_true, ih, Bool.or_eq_true, Bool.not_eq_true']
    constructor
    · rintro ⟨h1, h2⟩ e he ha
      rcases Nat.lt_succ_iff_lt_or_eq.mp he with h | h
      · exact h1 e h ha
      · subst h; simpa [ha] using h2
    · intro h
      refine ⟨fun e he => h e (by omega), ?_⟩
      cases ha : active n with
      | false => exact Or.inl rfl
      | true => exact Or.inr (h n (by omega) ha)

/-- Some byte of an Active element holds program text. -/
theorem elemsInText_iff (text : Memory) (start b : Nat) (active : Nat → Bool) (n : Nat) :
    elemsInText text start b active n = true ↔
      ∃ e < n, active e = true ∧ text.someMapped (start + e * b) b = true := by
  induction n with
  | zero => simp [elemsInText]
  | succ n ih =>
    rw [elemsInText, Bool.or_eq_true, ih, Bool.and_eq_true]
    constructor
    · rintro (⟨e, he, h⟩ | h)
      · exact ⟨e, by omega, h⟩
      · exact ⟨n, by omega, h⟩
    · rintro ⟨e, he, h⟩
      rcases Nat.lt_succ_iff_lt_or_eq.mp he with h1 | h1
      · exact Or.inl ⟨e, h1, h⟩
      · exact Or.inr (h1 ▸ h)

/-- A read after the stores of the Active elements of a slice. -/
theorem byteAt_storeElems (m : Memory) (start : Nat) {b : Nat} (hb : 0 < b) (active : Nat → Bool)
    (f : Nat → BitVec (8 * b)) (n x : Nat) :
    (storeElems m start b active f n).byteAt x =
      if start ≤ x ∧ x < start + n * b ∧ active ((x - start) / b) = true then
        some (elem (f ((x - start) / b)) ((x - start) % b) 8)
      else m.byteAt x := by
  induction n with
  | zero => rw [storeElems, if_neg (by omega)]
  | succ n ih =>
    have hs : (n + 1) * b = n * b + b := Nat.succ_mul n b
    by_cases hx : start + n * b ≤ x ∧ x < start + n * b + b
    · have hd : (x - start) / b = n := by
        exact Nat.div_eq_of_lt_le (by omega) (by omega)
      have hm : (x - start) % b = x - (start + n * b) := by
        have := Nat.div_add_mod (x - start) b
        rw [hd, Nat.mul_comm] at this; omega
      rw [storeElems, hd, hm]
      split
      · next ha =>
        rw [byteAt_writeBytes_leBytes, if_pos hx, if_pos ⟨by omega, by omega, ha⟩]
      · next ha =>
        rw [ih, if_neg (by omega), if_neg (by simp [ha])]
    · have : (storeElems m start b active f (n + 1)).byteAt x = (storeElems m start b active f n).byteAt x := by
        rw [storeElems]
        split
        · rw [byteAt_writeBytes_leBytes, if_neg hx]
        · rfl
      rw [this, ih]
      by_cases h1 : start ≤ x ∧ x < start + n * b
      · simp only [show start ≤ x from h1.1, h1.2, show x < start + (n + 1) * b by omega]
      · rw [if_neg (by tauto), if_neg (by omega)]

/-- The stores of the Active elements of a slice keep the canonical form. -/
theorem wf_storeElems {m : Memory} {start b : Nat} {active : Nat → Bool} (f : Nat → BitVec (8 * b)) {n : Nat}
    (hm : m.wf = true) (h : elemsAdmitted m start b active n = true) :
    (storeElems m start b active f n).wf = true := by
  rw [elemsAdmitted_iff] at h
  induction n with
  | zero => exact hm
  | succ n ih =>
    have hn := ih (fun e he => h e (by omega))
    rw [storeElems]
    split
    · next ha =>
      have := (admits_iff _ _ _).mp (h n (by omega) ha)
      exact wf_writeBytes _ hn (by rw [leBytes_length]; exact this.1)
    · exact hn

end Sys2Proof.Laws
end

