-- ==== Sys2Proof/Laws/State.lean ====
section
/-! SUPPORT. What each named update of the state leaves in every field it does not write: one lemma a field and
an update, so that no proof unfolds a record update. -/

namespace Sys2Proof.Laws

open Sys2Proof.Machine

/-! A write of a general-purpose register. -/

@[simp] theorem writeX_cfg (s : State) (i : Fin 31) (v : DWord) :
    (s.writeX i v).cfg = s.cfg := rfl
@[simp] theorem writeX_el (s : State) (i : Fin 31) (v : DWord) :
    (s.writeX i v).el = s.el := rfl
@[simp] theorem writeX_sec (s : State) (i : Fin 31) (v : DWord) :
    (s.writeX i v).sec = s.sec := rfl
@[simp] theorem writeX_sp (s : State) (i : Fin 31) (v : DWord) :
    (s.writeX i v).sp = s.sp := rfl
@[simp] theorem writeX_pc (s : State) (i : Fin 31) (v : DWord) :
    (s.writeX i v).pc = s.pc := rfl
@[simp] theorem writeX_nzcv (s : State) (i : Fin 31) (v : DWord) :
    (s.writeX i v).nzcv = s.nzcv := rfl
@[simp] theorem writeX_z (s : State) (i : Fin 31) (v : DWord) :
    (s.writeX i v).z = s.z := rfl
@[simp] theorem writeX_p (s : State) (i : Fin 31) (v : DWord) :
    (s.writeX i v).p = s.p := rfl
@[simp] theorem writeX_ffr (s : State) (i : Fin 31) (v : DWord) :
    (s.writeX i v).ffr = s.ffr := rfl
@[simp] theorem writeX_fpsr (s : State) (i : Fin 31) (v : DWord) :
    (s.writeX i v).fpsr = s.fpsr := rfl
@[simp] theorem writeX_pstateSM (s : State) (i : Fin 31) (v : DWord) :
    (s.writeX i v).pstateSM = s.pstateSM := rfl
@[simp] theorem writeX_pstateZA (s : State) (i : Fin 31) (v : DWord) :
    (s.writeX i v).pstateZA = s.pstateZA := rfl
@[simp] theorem writeX_za (s : State) (i : Fin 31) (v : DWord) :
    (s.writeX i v).za = s.za := rfl
@[simp] theorem writeX_zt0 (s : State) (i : Fin 31) (v : DWord) :
    (s.writeX i v).zt0 = s.zt0 := rfl
@[simp] theorem writeX_smcrLen (s : State) (i : Fin 31) (v : DWord) :
    (s.writeX i v).smcrLen = s.smcrLen := rfl
@[simp] theorem writeX_zcrLen (s : State) (i : Fin 31) (v : DWord) :
    (s.writeX i v).zcrLen = s.zcrLen := rfl
@[simp] theorem writeX_mem (s : State) (i : Fin 31) (v : DWord) :
    (s.writeX i v).mem = s.mem := rfl
@[simp] theorem writeX_text (s : State) (i : Fin 31) (v : DWord) :
    (s.writeX i v).text = s.text := rfl
@[simp] theorem writeX_draws (s : State) (i : Fin 31) (v : DWord) :
    (s.writeX i v).draws = s.draws := rfl
@[simp] theorem writeX_svl (s : State) (i : Fin 31) (v : DWord) :
    (s.writeX i v).svl = s.svl := rfl
@[simp] theorem writeX_nsvl (s : State) (i : Fin 31) (v : DWord) :
    (s.writeX i v).nsvl = s.nsvl := rfl
@[simp] theorem writeX_svlB (s : State) (i : Fin 31) (v : DWord) :
    (s.writeX i v).svlB = s.svlB := rfl

/-! A write of a vector register. -/

@[simp] theorem writeZ_cfg (s : State) (n : Fin 32) (v : VecReg) :
    (s.writeZ n v).cfg = s.cfg := rfl
@[simp] theorem writeZ_el (s : State) (n : Fin 32) (v : VecReg) :
    (s.writeZ n v).el = s.el := rfl
@[simp] theorem writeZ_sec (s : State) (n : Fin 32) (v : VecReg) :
    (s.writeZ n v).sec = s.sec := rfl
@[simp] theorem writeZ_x (s : State) (n : Fin 32) (v : VecReg) :
    (s.writeZ n v).x = s.x := rfl
@[simp] theorem writeZ_sp (s : State) (n : Fin 32) (v : VecReg) :
    (s.writeZ n v).sp = s.sp := rfl
@[simp] theorem writeZ_pc (s : State) (n : Fin 32) (v : VecReg) :
    (s.writeZ n v).pc = s.pc := rfl
@[simp] theorem writeZ_nzcv (s : State) (n : Fin 32) (v : VecReg) :
    (s.writeZ n v).nzcv = s.nzcv := rfl
@[simp] theorem writeZ_p (s : State) (n : Fin 32) (v : VecReg) :
    (s.writeZ n v).p = s.p := rfl
@[simp] theorem writeZ_ffr (s : State) (n : Fin 32) (v : VecReg) :
    (s.writeZ n v).ffr = s.ffr := rfl
@[simp] theorem writeZ_fpsr (s : State) (n : Fin 32) (v : VecReg) :
    (s.writeZ n v).fpsr = s.fpsr := rfl
@[simp] theorem writeZ_pstateSM (s : State) (n : Fin 32) (v : VecReg) :
    (s.writeZ n v).pstateSM = s.pstateSM := rfl
@[simp] theorem writeZ_pstateZA (s : State) (n : Fin 32) (v : VecReg) :
    (s.writeZ n v).pstateZA = s.pstateZA := rfl
@[simp] theorem writeZ_za (s : State) (n : Fin 32) (v : VecReg) :
    (s.writeZ n v).za = s.za := rfl
@[simp] theorem writeZ_zt0 (s : State) (n : Fin 32) (v : VecReg) :
    (s.writeZ n v).zt0 = s.zt0 := rfl
@[simp] theorem writeZ_smcrLen (s : State) (n : Fin 32) (v : VecReg) :
    (s.writeZ n v).smcrLen = s.smcrLen := rfl
@[simp] theorem writeZ_zcrLen (s : State) (n : Fin 32) (v : VecReg) :
    (s.writeZ n v).zcrLen = s.zcrLen := rfl
@[simp] theorem writeZ_mem (s : State) (n : Fin 32) (v : VecReg) :
    (s.writeZ n v).mem = s.mem := rfl
@[simp] theorem writeZ_text (s : State) (n : Fin 32) (v : VecReg) :
    (s.writeZ n v).text = s.text := rfl
@[simp] theorem writeZ_draws (s : State) (n : Fin 32) (v : VecReg) :
    (s.writeZ n v).draws = s.draws := rfl
@[simp] theorem writeZ_svl (s : State) (n : Fin 32) (v : VecReg) :
    (s.writeZ n v).svl = s.svl := rfl
@[simp] theorem writeZ_nsvl (s : State) (n : Fin 32) (v : VecReg) :
    (s.writeZ n v).nsvl = s.nsvl := rfl
@[simp] theorem writeZ_svlB (s : State) (n : Fin 32) (v : VecReg) :
    (s.writeZ n v).svlB = s.svlB := rfl

/-! A write of a predicate register. -/

@[simp] theorem writeP_cfg (s : State) (n : Fin 16) (v : PredReg) :
    (s.writeP n v).cfg = s.cfg := rfl
@[simp] theorem writeP_el (s : State) (n : Fin 16) (v : PredReg) :
    (s.writeP n v).el = s.el := rfl
@[simp] theorem writeP_sec (s : State) (n : Fin 16) (v : PredReg) :
    (s.writeP n v).sec = s.sec := rfl
@[simp] theorem writeP_x (s : State) (n : Fin 16) (v : PredReg) :
    (s.writeP n v).x = s.x := rfl
@[simp] theorem writeP_sp (s : State) (n : Fin 16) (v : PredReg) :
    (s.writeP n v).sp = s.sp := rfl
@[simp] theorem writeP_pc (s : State) (n : Fin 16) (v : PredReg) :
    (s.writeP n v).pc = s.pc := rfl
@[simp] theorem writeP_nzcv (s : State) (n : Fin 16) (v : PredReg) :
    (s.writeP n v).nzcv = s.nzcv := rfl
@[simp] theorem writeP_z (s : State) (n : Fin 16) (v : PredReg) :
    (s.writeP n v).z = s.z := rfl
@[simp] theorem writeP_ffr (s : State) (n : Fin 16) (v : PredReg) :
    (s.writeP n v).ffr = s.ffr := rfl
@[simp] theorem writeP_fpsr (s : State) (n : Fin 16) (v : PredReg) :
    (s.writeP n v).fpsr = s.fpsr := rfl
@[simp] theorem writeP_pstateSM (s : State) (n : Fin 16) (v : PredReg) :
    (s.writeP n v).pstateSM = s.pstateSM := rfl
@[simp] theorem writeP_pstateZA (s : State) (n : Fin 16) (v : PredReg) :
    (s.writeP n v).pstateZA = s.pstateZA := rfl
@[simp] theorem writeP_za (s : State) (n : Fin 16) (v : PredReg) :
    (s.writeP n v).za = s.za := rfl
@[simp] theorem writeP_zt0 (s : State) (n : Fin 16) (v : PredReg) :
    (s.writeP n v).zt0 = s.zt0 := rfl
@[simp] theorem writeP_smcrLen (s : State) (n : Fin 16) (v : PredReg) :
    (s.writeP n v).smcrLen = s.smcrLen := rfl
@[simp] theorem writeP_zcrLen (s : State) (n : Fin 16) (v : PredReg) :
    (s.writeP n v).zcrLen = s.zcrLen := rfl
@[simp] theorem writeP_mem (s : State) (n : Fin 16) (v : PredReg) :
    (s.writeP n v).mem = s.mem := rfl
@[simp] theorem writeP_text (s : State) (n : Fin 16) (v : PredReg) :
    (s.writeP n v).text = s.text := rfl
@[simp] theorem writeP_draws (s : State) (n : Fin 16) (v : PredReg) :
    (s.writeP n v).draws = s.draws := rfl
@[simp] theorem writeP_svl (s : State) (n : Fin 16) (v : PredReg) :
    (s.writeP n v).svl = s.svl := rfl
@[simp] theorem writeP_nsvl (s : State) (n : Fin 16) (v : PredReg) :
    (s.writeP n v).nsvl = s.nsvl := rfl
@[simp] theorem writeP_svlB (s : State) (n : Fin 16) (v : PredReg) :
    (s.writeP n v).svlB = s.svlB := rfl

/-! A write of FFR. -/

@[simp] theorem writeFFR_cfg (s : State) (v : PredReg) :
    (s.writeFFR v).cfg = s.cfg := rfl
@[simp] theorem writeFFR_el (s : State) (v : PredReg) :
    (s.writeFFR v).el = s.el := rfl
@[simp] theorem writeFFR_sec (s : State) (v : PredReg) :
    (s.writeFFR v).sec = s.sec := rfl
@[simp] theorem writeFFR_x (s : State) (v : PredReg) :
    (s.writeFFR v).x = s.x := rfl
@[simp] theorem writeFFR_sp (s : State) (v : PredReg) :
    (s.writeFFR v).sp = s.sp := rfl
@[simp] theorem writeFFR_pc (s : State) (v : PredReg) :
    (s.writeFFR v).pc = s.pc := rfl
@[simp] theorem writeFFR_nzcv (s : State) (v : PredReg) :
    (s.writeFFR v).nzcv = s.nzcv := rfl
@[simp] theorem writeFFR_z (s : State) (v : PredReg) :
    (s.writeFFR v).z = s.z := rfl
@[simp] theorem writeFFR_p (s : State) (v : PredReg) :
    (s.writeFFR v).p = s.p := rfl
@[simp] theorem writeFFR_fpsr (s : State) (v : PredReg) :
    (s.writeFFR v).fpsr = s.fpsr := rfl
@[simp] theorem writeFFR_pstateSM (s : State) (v : PredReg) :
    (s.writeFFR v).pstateSM = s.pstateSM := rfl
@[simp] theorem writeFFR_pstateZA (s : State) (v : PredReg) :
    (s.writeFFR v).pstateZA = s.pstateZA := rfl
@[simp] theorem writeFFR_za (s : State) (v : PredReg) :
    (s.writeFFR v).za = s.za := rfl
@[simp] theorem writeFFR_zt0 (s : State) (v : PredReg) :
    (s.writeFFR v).zt0 = s.zt0 := rfl
@[simp] theorem writeFFR_smcrLen (s : State) (v : PredReg) :
    (s.writeFFR v).smcrLen = s.smcrLen := rfl
@[simp] theorem writeFFR_zcrLen (s : State) (v : PredReg) :
    (s.writeFFR v).zcrLen = s.zcrLen := rfl
@[simp] theorem writeFFR_mem (s : State) (v : PredReg) :
    (s.writeFFR v).mem = s.mem := rfl
@[simp] theorem writeFFR_text (s : State) (v : PredReg) :
    (s.writeFFR v).text = s.text := rfl
@[simp] theorem writeFFR_draws (s : State) (v : PredReg) :
    (s.writeFFR v).draws = s.draws := rfl
@[simp] theorem writeFFR_svl (s : State) (v : PredReg) :
    (s.writeFFR v).svl = s.svl := rfl
@[simp] theorem writeFFR_nsvl (s : State) (v : PredReg) :
    (s.writeFFR v).nsvl = s.nsvl := rfl
@[simp] theorem writeFFR_svlB (s : State) (v : PredReg) :
    (s.writeFFR v).svlB = s.svlB := rfl

/-! A change of ZA storage. -/

@[simp] theorem mapZA_cfg (s : State) (f : Nat → VecReg → VecReg) :
    (s.mapZA f).cfg = s.cfg := by simp only [State.mapZA]
@[simp] theorem mapZA_el (s : State) (f : Nat → VecReg → VecReg) :
    (s.mapZA f).el = s.el := by simp only [State.mapZA]
@[simp] theorem mapZA_sec (s : State) (f : Nat → VecReg → VecReg) :
    (s.mapZA f).sec = s.sec := by simp only [State.mapZA]
@[simp] theorem mapZA_x (s : State) (f : Nat → VecReg → VecReg) :
    (s.mapZA f).x = s.x := by simp only [State.mapZA]
@[simp] theorem mapZA_sp (s : State) (f : Nat → VecReg → VecReg) :
    (s.mapZA f).sp = s.sp := by simp only [State.mapZA]
@[simp] theorem mapZA_pc (s : State) (f : Nat → VecReg → VecReg) :
    (s.mapZA f).pc = s.pc := by simp only [State.mapZA]
@[simp] theorem mapZA_nzcv (s : State) (f : Nat → VecReg → VecReg) :
    (s.mapZA f).nzcv = s.nzcv := by simp only [State.mapZA]
@[simp] theorem mapZA_z (s : State) (f : Nat → VecReg → VecReg) :
    (s.mapZA f).z = s.z := by simp only [State.mapZA]
@[simp] theorem mapZA_p (s : State) (f : Nat → VecReg → VecReg) :
    (s.mapZA f).p = s.p := by simp only [State.mapZA]
@[simp] theorem mapZA_ffr (s : State) (f : Nat → VecReg → VecReg) :
    (s.mapZA f).ffr = s.ffr := by simp only [State.mapZA]
@[simp] theorem mapZA_fpsr (s : State) (f : Nat → VecReg → VecReg) :
    (s.mapZA f).fpsr = s.fpsr := by simp only [State.mapZA]
@[simp] theorem mapZA_pstateSM (s : State) (f : Nat → VecReg → VecReg) :
    (s.mapZA f).pstateSM = s.pstateSM := by simp only [State.mapZA]
@[simp] theorem mapZA_pstateZA (s : State) (f : Nat → VecReg → VecReg) :
    (s.mapZA f).pstateZA = s.pstateZA := by simp only [State.mapZA]
@[simp] theorem mapZA_zt0 (s : State) (f : Nat → VecReg → VecReg) :
    (s.mapZA f).zt0 = s.zt0 := by simp only [State.mapZA]
@[simp] theorem mapZA_smcrLen (s : State) (f : Nat → VecReg → VecReg) :
    (s.mapZA f).smcrLen = s.smcrLen := by simp only [State.mapZA]
@[simp] theorem mapZA_zcrLen (s : State) (f : Nat → VecReg → VecReg) :
    (s.mapZA f).zcrLen = s.zcrLen := by simp only [State.mapZA]
@[simp] theorem mapZA_mem (s : State) (f : Nat → VecReg → VecReg) :
    (s.mapZA f).mem = s.mem := by simp only [State.mapZA]
@[simp] theorem mapZA_text (s : State) (f : Nat → VecReg → VecReg) :
    (s.mapZA f).text = s.text := by simp only [State.mapZA]
@[simp] theorem mapZA_draws (s : State) (f : Nat → VecReg → VecReg) :
    (s.mapZA f).draws = s.draws := by simp only [State.mapZA]
@[simp] theorem mapZA_svl (s : State) (f : Nat → VecReg → VecReg) :
    (s.mapZA f).svl = s.svl := by simp only [State.svl, State.mapZA]
@[simp] theorem mapZA_nsvl (s : State) (f : Nat → VecReg → VecReg) :
    (s.mapZA f).nsvl = s.nsvl := by simp only [State.nsvl, State.mapZA]
@[simp] theorem mapZA_svlB (s : State) (f : Nat → VecReg → VecReg) :
    (s.mapZA f).svlB = s.svlB := by simp only [State.svlB, mapZA_svl]

/-! A write of one ZA array vector. -/

@[simp] theorem writeZAVec_cfg (s : State) (k : Nat) (v : VecReg) :
    (s.writeZAVec k v).cfg = s.cfg := by simp only [State.writeZAVec, mapZA_cfg]
@[simp] theorem writeZAVec_el (s : State) (k : Nat) (v : VecReg) :
    (s.writeZAVec k v).el = s.el := by simp only [State.writeZAVec, mapZA_el]
@[simp] theorem writeZAVec_sec (s : State) (k : Nat) (v : VecReg) :
    (s.writeZAVec k v).sec = s.sec := by simp only [State.writeZAVec, mapZA_sec]
@[simp] theorem writeZAVec_x (s : State) (k : Nat) (v : VecReg) :
    (s.writeZAVec k v).x = s.x := by simp only [State.writeZAVec, mapZA_x]
@[simp] theorem writeZAVec_sp (s : State) (k : Nat) (v : VecReg) :
    (s.writeZAVec k v).sp = s.sp := by simp only [State.writeZAVec, mapZA_sp]
@[simp] theorem writeZAVec_pc (s : State) (k : Nat) (v : VecReg) :
    (s.writeZAVec k v).pc = s.pc := by simp only [State.writeZAVec, mapZA_pc]
@[simp] theorem writeZAVec_nzcv (s : State) (k : Nat) (v : VecReg) :
    (s.writeZAVec k v).nzcv = s.nzcv := by simp only [State.writeZAVec, mapZA_nzcv]
@[simp] theorem writeZAVec_z (s : State) (k : Nat) (v : VecReg) :
    (s.writeZAVec k v).z = s.z := by simp only [State.writeZAVec, mapZA_z]
@[simp] theorem writeZAVec_p (s : State) (k : Nat) (v : VecReg) :
    (s.writeZAVec k v).p = s.p := by simp only [State.writeZAVec, mapZA_p]
@[simp] theorem writeZAVec_ffr (s : State) (k : Nat) (v : VecReg) :
    (s.writeZAVec k v).ffr = s.ffr := by simp only [State.writeZAVec, mapZA_ffr]
@[simp] theorem writeZAVec_fpsr (s : State) (k : Nat) (v : VecReg) :
    (s.writeZAVec k v).fpsr = s.fpsr := by simp only [State.writeZAVec, mapZA_fpsr]
@[simp] theorem writeZAVec_pstateSM (s : State) (k : Nat) (v : VecReg) :
    (s.writeZAVec k v).pstateSM = s.pstateSM := by simp only [State.writeZAVec, mapZA_pstateSM]
@[simp] theorem writeZAVec_pstateZA (s : State) (k : Nat) (v : VecReg) :
    (s.writeZAVec k v).pstateZA = s.pstateZA := by simp only [State.writeZAVec, mapZA_pstateZA]
@[simp] theorem writeZAVec_zt0 (s : State) (k : Nat) (v : VecReg) :
    (s.writeZAVec k v).zt0 = s.zt0 := by simp only [State.writeZAVec, mapZA_zt0]
@[simp] theorem writeZAVec_smcrLen (s : State) (k : Nat) (v : VecReg) :
    (s.writeZAVec k v).smcrLen = s.smcrLen := by simp only [State.writeZAVec, mapZA_smcrLen]
@[simp] theorem writeZAVec_zcrLen (s : State) (k : Nat) (v : VecReg) :
    (s.writeZAVec k v).zcrLen = s.zcrLen := by simp only [State.writeZAVec, mapZA_zcrLen]
@[simp] theorem writeZAVec_mem (s : State) (k : Nat) (v : VecReg) :
    (s.writeZAVec k v).mem = s.mem := by simp only [State.writeZAVec, mapZA_mem]
@[simp] theorem writeZAVec_text (s : State) (k : Nat) (v : VecReg) :
    (s.writeZAVec k v).text = s.text := by simp only [State.writeZAVec, mapZA_text]
@[simp] theorem writeZAVec_draws (s : State) (k : Nat) (v : VecReg) :
    (s.writeZAVec k v).draws = s.draws := by simp only [State.writeZAVec, mapZA_draws]
@[simp] theorem writeZAVec_svl (s : State) (k : Nat) (v : VecReg) :
    (s.writeZAVec k v).svl = s.svl := by simp only [State.writeZAVec, mapZA_svl]
@[simp] theorem writeZAVec_nsvl (s : State) (k : Nat) (v : VecReg) :
    (s.writeZAVec k v).nsvl = s.nsvl := by simp only [State.writeZAVec, mapZA_nsvl]
@[simp] theorem writeZAVec_svlB (s : State) (k : Nat) (v : VecReg) :
    (s.writeZAVec k v).svlB = s.svlB := by simp only [State.writeZAVec, mapZA_svlB]

/-! A write of a tile slice. -/

@[simp] theorem writeSlice_cfg (s : State) (d : SliceDir) (t n : Nat) (es : ESize) (v : VecReg) :
    (s.writeSlice d t n es v).cfg = s.cfg := by
  cases d <;> simp only [State.writeSlice, State.writeHSlice, State.writeVSlice, writeZAVec_cfg, mapZA_cfg]
@[simp] theorem writeSlice_el (s : State) (d : SliceDir) (t n : Nat) (es : ESize) (v : VecReg) :
    (s.writeSlice d t n es v).el = s.el := by
  cases d <;> simp only [State.writeSlice, State.writeHSlice, State.writeVSlice, writeZAVec_el, mapZA_el]
@[simp] theorem writeSlice_sec (s : State) (d : SliceDir) (t n : Nat) (es : ESize) (v : VecReg) :
    (s.writeSlice d t n es v).sec = s.sec := by
  cases d <;> simp only [State.writeSlice, State.writeHSlice, State.writeVSlice, writeZAVec_sec, mapZA_sec]
@[simp] theorem writeSlice_x (s : State) (d : SliceDir) (t n : Nat) (es : ESize) (v : VecReg) :
    (s.writeSlice d t n es v).x = s.x := by
  cases d <;> simp only [State.writeSlice, State.writeHSlice, State.writeVSlice, writeZAVec_x, mapZA_x]
@[simp] theorem writeSlice_sp (s : State) (d : SliceDir) (t n : Nat) (es : ESize) (v : VecReg) :
    (s.writeSlice d t n es v).sp = s.sp := by
  cases d <;> simp only [State.writeSlice, State.writeHSlice, State.writeVSlice, writeZAVec_sp, mapZA_sp]
@[simp] theorem writeSlice_pc (s : State) (d : SliceDir) (t n : Nat) (es : ESize) (v : VecReg) :
    (s.writeSlice d t n es v).pc = s.pc := by
  cases d <;> simp only [State.writeSlice, State.writeHSlice, State.writeVSlice, writeZAVec_pc, mapZA_pc]
@[simp] theorem writeSlice_nzcv (s : State) (d : SliceDir) (t n : Nat) (es : ESize) (v : VecReg) :
    (s.writeSlice d t n es v).nzcv = s.nzcv := by
  cases d <;> simp only [State.writeSlice, State.writeHSlice, State.writeVSlice, writeZAVec_nzcv, mapZA_nzcv]
@[simp] theorem writeSlice_z (s : State) (d : SliceDir) (t n : Nat) (es : ESize) (v : VecReg) :
    (s.writeSlice d t n es v).z = s.z := by
  cases d <;> simp only [State.writeSlice, State.writeHSlice, State.writeVSlice, writeZAVec_z, mapZA_z]
@[simp] theorem writeSlice_p (s : State) (d : SliceDir) (t n : Nat) (es : ESize) (v : VecReg) :
    (s.writeSlice d t n es v).p = s.p := by
  cases d <;> simp only [State.writeSlice, State.writeHSlice, State.writeVSlice, writeZAVec_p, mapZA_p]
@[simp] theorem writeSlice_ffr (s : State) (d : SliceDir) (t n : Nat) (es : ESize) (v : VecReg) :
    (s.writeSlice d t n es v).ffr = s.ffr := by
  cases d <;> simp only [State.writeSlice, State.writeHSlice, State.writeVSlice, writeZAVec_ffr, mapZA_ffr]
@[simp] theorem writeSlice_fpsr (s : State) (d : SliceDir) (t n : Nat) (es : ESize) (v : VecReg) :
    (s.writeSlice d t n es v).fpsr = s.fpsr := by
  cases d <;> simp only [State.writeSlice, State.writeHSlice, State.writeVSlice, writeZAVec_fpsr, mapZA_fpsr]
@[simp] theorem writeSlice_pstateSM (s : State) (d : SliceDir) (t n : Nat) (es : ESize) (v : VecReg) :
    (s.writeSlice d t n es v).pstateSM = s.pstateSM := by
  cases d <;> simp only [State.writeSlice, State.writeHSlice, State.writeVSlice, writeZAVec_pstateSM, mapZA_pstateSM]
@[simp] theorem writeSlice_pstateZA (s : State) (d : SliceDir) (t n : Nat) (es : ESize) (v : VecReg) :
    (s.writeSlice d t n es v).pstateZA = s.pstateZA := by
  cases d <;> simp only [State.writeSlice, State.writeHSlice, State.writeVSlice, writeZAVec_pstateZA, mapZA_pstateZA]
@[simp] theorem writeSlice_zt0 (s : State) (d : SliceDir) (t n : Nat) (es : ESize) (v : VecReg) :
    (s.writeSlice d t n es v).zt0 = s.zt0 := by
  cases d <;> simp only [State.writeSlice, State.writeHSlice, State.writeVSlice, writeZAVec_zt0, mapZA_zt0]
@[simp] theorem writeSlice_smcrLen (s : State) (d : SliceDir) (t n : Nat) (es : ESize) (v : VecReg) :
    (s.writeSlice d t n es v).smcrLen = s.smcrLen := by
  cases d <;> simp only [State.writeSlice, State.writeHSlice, State.writeVSlice, writeZAVec_smcrLen, mapZA_smcrLen]
@[simp] theorem writeSlice_zcrLen (s : State) (d : SliceDir) (t n : Nat) (es : ESize) (v : VecReg) :
    (s.writeSlice d t n es v).zcrLen = s.zcrLen := by
  cases d <;> simp only [State.writeSlice, State.writeHSlice, State.writeVSlice, writeZAVec_zcrLen, mapZA_zcrLen]
@[simp] theorem writeSlice_mem (s : State) (d : SliceDir) (t n : Nat) (es : ESize) (v : VecReg) :
    (s.writeSlice d t n es v).mem = s.mem := by
  cases d <;> simp only [State.writeSlice, State.writeHSlice, State.writeVSlice, writeZAVec_mem, mapZA_mem]
@[simp] theorem writeSlice_text (s : State) (d : SliceDir) (t n : Nat) (es : ESize) (v : VecReg) :
    (s.writeSlice d t n es v).text = s.text := by
  cases d <;> simp only [State.writeSlice, State.writeHSlice, State.writeVSlice, writeZAVec_text, mapZA_text]
@[simp] theorem writeSlice_draws (s : State) (d : SliceDir) (t n : Nat) (es : ESize) (v : VecReg) :
    (s.writeSlice d t n es v).draws = s.draws := by
  cases d <;> simp only [State.writeSlice, State.writeHSlice, State.writeVSlice, writeZAVec_draws, mapZA_draws]
@[simp] theorem writeSlice_svl (s : State) (d : SliceDir) (t n : Nat) (es : ESize) (v : VecReg) :
    (s.writeSlice d t n es v).svl = s.svl := by
  cases d <;> simp only [State.writeSlice, State.writeHSlice, State.writeVSlice, writeZAVec_svl, mapZA_svl]
@[simp] theorem writeSlice_nsvl (s : State) (d : SliceDir) (t n : Nat) (es : ESize) (v : VecReg) :
    (s.writeSlice d t n es v).nsvl = s.nsvl := by
  cases d <;> simp only [State.writeSlice, State.writeHSlice, State.writeVSlice, writeZAVec_nsvl, mapZA_nsvl]
@[simp] theorem writeSlice_svlB (s : State) (d : SliceDir) (t n : Nat) (es : ESize) (v : VecReg) :
    (s.writeSlice d t n es v).svlB = s.svlB := by
  cases d <;> simp only [State.writeSlice, State.writeHSlice, State.writeVSlice, writeZAVec_svlB, mapZA_svlB]

/-! A write of a register or of the zero register. -/

@[simp] theorem writeXZ_cfg (s : State) (r : XnZR) (v : DWord) :
    (s.writeXZ r v).cfg = s.cfg := by cases r <;> rfl
@[simp] theorem writeXZ_el (s : State) (r : XnZR) (v : DWord) :
    (s.writeXZ r v).el = s.el := by cases r <;> rfl
@[simp] theorem writeXZ_sec (s : State) (r : XnZR) (v : DWord) :
    (s.writeXZ r v).sec = s.sec := by cases r <;> rfl
@[simp] theorem writeXZ_sp (s : State) (r : XnZR) (v : DWord) :
    (s.writeXZ r v).sp = s.sp := by cases r <;> rfl
@[simp] theorem writeXZ_pc (s : State) (r : XnZR) (v : DWord) :
    (s.writeXZ r v).pc = s.pc := by cases r <;> rfl
@[simp] theorem writeXZ_nzcv (s : State) (r : XnZR) (v : DWord) :
    (s.writeXZ r v).nzcv = s.nzcv := by cases r <;> rfl
@[simp] theorem writeXZ_z (s : State) (r : XnZR) (v : DWord) :
    (s.writeXZ r v).z = s.z := by cases r <;> rfl
@[simp] theorem writeXZ_p (s : State) (r : XnZR) (v : DWord) :
    (s.writeXZ r v).p = s.p := by cases r <;> rfl
@[simp] theorem writeXZ_ffr (s : State) (r : XnZR) (v : DWord) :
    (s.writeXZ r v).ffr = s.ffr := by cases r <;> rfl
@[simp] theorem writeXZ_fpsr (s : State) (r : XnZR) (v : DWord) :
    (s.writeXZ r v).fpsr = s.fpsr := by cases r <;> rfl
@[simp] theorem writeXZ_pstateSM (s : State) (r : XnZR) (v : DWord) :
    (s.writeXZ r v).pstateSM = s.pstateSM := by cases r <;> rfl
@[simp] theorem writeXZ_pstateZA (s : State) (r : XnZR) (v : DWord) :
    (s.writeXZ r v).pstateZA = s.pstateZA := by cases r <;> rfl
@[simp] theorem writeXZ_za (s : State) (r : XnZR) (v : DWord) :
    (s.writeXZ r v).za = s.za := by cases r <;> rfl
@[simp] theorem writeXZ_zt0 (s : State) (r : XnZR) (v : DWord) :
    (s.writeXZ r v).zt0 = s.zt0 := by cases r <;> rfl
@[simp] theorem writeXZ_smcrLen (s : State) (r : XnZR) (v : DWord) :
    (s.writeXZ r v).smcrLen = s.smcrLen := by cases r <;> rfl
@[simp] theorem writeXZ_zcrLen (s : State) (r : XnZR) (v : DWord) :
    (s.writeXZ r v).zcrLen = s.zcrLen := by cases r <;> rfl
@[simp] theorem writeXZ_mem (s : State) (r : XnZR) (v : DWord) :
    (s.writeXZ r v).mem = s.mem := by cases r <;> rfl
@[simp] theorem writeXZ_text (s : State) (r : XnZR) (v : DWord) :
    (s.writeXZ r v).text = s.text := by cases r <;> rfl
@[simp] theorem writeXZ_draws (s : State) (r : XnZR) (v : DWord) :
    (s.writeXZ r v).draws = s.draws := by cases r <;> rfl
@[simp] theorem writeXZ_svl (s : State) (r : XnZR) (v : DWord) :
    (s.writeXZ r v).svl = s.svl := by cases r <;> rfl
@[simp] theorem writeXZ_nsvl (s : State) (r : XnZR) (v : DWord) :
    (s.writeXZ r v).nsvl = s.nsvl := by cases r <;> rfl
@[simp] theorem writeXZ_svlB (s : State) (r : XnZR) (v : DWord) :
    (s.writeXZ r v).svlB = s.svlB := by cases r <;> rfl

/-! A change of PSTATE.SM. -/

@[simp] theorem setSM_cfg (s : State) (v : Bool) :
    (s.setSM v).cfg = s.cfg := by unfold State.setSM; split <;> rfl
@[simp] theorem setSM_el (s : State) (v : Bool) :
    (s.setSM v).el = s.el := by unfold State.setSM; split <;> rfl
@[simp] theorem setSM_sec (s : State) (v : Bool) :
    (s.setSM v).sec = s.sec := by unfold State.setSM; split <;> rfl
@[simp] theorem setSM_x (s : State) (v : Bool) :
    (s.setSM v).x = s.x := by unfold State.setSM; split <;> rfl
@[simp] theorem setSM_sp (s : State) (v : Bool) :
    (s.setSM v).sp = s.sp := by unfold State.setSM; split <;> rfl
@[simp] theorem setSM_pc (s : State) (v : Bool) :
    (s.setSM v).pc = s.pc := by unfold State.setSM; split <;> rfl
@[simp] theorem setSM_nzcv (s : State) (v : Bool) :
    (s.setSM v).nzcv = s.nzcv := by unfold State.setSM; split <;> rfl
@[simp] theorem setSM_pstateZA (s : State) (v : Bool) :
    (s.setSM v).pstateZA = s.pstateZA := by unfold State.setSM; split <;> rfl
@[simp] theorem setSM_za (s : State) (v : Bool) :
    (s.setSM v).za = s.za := by unfold State.setSM; split <;> rfl
@[simp] theorem setSM_zt0 (s : State) (v : Bool) :
    (s.setSM v).zt0 = s.zt0 := by unfold State.setSM; split <;> rfl
@[simp] theorem setSM_smcrLen (s : State) (v : Bool) :
    (s.setSM v).smcrLen = s.smcrLen := by unfold State.setSM; split <;> rfl
@[simp] theorem setSM_zcrLen (s : State) (v : Bool) :
    (s.setSM v).zcrLen = s.zcrLen := by unfold State.setSM; split <;> rfl
@[simp] theorem setSM_mem (s : State) (v : Bool) :
    (s.setSM v).mem = s.mem := by unfold State.setSM; split <;> rfl
@[simp] theorem setSM_text (s : State) (v : Bool) :
    (s.setSM v).text = s.text := by unfold State.setSM; split <;> rfl
@[simp] theorem setSM_draws (s : State) (v : Bool) :
    (s.setSM v).draws = s.draws := by unfold State.setSM; split <;> rfl
@[simp] theorem setSM_svl (s : State) (v : Bool) :
    (s.setSM v).svl = s.svl := by unfold State.setSM; split <;> rfl
@[simp] theorem setSM_nsvl (s : State) (v : Bool) :
    (s.setSM v).nsvl = s.nsvl := by unfold State.setSM; split <;> rfl
@[simp] theorem setSM_svlB (s : State) (v : Bool) :
    (s.setSM v).svlB = s.svlB := by unfold State.setSM; split <;> rfl

/-! A change of PSTATE.ZA. -/

@[simp] theorem setZA_cfg (s : State) (v : Bool) :
    (s.setZA v).cfg = s.cfg := by unfold State.setZA; split <;> (try split) <;> rfl
@[simp] theorem setZA_el (s : State) (v : Bool) :
    (s.setZA v).el = s.el := by unfold State.setZA; split <;> (try split) <;> rfl
@[simp] theorem setZA_sec (s : State) (v : Bool) :
    (s.setZA v).sec = s.sec := by unfold State.setZA; split <;> (try split) <;> rfl
@[simp] theorem setZA_x (s : State) (v : Bool) :
    (s.setZA v).x = s.x := by unfold State.setZA; split <;> (try split) <;> rfl
@[simp] theorem setZA_sp (s : State) (v : Bool) :
    (s.setZA v).sp = s.sp := by unfold State.setZA; split <;> (try split) <;> rfl
@[simp] theorem setZA_pc (s : State) (v : Bool) :
    (s.setZA v).pc = s.pc := by unfold State.setZA; split <;> (try split) <;> rfl
@[simp] theorem setZA_nzcv (s : State) (v : Bool) :
    (s.setZA v).nzcv = s.nzcv := by unfold State.setZA; split <;> (try split) <;> rfl
@[simp] theorem setZA_z (s : State) (v : Bool) :
    (s.setZA v).z = s.z := by unfold State.setZA; split <;> (try split) <;> rfl
@[simp] theorem setZA_p (s : State) (v : Bool) :
    (s.setZA v).p = s.p := by unfold State.setZA; split <;> (try split) <;> rfl
@[simp] theorem setZA_ffr (s : State) (v : Bool) :
    (s.setZA v).ffr = s.ffr := by unfold State.setZA; split <;> (try split) <;> rfl
@[simp] theorem setZA_fpsr (s : State) (v : Bool) :
    (s.setZA v).fpsr = s.fpsr := by unfold State.setZA; split <;> (try split) <;> rfl
@[simp] theorem setZA_pstateSM (s : State) (v : Bool) :
    (s.setZA v).pstateSM = s.pstateSM := by unfold State.setZA; split <;> (try split) <;> rfl
@[simp] theorem setZA_smcrLen (s : State) (v : Bool) :
    (s.setZA v).smcrLen = s.smcrLen := by unfold State.setZA; split <;> (try split) <;> rfl
@[simp] theorem setZA_zcrLen (s : State) (v : Bool) :
    (s.setZA v).zcrLen = s.zcrLen := by unfold State.setZA; split <;> (try split) <;> rfl
@[simp] theorem setZA_mem (s : State) (v : Bool) :
    (s.setZA v).mem = s.mem := by unfold State.setZA; split <;> (try split) <;> rfl
@[simp] theorem setZA_text (s : State) (v : Bool) :
    (s.setZA v).text = s.text := by unfold State.setZA; split <;> (try split) <;> rfl
@[simp] theorem setZA_draws (s : State) (v : Bool) :
    (s.setZA v).draws = s.draws := by unfold State.setZA; split <;> (try split) <;> rfl
@[simp] theorem setZA_svl (s : State) (v : Bool) :
    (s.setZA v).svl = s.svl := by unfold State.setZA; split <;> (try split) <;> rfl
@[simp] theorem setZA_nsvl (s : State) (v : Bool) :
    (s.setZA v).nsvl = s.nsvl := by unfold State.setZA; split <;> (try split) <;> rfl
@[simp] theorem setZA_svlB (s : State) (v : Bool) :
    (s.setZA v).svlB = s.svlB := by unfold State.setZA; split <;> (try split) <;> rfl

/-! The lengths depend on the parameters, the level and the LEN fields only. -/

/-- SVL of states that agree in the parameters, the level and the SMCR fields. -/
theorem svl_congr {s t : State} (hc : t.cfg = s.cfg) (he : t.el = s.el) (hl : t.smcrLen = s.smcrLen) :
    t.svl = s.svl := by
  unfold State.svl; rw [hc, he, hl]

/-- NSVL of states that agree in the parameters, the level and the ZCR fields. -/
theorem nsvl_congr {s t : State} (hc : t.cfg = s.cfg) (he : t.el = s.el) (hl : t.zcrLen = s.zcrLen) :
    t.nsvl = s.nsvl := by
  unfold State.nsvl; rw [hc, he, hl]

/-- VL of states that agree in everything it reads. -/
theorem vl_congr {s t : State} (hc : t.cfg = s.cfg) (he : t.el = s.el) (hl : t.smcrLen = s.smcrLen)
    (hz : t.zcrLen = s.zcrLen) (hm : t.pstateSM = s.pstateSM) : t.vl = s.vl := by
  unfold State.vl State.nonStreamingVL; rw [hm, svl_congr hc he hl, nsvl_congr hc he hz, hc, he]

/-- In Streaming SVE mode VL is SVL. -/
theorem vl_streaming {s : State} (h : s.pstateSM = true) : s.vl = s.svl := by simp [State.vl, h]

/-! What the mode changes write. -/

@[simp] theorem setSM_pstateSM (s : State) (v : Bool) : (s.setSM v).pstateSM = v := by
  unfold State.setSM; split <;> simp_all

@[simp] theorem setZA_pstateZA (s : State) (v : Bool) : (s.setZA v).pstateZA = v := by
  unfold State.setZA; split
  · simp_all
  · split <;> simp_all

/-- PSTATE.SM written with the value it has: nothing changes. -/
theorem setSM_same {s : State} {v : Bool} (h : v = s.pstateSM) : s.setSM v = s := by
  rw [State.setSM, if_pos h]

/-- PSTATE.ZA written with the value it has: nothing changes. -/
theorem setZA_same {s : State} {v : Bool} (h : v = s.pstateZA) : s.setZA v = s := by
  rw [State.setZA, if_pos h]

/-- PSTATE.SM changed: every vector and predicate register and FFR become zero, FPSR takes its value. -/
theorem setSM_change {s : State} {v : Bool} (h : v ≠ s.pstateSM) :
    s.setSM v = { s with
      pstateSM := v, z := Vector.replicate 32 0#2048, p := Vector.replicate 16 0#256, ffr := 0#256,
      fpsr := fpsrAfterModeChange } := by
  rw [State.setSM, if_neg h]

/-- PSTATE.ZA changed to 1: ZA storage and ZT0 become zero. -/
theorem setZA_enable {s : State} (h : s.pstateZA = false) :
    s.setZA true = { s with
      pstateZA := true, za := Vector.replicate 256 0#2048, zt0 := if s.cfg.haveSME2 then 0#512 else s.zt0 } := by
  simp [State.setZA, h]

/-- PSTATE.ZA changed to 0: the contents of ZA storage and ZT0 are discarded. -/
theorem setZA_disable {s : State} (h : s.pstateZA = true) :
    s.setZA false = { s with pstateZA := false, za := Vector.replicate 256 0#2048, zt0 := 0#512 } := by
  simp [State.setZA, h]

end Sys2Proof.Laws
end

