-- ==== Sys2Proof/Laws/Slices.lean ====
section
/-! SUPPORT. ZA storage byte by byte: what the reads and writes of array vectors and of tile slices do to every
byte of the array. -/

namespace Sys2Proof.Laws

open Sys2Proof.Machine Sys2Proof.Safety

/-! Sizes. -/

theorem esize_bytes_pos (es : ESize) : 0 < es.bytes := by cases es <;> decide

theorem svlBits_eq (s : State) : s.svlBits = 8 * s.svlB := by
  unfold State.svlB State.svlBits; cases s.svl <;> rfl

theorem svlB_le (s : State) : s.svlB ≤ 256 := by unfold State.svlB; cases s.svl <;> decide

theorem svlB_pos (s : State) : 0 < s.svlB := by unfold State.svlB; cases s.svl <;> decide

/-- The elements of a slice fill an array vector. -/
theorem tileDim_mul (s : State) (es : ESize) : s.tileDim es * es.bytes = s.svlB := by
  unfold State.tileDim State.svlB; cases s.svl <;> cases es <;> rfl

theorem tileDim_mul_bits (s : State) (es : ESize) : s.tileDim es * es.bits = s.svlBits := by
  unfold State.tileDim State.svlBits; cases s.svl <;> cases es <;> rfl

theorem tileDim_pos (s : State) (es : ESize) : 0 < s.tileDim es := by
  unfold State.tileDim; cases s.svl <;> cases es <;> decide

/-- The selected slice is a slice of the tile. -/
theorem selectSlice_lt (s : State) (ws : SelReg) (offs : Nat) (es : ESize) :
    s.selectSlice ws offs es < s.tileDim es := Nat.mod_lt _ (tileDim_pos s es)

/-- The selected array vector is one of the array. -/
theorem selectVector_lt (s : State) (wv : SelReg) (offs : Nat) : s.selectVector wv offs < s.svlB :=
  Nat.mod_lt _ (svlB_pos s)

/-- A horizontal slice is an array vector. -/
theorem hSliceVector_lt (s : State) {t n : Nat} {es : ESize} (ht : t < es.bytes) (hn : n < s.tileDim es) :
    hSliceVector t n es < s.svlB := by
  have h1 : es.bytes * (n + 1) ≤ es.bytes * s.tileDim es := Nat.mul_le_mul_left _ hn
  have h2 := tileDim_mul s es
  rw [Nat.mul_comm] at h2
  rw [Nat.mul_succ] at h1
  unfold hSliceVector; omega

@[simp] theorem writeSlice_tileDim (s : State) (d : SliceDir) (t n : Nat) (es es' : ESize) (v : VecReg) :
    (s.writeSlice d t n es v).tileDim es' = s.tileDim es' := by
  unfold State.tileDim; rw [writeSlice_svl]

/-! Array vectors. -/

theorem zaVec_eq {s : State} {k : Nat} (h : k < 256) : s.zaVec k = lowBits s.svlBits s.za[k] := by
  unfold State.zaVec; rw [dif_pos h]

/-- An array vector has no bit at or above SVL. -/
theorem lowBits_zaVec (s : State) (k : Nat) : lowBits s.svlBits (s.zaVec k) = s.zaVec k := by
  unfold State.zaVec; split <;> simp

/-- An array vector after a change of ZA storage. -/
theorem zaVec_mapZA (s : State) (f : Nat → VecReg → VecReg) {k : Nat} (h : k < 256) :
    (s.mapZA f).zaVec k = lowBits s.svlBits (f k (s.zaVec k)) := by
  rw [zaVec_eq h, zaVec_eq h]
  simp only [State.svlBits, mapZA_svl]
  simp [State.mapZA]

/-- The array vectors after a write of one of them. -/
theorem zaVec_writeZAVec (s : State) {v : VecReg} (hv : lowBits s.svlBits v = v) (n : Nat) {k : Nat} (h : k < 256) :
    (s.writeZAVec n v).zaVec k = if k = n then v else s.zaVec k := by
  rw [State.writeZAVec, zaVec_mapZA s _ h]
  split
  · exact hv
  · exact lowBits_zaVec s k

/-- Byte reads and array vectors: vectors with equal bytes are equal. -/
theorem zaVec_eq_of_bytes {s t : State} (hs : t.svl = s.svl) {k : Nat}
    (h : ∀ c < s.svlB, zaByte t k c = zaByte s k c) : t.zaVec k = s.zaVec k := by
  have e : s.svlB * 8 = s.svlBits := by rw [svlBits_eq]; omega
  refine eq_of_elems (n := s.svlB) (w := 8) (by decide) ?_ ?_ h
  · rw [e]; have := lowBits_zaVec t k; rwa [State.svlBits, hs] at this
  · rw [e]; exact lowBits_zaVec s k

/-! Tile slices. -/

/-- The bytes of a slice read as a vector. -/
theorem byte_readSlice (s : State) (d : SliceDir) {t n : Nat} {es : ESize} {c : Nat} (hc : c < s.svlB) :
    elem (s.readSlice d t n es) c 8 =
      zaByte s (slicePlace es d t n (c / es.bytes) (c % es.bytes)).1
        (slicePlace es d t n (c / es.bytes) (c % es.bytes)).2 := by
  cases d with
  | horizontal =>
    simp only [State.readSlice, State.readHSlice, slicePlace, hSliceVector, Nat.div_add_mod]
    rfl
  | vertical =>
    simp only [State.readSlice, State.readVSlice, slicePlace]
    have hb := esize_bytes_pos es
    have h1 := tileDim_mul s es
    have h2 := svlB_le s
    rw [byte_buildElems (b := es.bytes) _ hb (by omega) (by have := svlBits_eq s; have := tileDim_mul_bits s es; simp only [ESize.bits] at this; omega),
      byte_elem _ (Nat.mod_lt c hb), Nat.mul_comm n]
    rfl

/-- An element of a slice read as a vector, byte by byte. -/
theorem byte_elem_readSlice (s : State) (d : SliceDir) {t n : Nat} {es : ESize} {e j : Nat} (he : e < s.tileDim es)
    (hj : j < es.bytes) :
    elem (elem (s.readSlice d t n es) e es.bits) j 8 =
      zaByte s (slicePlace es d t n e j).1 (slicePlace es d t n e j).2 := by
  have h1 := tileDim_mul s es
  have h3 : (e + 1) * es.bytes ≤ s.tileDim es * es.bytes := Nat.mul_le_mul_right _ he
  rw [Nat.succ_mul] at h3
  have hd : (e * es.bytes + j) / es.bytes = e := by
    rw [Nat.mul_comm, Nat.mul_add_div (esize_bytes_pos es), Nat.div_eq_of_lt hj, Nat.add_zero]
  have hm : (e * es.bytes + j) % es.bytes = j := by
    rw [Nat.mul_comm, Nat.mul_add_mod, Nat.mod_eq_of_lt hj]
  rw [byte_elem _ hj, byte_readSlice s d (by omega), hd, hm]

/-- A slice read as a vector has no bit at or above SVL. -/
theorem lowBits_readSlice (s : State) (d : SliceDir) (t n : Nat) (es : ESize) :
    lowBits s.svlBits (s.readSlice d t n es) = s.readSlice d t n es := by
  cases d with
  | horizontal => exact lowBits_zaVec s _
  | vertical => exact lowBits_buildElems _ (Nat.le_of_eq (tileDim_mul_bits s es))

/-- Every byte of ZA storage after a write of a tile slice: the bytes of the slice hold the bytes of the vector,
all others are as they were. -/
theorem zaByte_writeSlice (s : State) (d : SliceDir) {t n : Nat} {es : ESize} {v : VecReg} (ht : t < es.bytes)
    (hv : lowBits s.svlBits v = v) {row col : Nat} (hr : row < s.svlB) (hc : col < s.svlB) :
    zaByte (s.writeSlice d t n es v) row col =
      if sliceHasByte es d t n row col then elem v (sliceElement es d row col * es.bytes + col % es.bytes) 8
      else zaByte s row col := by
  have hb := esize_bytes_pos es
  have hrow : row < 256 := by have := svlB_le s; omega
  have h1 := tileDim_mul s es
  cases d with
  | horizontal =>
    simp only [State.writeSlice, State.writeHSlice, sliceHasByte, sliceElement, zaByte, hSliceVector]
    rw [zaVec_writeZAVec s hv _ hrow]
    rw [Nat.mul_comm (col / es.bytes), Nat.div_add_mod]
    by_cases h : row = t + es.bytes * n <;> simp [h]
  | vertical =>
    simp only [State.writeSlice, State.writeVSlice, sliceElement, zaByte]
    rw [zaVec_mapZA s _ hrow]
    have hdiv : row / es.bytes < s.tileDim es := by
      rw [Nat.div_lt_iff_lt_mul hb, h1]; exact hr
    have hcond : (t ≤ row ∧ (row - t) % es.bytes = 0 ∧ (row - t) / es.bytes < s.tileDim es) ↔ row % es.bytes = t := by
      constructor
      · rintro ⟨ha, hb2, _⟩
        have : row = (row - t) + t := by omega
        rw [this, Nat.add_mod, hb2, Nat.zero_add, Nat.mod_mod, Nat.mod_eq_of_lt ht]
      · intro h
        have h2 := Nat.div_add_mod row es.bytes
        have h3 : row - t = es.bytes * (row / es.bytes) := by omega
        refine ⟨by omega, by rw [h3, Nat.mul_mod_right], ?_⟩
        rw [h3, Nat.mul_div_cancel_left _ hb]; exact hdiv
    have hbits : (col + 1) * 8 ≤ s.svlBits := by rw [svlBits_eq]; omega
    by_cases hrt : row % es.bytes = t
    · have h2 := Nat.div_add_mod row es.bytes
      have hq : (row - t) / es.bytes = row / es.bytes := by
        rw [show row - t = es.bytes * (row / es.bytes) by omega, Nat.mul_div_cancel_left _ hb]
      rw [if_pos (hcond.mpr hrt), elem_lowBits _ hbits, hq]
      have hcd := Nat.div_add_mod col es.bytes
      have hcm := Nat.mod_lt col hb
      by_cases hcn : col / es.bytes = n
      · rw [if_pos (show sliceHasByte es .vertical t n row col = true from decide_eq_true ⟨hrt, hcn⟩)]
        apply BitVec.eq_of_getLsbD_eq
        intro i hi
        have hm : es.bytes * n = n * es.bytes := Nat.mul_comm _ _
        rw [hcn] at hcd
        have hx : n * es.bits = 8 * (es.bytes * n) := by simp only [ESize.bits]; ring
        have hxe : row / es.bytes * es.bits = 8 * (row / es.bytes * es.bytes) := by simp only [ESize.bits]; ring
        have hW : col * 8 + i < 2048 := by have := svlB_le s; omega
        rw [getLsbD_elem, getLsbD_elem, getLsbD_setElem, if_pos (by simp only [ESize.bits] at *; omega), getLsbD_elem, hx, hxe]
        have hlt : col * 8 + i - 8 * (es.bytes * n) < es.bits := by simp only [ESize.bits]; omega
        simp only [hi, hW, hlt, decide_true, Bool.true_and]
        congr 1
        omega
      · rw [if_neg (fun h => hcn (of_decide_eq_true h).2)]
        apply BitVec.eq_of_getLsbD_eq
        intro i hi
        rw [getLsbD_elem, getLsbD_elem, getLsbD_setElem]
        rw [if_neg]
        have hx : n * es.bits = 8 * (n * es.bytes) := by simp only [ESize.bits]; ring
        rw [hx]
        rintro ⟨ha, hb2⟩
        apply hcn
        simp only [ESize.bits] at hb2
        exact Nat.div_eq_of_lt_le (by omega) (by rw [Nat.succ_mul]; omega)
    · rw [if_neg (fun h => hrt (hcond.mp h)), if_neg (fun h => hrt (of_decide_eq_true h).1), elem_lowBits _ hbits]

/-! The ZA multi-vector operand that goes with a Z multi-vector operand. -/

/-- Everything the pairing can answer: one group for each register, in order. -/
theorem groupedOperand_eq_some {s : State} {zs : List (Fin 32)} {wv : GroupSelReg} {offs : Nat} {gs : GroupNum}
    {l : List (Fin 32 × List Nat)} :
    s.groupedOperand zs wv offs gs = some l ↔
      ∃ ng, ng ≠ .one ∧ zs.length = ng.val ∧ l = zs.zip (s.multiVectorOperand wv offs ng gs) := by
  have hlen : ∀ ng, (s.multiVectorOperand wv offs ng gs).length = ng.val := fun ng => by
    simp [State.multiVectorOperand, zaMultiVector]
  unfold State.groupedOperand groupCount groupPairs
  constructor
  · intro h
    split at h
    · next h2 =>
      refine ⟨.two, by decide, h2, ?_⟩
      simpa [hlen, h2, GroupNum.val, eq_comm] using h
    · split at h
      · next h4 =>
        refine ⟨.four, by decide, h4, ?_⟩
        simpa [hlen, h4, GroupNum.val, eq_comm] using h
      · cases h
  · rintro ⟨ng, h1, h2, rfl⟩
    cases ng
    · exact absurd rfl h1
    · simp [h2, hlen, GroupNum.val]
    · simp [h2, hlen, GroupNum.val]

end Sys2Proof.Laws
end

