-- ==== Sys2Proof/Laws/Ops.lean ====
section
/-! SUPPORT. What each shared operation can do, said once: when it answers a next state, and which. -/

namespace Sys2Proof.Laws

open Sys2Proof.Machine Sys2Proof.Safety

/-! The common steps. -/

/-- The last step answers a next state exactly when pc + 4 does not reach 2^64. -/
theorem complete_eq_next {s t : State} :
    complete s = .next t ↔ s.pc.toNat + 4 < 2 ^ 64 ∧ t = { s with pc := s.pc + 4#64 } := by
  unfold complete
  split
  · next h => exact ⟨fun e => ⟨h, (Host.Outcome.next.inj e).symm⟩, fun e => congrArg _ e.2.symm⟩
  · next h => exact ⟨fun e => (by cases e), fun e => absurd e.1 h⟩

/-- The last step where pc + 4 does not reach 2^64. -/
theorem complete_of_lt {s : State} (h : s.pc.toNat + 4 < 2 ^ 64) : complete s = .next { s with pc := s.pc + 4#64 } := by
  rw [complete, if_pos h]

/-- The last step at the end of the address space. -/
theorem complete_of_ge {s : State} (h : ¬ s.pc.toNat + 4 < 2 ^ 64) : complete s = .refused .pcWraps := by
  rw [complete, if_neg h]

/-- An instruction answers a next state exactly when the three checks pass and its own effect does. -/
theorem checked_eq_next {f : Bool} {k : LegalClass} {s t : State} {e : Out} :
    checked f k s e = .next t ↔
      f = true ∧ s.cfg.smeAccessEnabled.at s.el = true ∧
        illegalReason k s.pstateSM s.pstateZA s.fa64Active = none ∧ e = .next t := by
  unfold checked takeException
  cases f <;> cases s.cfg.smeAccessEnabled.at s.el <;> simp
  cases illegalReason k s.pstateSM s.pstateZA s.fa64Active <;> simp

/-- The checks pass. -/
theorem checked_pass {f : Bool} {k : LegalClass} {s : State} {e : Out} (hf : f = true)
    (ha : s.cfg.smeAccessEnabled.at s.el = true)
    (hl : illegalReason k s.pstateSM s.pstateZA s.fa64Active = none) : checked f k s e = e := by
  simp [checked, hf, ha, hl]

/-- The checks pass for K2 instructions with PSTATE.ZA = 1. -/
theorem checked_k2 {f : Bool} {s : State} {e : Out} (hf : f = true) (ha : s.cfg.smeAccessEnabled.at s.el = true)
    (hz : s.pstateZA = true) : checked f .k2 s e = e := checked_pass hf ha (by simp [illegalReason, hz])

/-- The checks pass for K3 instructions with both mode bits 1. -/
theorem checked_k3 {s : State} {e : Out} (h : TileReady s) : checked s.cfg.haveSME .k3 s e = e :=
  checked_pass h.sme.feature h.sme.access (by simp [illegalReason, h.sm, h.za])

/-- The checks pass for mode changes in every state of the mode bits. -/
theorem checked_k6 {f : Bool} {s : State} {e : Out} (hf : f = true) (ha : s.cfg.smeAccessEnabled.at s.el = true) :
    checked f .k6 s e = e := checked_pass hf ha rfl

/-! Array vectors and ZT0. -/

/-- The admitted requests, in the words of the statements. -/
theorem admits_iff_mapped (m : Memory) (a n : Nat) : m.admits a n = true ↔ Mapped m a n := admits_iff m a n

/-- No text in a range, in the words of the statements. -/
theorem someMapped_false_iff (m : Memory) (a n : Nat) : m.someMapped a n = false ↔ NoText m a n := by
  rw [Bool.eq_false_iff, Ne, someMapped_iff, NoText]
  constructor
  · intro h k hk
    cases hb : m.byteAt (a + k) with
    | none => rfl
    | some b => exact absurd ⟨k, hk, by simp [hb]⟩ h
  · rintro h ⟨k, hk, hb⟩
    rw [h k hk] at hb; exact absurd hb (by simp)

/-- The base check. -/
theorem baseAligned_iff (s : State) (r : XnSP) : s.baseAligned r = true ↔ (s.base r).toNat % 16 = 0 := by
  simp [State.baseAligned]

/-- Everything a store of bytes can do. -/
theorem storeBytes_eq_next {s t : State} {a : Nat} {bs : List Byte} :
    storeBytes s a bs = .next t ↔
      NoText s.text a bs.length ∧ Mapped s.mem a bs.length ∧ s.pc.toNat + 4 < 2 ^ 64 ∧
        t = { s with mem := s.mem.writeBytes a bs, pc := s.pc + 4#64 } := by
  rw [← someMapped_false_iff, ← admits_iff_mapped]
  unfold storeBytes
  cases s.text.someMapped a bs.length <;> cases s.mem.admits a bs.length <;> simp [complete_eq_next]

/-- Everything LDR (array vector) can do. -/
theorem loadArrayVector_eq_next {a : ArrayOperands} {s t : State} :
    loadArrayVector a s = .next t ↔
      (s.base a.base).toNat % 16 = 0 ∧ Mapped s.mem (s.arrayAddr a) s.svlB ∧ s.pc.toNat + 4 < 2 ^ 64 ∧
        t = { s.writeZAVec (s.selectVector a.wv a.offs.val)
                (buildElems 2048 8 s.svlB (fun k => s.mem.byteD (s.arrayAddr a + k))) with pc := s.pc + 4#64 } := by
  rw [← baseAligned_iff, ← admits_iff_mapped]
  unfold loadArrayVector
  cases s.baseAligned a.base <;> cases s.mem.admits (s.arrayAddr a) s.svlB <;> simp [complete_eq_next]

/-- Everything STR (array vector) can do. -/
theorem storeArrayVector_eq_next {a : ArrayOperands} {s t : State} :
    storeArrayVector a s = .next t ↔
      (s.base a.base).toNat % 16 = 0 ∧ NoText s.text (s.arrayAddr a) s.svlB ∧ Mapped s.mem (s.arrayAddr a) s.svlB ∧
        s.pc.toNat + 4 < 2 ^ 64 ∧
        t = { s with
          mem := s.mem.writeBytes (s.arrayAddr a) (leBytes (s.zaVec (s.selectVector a.wv a.offs.val)) s.svlB),
          pc := s.pc + 4#64 } := by
  rw [← baseAligned_iff]
  unfold storeArrayVector
  cases s.baseAligned a.base
  · simp
  · simp [storeBytes_eq_next]

/-- Everything ZERO (tiles) can do. -/
theorem zeroTilesEffect_eq_next {mask : BitVec 8} {s t : State} :
    zeroTilesEffect mask s = .next t ↔ s.pc.toNat + 4 < 2 ^ 64 ∧
      t = { s.mapZA (fun i old => if decide (i < s.svlB) && mask.getLsbD (i % 8) then 0#2048 else old) with
            pc := s.pc + 4#64 } := by
  unfold zeroTilesEffect
  rw [complete_eq_next, mapZA_pc]

/-- Everything LDR (table) can do. -/
theorem loadTable_eq_next {r : XnSP} {s t : State} :
    loadTable r s = .next t ↔
      (s.base r).toNat % 16 = 0 ∧ Mapped s.mem (s.base r).toNat 64 ∧ s.pc.toNat + 4 < 2 ^ 64 ∧
        t = { s with
          zt0 := buildElems 512 8 64 (fun k => s.mem.byteD ((s.base r).toNat + k)), pc := s.pc + 4#64 } := by
  rw [← baseAligned_iff, ← admits_iff_mapped]
  unfold loadTable
  cases s.baseAligned r <;> cases s.mem.admits (s.base r).toNat 64 <;> simp [complete_eq_next]

/-- Everything STR (table) can do. -/
theorem storeTable_eq_next {r : XnSP} {s t : State} :
    storeTable r s = .next t ↔
      (s.base r).toNat % 16 = 0 ∧ NoText s.text (s.base r).toNat 64 ∧ Mapped s.mem (s.base r).toNat 64 ∧
        s.pc.toNat + 4 < 2 ^ 64 ∧
        t = { s with mem := s.mem.writeBytes (s.base r).toNat (leBytes s.zt0 64), pc := s.pc + 4#64 } := by
  rw [← baseAligned_iff]
  unfold storeTable
  cases s.baseAligned r
  · simp
  · simp [storeBytes_eq_next]

/-! Tile slices. -/

/-- The vector a tile load writes to the slice. -/
def loadedSlice (es : ESize) (a : SliceMemOperands) (s : State) : VecReg :=
  buildElems 2048 es.bits (s.tileDim es) (fun e =>
    if s.active a.pg es e then s.mem.readLE (s.sliceStart es a + e * es.bytes) es.bytes else 0#es.bits)

/-- Everything a tile load can do. -/
theorem tileLoad_eq_next {es : ESize} {a : SliceMemOperands} {s t : State} :
    tileLoad es a s = .next t ↔
      s.sliceStart es a % es.bytes = 0 ∧
      (∀ e < s.tileDim es, s.active a.pg es e = true → Mapped s.mem (s.sliceStart es a + e * es.bytes) es.bytes) ∧
      s.pc.toNat + 4 < 2 ^ 64 ∧
        t = { s.writeSlice a.slice.dir a.slice.tile (s.sliceIndex es a.slice) es (loadedSlice es a s) with
              pc := s.pc + 4#64 } := by
  have h : elemsAdmitted s.mem (s.sliceStart es a) es.bytes (s.active a.pg es) (s.tileDim es) = true ↔
      (∀ e < s.tileDim es, s.active a.pg es e = true →
        Mapped s.mem (s.sliceStart es a + e * es.bytes) es.bytes) := by
    simp only [elemsAdmitted_iff, admits_iff_mapped]
  rw [← h]
  unfold tileLoad loadedSlice
  by_cases h1 : s.sliceStart es a % es.bytes = 0
  · cases h2 : elemsAdmitted s.mem (s.sliceStart es a) es.bytes (s.active a.pg es) (s.tileDim es)
    · simp [h1]
    · simp [h1, complete_eq_next]
  · simp [h1]

/-- Everything a tile store can do. -/
theorem tileStore_eq_next {es : ESize} {a : SliceMemOperands} {s t : State} :
    tileStore es a s = .next t ↔
      s.sliceStart es a % es.bytes = 0 ∧
      (∀ e < s.tileDim es, s.active a.pg es e = true →
        NoText s.text (s.sliceStart es a + e * es.bytes) es.bytes) ∧
      (∀ e < s.tileDim es, s.active a.pg es e = true → Mapped s.mem (s.sliceStart es a + e * es.bytes) es.bytes) ∧
      s.pc.toNat + 4 < 2 ^ 64 ∧ t = { s with mem := s.memAfterTileStore es a, pc := s.pc + 4#64 } := by
  have h : elemsAdmitted s.mem (s.sliceStart es a) es.bytes (s.active a.pg es) (s.tileDim es) = true ↔
      (∀ e < s.tileDim es, s.active a.pg es e = true →
        Mapped s.mem (s.sliceStart es a + e * es.bytes) es.bytes) := by
    simp only [elemsAdmitted_iff, admits_iff_mapped]
  have h' : elemsInText s.text (s.sliceStart es a) es.bytes (s.active a.pg es) (s.tileDim es) = false ↔
      (∀ e < s.tileDim es, s.active a.pg es e = true →
        NoText s.text (s.sliceStart es a + e * es.bytes) es.bytes) := by
    simp only [← someMapped_false_iff]
    rw [Bool.eq_false_iff, Ne, elemsInText_iff]
    constructor
    · intro hn e he ha
      rw [Bool.eq_false_iff]
      exact fun hm => hn ⟨e, he, ha, hm⟩
    · rintro hn ⟨e, he, ha, hm⟩
      rw [hn e he ha] at hm; exact absurd hm (by simp)
  rw [← h, ← h']
  unfold tileStore
  by_cases h1 : s.sliceStart es a % es.bytes = 0
  · cases h2 : elemsAdmitted s.mem (s.sliceStart es a) es.bytes (s.active a.pg es) (s.tileDim es) <;>
      cases h3 : elemsInText s.text (s.sliceStart es a) es.bytes (s.active a.pg es) (s.tileDim es) <;>
      simp [h1, complete_eq_next]
  · simp [h1]

/-- The loaded vector has no bit at or above SVL. -/
theorem lowBits_loadedSlice (es : ESize) (a : SliceMemOperands) (s : State) :
    lowBits s.svlBits (loadedSlice es a s) = loadedSlice es a s :=
  lowBits_buildElems _ (Nat.le_of_eq (tileDim_mul_bits s es))

/-- Byte c of the loaded vector. -/
theorem byte_loadedSlice (es : ESize) (a : SliceMemOperands) (s : State) {c : Nat} (hc : c < s.svlB) :
    elem (loadedSlice es a s) c 8 =
      if s.active a.pg es (c / es.bytes) then s.mem.byteD (s.sliceStart es a + c) else 0#8 := by
  have hb := esize_bytes_pos es
  have h1 := tileDim_mul s es
  have h2 := svlBits_eq s
  have h3 := svlB_le s
  have h4 := tileDim_mul_bits s es
  unfold loadedSlice
  rw [byte_buildElems (b := es.bytes) _ hb (by omega) (by simp only [ESize.bits] at h4; omega)]
  split
  · rw [elem_readLE _ _ (Nat.mod_lt c hb), Nat.add_assoc, Nat.mul_comm, Nat.div_add_mod]
  · apply BitVec.eq_of_getLsbD_eq; intro i hi; rw [getLsbD_elem]; simp

/-- The vector a move writes: the Active elements of one vector, the others of another. -/
theorem elem_predicatedWrite {W : Nat} (old result : BitVec W) (active : Nat → Bool) {w n e : Nat} (mode : PredMode)
    (he : e < n) (hW : n * w ≤ W) :
    elem (predicatedWrite old result active w n mode) e w =
      if active e then elem result e w else match mode with
        | .zeroing => 0#w
        | .merging => elem old e w := by
  unfold predicatedWrite
  exact (elem_buildElems _ he hW).trans (by cases mode <;> rfl)

/-- A byte of a merging write. -/
theorem byte_predicatedWrite (old result : VecReg) (active : Nat → Bool) (s : State) (es : ESize) {c : Nat}
    (hc : c < s.svlB) :
    elem (predicatedWrite old result active es.bits (s.tileDim es) .merging) c 8 =
      if active (c / es.bytes) then elem result c 8 else elem old c 8 := by
  have hb := esize_bytes_pos es
  have h1 := tileDim_mul s es
  have h2 := svlBits_eq s
  have h3 := svlB_le s
  have h4 := tileDim_mul_bits s es
  unfold predicatedWrite
  rw [byte_buildElems (b := es.bytes) _ hb (by omega) (by simp only [ESize.bits] at h4; omega)]
  have hd : c / es.bytes * es.bytes + c % es.bytes = c := by rw [Nat.mul_comm]; exact Nat.div_add_mod c es.bytes
  split <;> rw [byte_elem _ (Nat.mod_lt c hb), hd]

/-- A predicated write has no bit above its last element. -/
theorem lowBits_predicatedWrite (old result : VecReg) (active : Nat → Bool) (s : State) (es : ESize) (mode : PredMode) :
    lowBits s.svlBits (predicatedWrite old result active es.bits (s.tileDim es) mode) =
      predicatedWrite old result active es.bits (s.tileDim es) mode :=
  lowBits_buildElems _ (Nat.le_of_eq (tileDim_mul_bits s es))

/-- Everything MOVA (tile to vector) can do. -/
theorem moveToVector_eq_next {es : ESize} {a : MovaOperands} {s t : State} :
    moveToVector es a s = .next t ↔ s.pc.toNat + 4 < 2 ^ 64 ∧
      t = { s.writeZ a.z (predicatedWrite (s.readZ a.z)
              (s.readSlice a.slice.dir a.slice.tile (s.sliceIndex es a.slice) es)
              (s.active a.pg es) es.bits (s.tileDim es) .merging) with pc := s.pc + 4#64 } := by
  unfold moveToVector
  rw [complete_eq_next, writeZ_pc]

/-- Everything MOVA (vector to tile) can do. -/
theorem moveToTile_eq_next {es : ESize} {a : MovaOperands} {s t : State} :
    moveToTile es a s = .next t ↔ s.pc.toNat + 4 < 2 ^ 64 ∧
      t = { s.writeSlice a.slice.dir a.slice.tile (s.sliceIndex es a.slice) es
              (predicatedWrite (s.readSlice a.slice.dir a.slice.tile (s.sliceIndex es a.slice) es)
                (s.readZ a.z) (s.active a.pg es) es.bits (s.tileDim es) .merging) with pc := s.pc + 4#64 } := by
  unfold moveToTile
  rw [complete_eq_next, writeSlice_pc]

/-- In Streaming SVE mode the elements of a slice are governed by accessible predicate bits. -/
theorem active_eq_governs {s : State} (h : s.pstateSM = true) (pg : Fin 8) {es : ESize} {e : Nat}
    (he : e < s.tileDim es) : s.active pg es e = governs s pg es e := by
  have h1 := tileDim_mul s es
  have h2 : (e + 1) * es.bytes ≤ s.tileDim es * es.bytes := Nat.mul_le_mul_right _ he
  rw [Nat.succ_mul] at h2
  have hb := esize_bytes_pos es
  have hp : s.plBits = s.svlB := by rw [State.plBits, vl_streaming h]; rfl
  unfold State.active governs predBit State.readP
  rw [getLsbD_lowBits, hp, decide_eq_true (show e * es.bytes < s.svlB by omega)]
  exact Bool.true_and _

/-- A vector register read in Streaming SVE mode. -/
theorem byte_readZ {s : State} (h : s.pstateSM = true) (n : Fin 32) {c : Nat} (hc : c < s.svlB) :
    elem (s.readZ n) c 8 = elem s.z[n] c 8 := by
  unfold State.readZ
  rw [State.vlBits, vl_streaming h]
  exact elem_lowBits _ (by have := svlBits_eq s; simp only [State.svlBits] at this; omega)

/-! The five element sizes of a family at once. -/

theorem exec_tileLoad (es : ESize) (a : SliceMemOperands) (s : State) :
    exec (Instr.tileLoad es a) s = checked s.cfg.haveSME .k3 s (tileLoad es a s) := by cases es <;> rfl

theorem exec_tileStore (es : ESize) (a : SliceMemOperands) (s : State) :
    exec (Instr.tileStore es a) s = checked s.cfg.haveSME .k3 s (tileStore es a s) := by cases es <;> rfl

theorem exec_movaToVector (es : ESize) (a : MovaOperands) (s : State) :
    exec (Instr.movaToVector es a) s = checked s.cfg.haveSME .k3 s (moveToVector es a s) := by cases es <;> rfl

theorem exec_movaToTile (es : ESize) (a : MovaOperands) (s : State) :
    exec (Instr.movaToTile es a) s = checked s.cfg.haveSME .k3 s (moveToTile es a s) := by cases es <;> rfl

/-- Every instruction is one of the fourteen single forms or of the four families of five sizes. -/
theorem instr_cases {P : Instr → Prop} (ldrArray : ∀ a, P (.ldrArray a)) (strArray : ∀ a, P (.strArray a))
    (zeroTiles : ∀ m, P (.zeroTiles m)) (ldrTable : ∀ r, P (.ldrTable r)) (strTable : ∀ r, P (.strTable r))
    (zeroTable : P .zeroTable) (smstartSM : P .smstartSM) (smstopSM : P .smstopSM) (smstartZA : P .smstartZA)
    (smstopZA : P .smstopZA) (smstart : P .smstart) (smstop : P .smstop) (msrSVCR : ∀ r, P (.msrSVCR r))
    (mrsSVCR : ∀ r, P (.mrsSVCR r)) (load : ∀ es a, P (Instr.tileLoad es a)) (store : ∀ es a, P (Instr.tileStore es a))
    (toVector : ∀ es a, P (Instr.movaToVector es a)) (toTile : ∀ es a, P (Instr.movaToTile es a)) (i : Instr) :
    P i := by
  cases i with
  | ldrArray a => exact ldrArray a
  | strArray a => exact strArray a
  | zeroTiles m => exact zeroTiles m
  | ldrTable r => exact ldrTable r
  | strTable r => exact strTable r
  | zeroTable => exact zeroTable
  | smstartSM => exact smstartSM
  | smstopSM => exact smstopSM
  | smstartZA => exact smstartZA
  | smstopZA => exact smstopZA
  | smstart => exact smstart
  | smstop => exact smstop
  | msrSVCR r => exact msrSVCR r
  | mrsSVCR r => exact mrsSVCR r
  | ld1b a => exact load .b a
  | ld1h a => exact load .h a
  | ld1w a => exact load .s a
  | ld1d a => exact load .d a
  | ld1q a => exact load .q a
  | st1b a => exact store .b a
  | st1h a => exact store .h a
  | st1w a => exact store .s a
  | st1d a => exact store .d a
  | st1q a => exact store .q a
  | movaT2VB a => exact toVector .b a
  | movaT2VH a => exact toVector .h a
  | movaT2VS a => exact toVector .s a
  | movaT2VD a => exact toVector .d a
  | movaT2VQ a => exact toVector .q a
  | movaV2TB a => exact toTile .b a
  | movaV2TH a => exact toTile .h a
  | movaV2TS a => exact toTile .s a
  | movaV2TD a => exact toTile .d a
  | movaV2TQ a => exact toTile .q a

end Sys2Proof.Laws
end

