-- ==== Sys2Proof/Laws/LookupTable.lean ====
section
/-! SUPPORT. The writes of a register list and the ZT0 lookup: what they leave in every field and in every vector
register (46_zt0.md R274). -/

namespace Sys2Proof.Laws

open Sys2Proof.Machine

/-- A register list written: nothing but the vector registers changes. -/
theorem writeZList_rest (ds : List (Fin 32)) (s : State) (r : Nat) (f : Nat → VecReg) :
    s.writeZList ds r f = { s with z := (s.writeZList ds r f).z } := by
  induction ds generalizing s r with
  | nil => rfl
  | cons d ds ih => rw [State.writeZList, ih]; rfl

/-- VL is that of the state before the writes. -/
theorem writeZ_vlBits (s : State) (d : Fin 32) (v : VecReg) : (s.writeZ d v).vlBits = s.vlBits := rfl

/-- A vector register after one write. -/
theorem writeZ_getElem (s : State) (d m : Fin 32) (v : VecReg) :
    (s.writeZ d v).z[m] = if d = m then mergeLow s.vlBits s.z[m] v else s.z[m] := by
  by_cases h : d = m
  · subst h; simp [State.writeZ]
  · simp [State.writeZ, Fin.val_ne_of_ne h, h]

/-- A register that is not in the list keeps its value. -/
theorem writeZList_of_not_mem {ds : List (Fin 32)} {m : Fin 32} (hm : m ∉ ds) (s : State) (r : Nat)
    (f : Nat → VecReg) : (s.writeZList ds r f).z[m] = s.z[m] := by
  induction ds generalizing s r with
  | nil => rfl
  | cons d ds ih =>
    rw [State.writeZList, ih (fun h => hm (List.mem_cons_of_mem _ h)), writeZ_getElem,
      if_neg (fun h => hm (by simp [h]))]

/-- Register number j of a list of distinct registers takes value number r + j in its accessible bits. -/
theorem writeZList_getElem {ds : List (Fin 32)} (hd : ds.Nodup) (s : State) (r : Nat) (f : Nat → VecReg) {j : Nat}
    {d : Fin 32} (hj : ds[j]? = some d) : (s.writeZList ds r f).z[d] = mergeLow s.vlBits s.z[d] (f (r + j)) := by
  induction ds generalizing s r j with
  | nil => simp at hj
  | cons c ds ih =>
    rw [List.nodup_cons] at hd
    rw [State.writeZList]
    cases j with
    | zero =>
      obtain rfl : c = d := by simpa using hj
      rw [writeZList_of_not_mem hd.1, writeZ_getElem, if_pos rfl]
      rfl
    | succ j =>
      have hj' : ds[j]? = some d := by simpa using hj
      have hne : c ≠ d := fun h => hd.1 (h ▸ List.mem_of_getElem? hj')
      rw [ih hd.2 _ _ hj', writeZ_vlBits, writeZ_getElem, if_neg hne, show r + 1 + j = r + (j + 1) by omega]

end Sys2Proof.Laws
end

