-- ==== Sys2Proof/Laws/PerInstr.lean ====
section
/-! SUPPORT. Statements about every instruction, one lemma an instruction. -/

namespace Sys2Proof.Laws

/-- The word of an instruction has the fixed bits of its row and no operand bit among them: it matches the row
(30_encoding.md R81). -/
def MatchesRow.Statement (i : Instr) : Prop := encodeWord i &&& i.opc.mask = i.opc.value

/-- Three disjoint conditions on the fields of an operand group. -/
theorem or_and_eq_zero {u v mask : IWord} (hu : u &&& mask = 0#32) (hv : v &&& mask = 0#32) :
    (u ||| v) &&& mask = 0#32 := by
  rw [and_or_distrib, hu, hv]; rfl

theorem sliceFields_and (es : ESize) (lo : Nat) (r : SliceRef) {mask : IWord}
    (h1 : placeField (BitVec.allOnes 1) 15 &&& mask = 0#32) (h2 : placeField (BitVec.allOnes 2) 13 &&& mask = 0#32)
    (h3 : placeField (BitVec.allOnes 4) lo &&& mask = 0#32) : r.fields es lo &&& mask = 0#32 :=
  or_and_eq_zero (or_and_eq_zero (placeField_and _ _ h1) (placeField_and _ _ h2)) (placeField_and _ _ h3)

theorem arrayFields_and (a : ArrayOperands) : a.fields &&& 0xFFFF9C10#32 = 0#32 :=
  or_and_eq_zero (or_and_eq_zero (placeField_and _ _ (by decide)) (placeField_and _ _ (by decide)))
    (placeField_and _ _ (by decide))

theorem sliceMemFields_and (es : ESize) (a : SliceMemOperands) : a.fields es &&& 0xFFE00010#32 = 0#32 :=
  or_and_eq_zero (or_and_eq_zero (or_and_eq_zero (sliceFields_and es 0 _ (by decide) (by decide) (by decide))
    (placeField_and _ _ (by decide))) (placeField_and _ _ (by decide))) (placeField_and _ _ (by decide))

theorem movaT2VFields_and (es : ESize) (a : MovaOperands) : a.fieldsT2V es &&& 0xFFFF0200#32 = 0#32 :=
  or_and_eq_zero (or_and_eq_zero (sliceFields_and es 5 _ (by decide) (by decide) (by decide))
    (placeField_and _ _ (by decide))) (placeField_and _ _ (by decide))

theorem movaV2TFields_and (es : ESize) (a : MovaOperands) : a.fieldsV2T es &&& 0xFFFF0010#32 = 0#32 :=
  or_and_eq_zero (or_and_eq_zero (sliceFields_and es 0 _ (by decide) (by decide) (by decide))
    (placeField_and _ _ (by decide))) (placeField_and _ _ (by decide))

theorem MatchesRow.ldrArray (a : ArrayOperands) : MatchesRow.Statement (.ldrArray a) := encodeWord_and_mask (arrayFields_and a)
theorem MatchesRow.strArray (a : ArrayOperands) : MatchesRow.Statement (.strArray a) := encodeWord_and_mask (arrayFields_and a)
theorem MatchesRow.zeroTiles (m : BitVec 8) : MatchesRow.Statement (.zeroTiles m) := 
    encodeWord_and_mask (placeField_and (mask := Opc.mask .zeroTiles) _ _ (by decide))
theorem MatchesRow.ldrTable (r : XnSP) : MatchesRow.Statement (.ldrTable r) := 
    encodeWord_and_mask (placeField_and (mask := Opc.mask .ldrTable) _ _ (by decide))
theorem MatchesRow.strTable (r : XnSP) : MatchesRow.Statement (.strTable r) := 
    encodeWord_and_mask (placeField_and (mask := Opc.mask .strTable) _ _ (by decide))
theorem MatchesRow.zeroTable : MatchesRow.Statement .zeroTable := by unfold MatchesRow.Statement; decide
theorem MatchesRow.smstartSM : MatchesRow.Statement .smstartSM := by unfold MatchesRow.Statement; decide
theorem MatchesRow.smstopSM : MatchesRow.Statement .smstopSM := by unfold MatchesRow.Statement; decide
theorem MatchesRow.smstartZA : MatchesRow.Statement .smstartZA := by unfold MatchesRow.Statement; decide
theorem MatchesRow.smstopZA : MatchesRow.Statement .smstopZA := by unfold MatchesRow.Statement; decide
theorem MatchesRow.smstart : MatchesRow.Statement .smstart := by unfold MatchesRow.Statement; decide
theorem MatchesRow.smstop : MatchesRow.Statement .smstop := by unfold MatchesRow.Statement; decide
theorem MatchesRow.msrSVCR (r : XnZR) : MatchesRow.Statement (.msrSVCR r) := 
    encodeWord_and_mask (placeField_and (mask := Opc.mask .msrSVCR) _ _ (by decide))
theorem MatchesRow.mrsSVCR (r : XnZR) : MatchesRow.Statement (.mrsSVCR r) := 
    encodeWord_and_mask (placeField_and (mask := Opc.mask .mrsSVCR) _ _ (by decide))
theorem MatchesRow.ld1b (a : SliceMemOperands) : MatchesRow.Statement (.ld1b a) := encodeWord_and_mask (sliceMemFields_and .b a)
theorem MatchesRow.ld1h (a : SliceMemOperands) : MatchesRow.Statement (.ld1h a) := encodeWord_and_mask (sliceMemFields_and .h a)
theorem MatchesRow.ld1w (a : SliceMemOperands) : MatchesRow.Statement (.ld1w a) := encodeWord_and_mask (sliceMemFields_and .s a)
theorem MatchesRow.ld1d (a : SliceMemOperands) : MatchesRow.Statement (.ld1d a) := encodeWord_and_mask (sliceMemFields_and .d a)
theorem MatchesRow.ld1q (a : SliceMemOperands) : MatchesRow.Statement (.ld1q a) := encodeWord_and_mask (sliceMemFields_and .q a)
theorem MatchesRow.st1b (a : SliceMemOperands) : MatchesRow.Statement (.st1b a) := encodeWord_and_mask (sliceMemFields_and .b a)
theorem MatchesRow.st1h (a : SliceMemOperands) : MatchesRow.Statement (.st1h a) := encodeWord_and_mask (sliceMemFields_and .h a)
theorem MatchesRow.st1w (a : SliceMemOperands) : MatchesRow.Statement (.st1w a) := encodeWord_and_mask (sliceMemFields_and .s a)
theorem MatchesRow.st1d (a : SliceMemOperands) : MatchesRow.Statement (.st1d a) := encodeWord_and_mask (sliceMemFields_and .d a)
theorem MatchesRow.st1q (a : SliceMemOperands) : MatchesRow.Statement (.st1q a) := encodeWord_and_mask (sliceMemFields_and .q a)
theorem MatchesRow.movaT2VB (a : MovaOperands) : MatchesRow.Statement (.movaT2VB a) := encodeWord_and_mask (movaT2VFields_and .b a)
theorem MatchesRow.movaT2VH (a : MovaOperands) : MatchesRow.Statement (.movaT2VH a) := encodeWord_and_mask (movaT2VFields_and .h a)
theorem MatchesRow.movaT2VS (a : MovaOperands) : MatchesRow.Statement (.movaT2VS a) := encodeWord_and_mask (movaT2VFields_and .s a)
theorem MatchesRow.movaT2VD (a : MovaOperands) : MatchesRow.Statement (.movaT2VD a) := encodeWord_and_mask (movaT2VFields_and .d a)
theorem MatchesRow.movaT2VQ (a : MovaOperands) : MatchesRow.Statement (.movaT2VQ a) := encodeWord_and_mask (movaT2VFields_and .q a)
theorem MatchesRow.movaV2TB (a : MovaOperands) : MatchesRow.Statement (.movaV2TB a) := encodeWord_and_mask (movaV2TFields_and .b a)
theorem MatchesRow.movaV2TH (a : MovaOperands) : MatchesRow.Statement (.movaV2TH a) := encodeWord_and_mask (movaV2TFields_and .h a)
theorem MatchesRow.movaV2TS (a : MovaOperands) : MatchesRow.Statement (.movaV2TS a) := encodeWord_and_mask (movaV2TFields_and .s a)
theorem MatchesRow.movaV2TD (a : MovaOperands) : MatchesRow.Statement (.movaV2TD a) := encodeWord_and_mask (movaV2TFields_and .d a)
theorem MatchesRow.movaV2TQ (a : MovaOperands) : MatchesRow.Statement (.movaV2TQ a) := encodeWord_and_mask (movaV2TFields_and .q a)

end Sys2Proof.Laws
end

