-- ==== Sys2Proof/Laws/Step.lean ====
section
/-! SUPPORT. What a step can do, said once: the six kinds of change that the instructions of the table make, and
the proof that every instruction that completes makes one of them and moves pc by 4. -/

namespace Sys2Proof.Laws

open Sys2Proof.Machine Sys2Proof.Safety

/-- The changes an instruction can make, pc apart, each with what was true before it. -/
inductive Change (i : Instr) (s : State) : State → Prop where
  /-- ZA storage is written, for a well-formed instruction in array vectors of the current SVL only: LDR (array
  vector), ZERO (tiles), tile loads, MOVA (vector to tile). -/
  | za (f : Nat → VecReg → VecReg) (hi : writesZA i = true) (hz : s.pstateZA = true) (hf : s.cfg.haveSME = true)
      (hk : i.wf = true → ∀ k v, s.svlB ≤ k → f k v = v) : Change i s (s.mapZA f)
  /-- ZT0 is written: LDR (table), ZERO (table). -/
  | zt0 (v : TableReg) (hi : writesZT0 i = true) (hz : s.pstateZA = true) (hf : s.cfg.haveSME2 = true) :
      Change i s { s with zt0 := v }
  /-- Mapped bytes of memory are written: the stores. -/
  | mem (m : Memory) (hi : storesMemory i = true) (hd : ∀ x, (m.byteAt x).isSome = (s.mem.byteAt x).isSome)
      (hw : s.mem.wf = true → m.wf = true) : Change i s { s with mem := m }
  /-- The accessible bits of a vector register are written: MOVA (tile to vector). -/
  | z (n : Fin 32) (v : VecReg) (hi : ∃ es a, i = Instr.movaToVector es a) (hs : s.pstateSM = true)
      (hf : s.cfg.haveSME = true) (hv : lowBits s.svlBits v = v) : Change i s (s.writeZ n v)
  /-- The mode bits are written: SMSTART, SMSTOP, MSR SVCR. -/
  | mode (sm za : Bool) (hi : changesModes i = true) (hf : s.cfg.haveSME = true) :
      Change i s ((s.setSM sm).setZA za)
  /-- A general-purpose register is written: MRS SVCR. -/
  | x (rt : XnZR) (hi : i = .mrsSVCR rt) : Change i s (s.writeXZ rt s.svcr)

/-- A change leaves pc alone. -/
theorem Change_pc {i : Instr} {s u : State} (h : Change i s u) : u.pc = s.pc := by
  cases h <;> simp

/-- A write of a slice is a change of ZA storage; a slice of a tile lies in the array vectors of the current SVL. -/
theorem writeSlice_eq_mapZA (s : State) (d : SliceDir) (t n : Nat) (es : ESize) (v : VecReg) :
    ∃ f, s.writeSlice d t n es v = s.mapZA f
      ∧ (t < es.bytes → n < s.tileDim es → ∀ k w, s.svlB ≤ k → f k w = w) := by
  cases d
  · refine ⟨fun i old => if i = hSliceVector t n es then v else old, by
      simp only [State.writeSlice, State.writeHSlice, State.writeZAVec], fun ht hn k w hk => ?_⟩
    have := hSliceVector_lt s ht hn
    exact if_neg (by omega)
  · refine ⟨fun k old =>
      if t ≤ k ∧ (k - t) % es.bytes = 0 ∧ (k - t) / es.bytes < s.tileDim es then
        setElem old n es.bits (elem v ((k - t) / es.bytes) es.bits)
      else old, by simp only [State.writeSlice, State.writeVSlice], fun ht hn k w hk => ?_⟩
    refine if_neg fun h => ?_
    have h1 := hSliceVector_lt s ht h.2.2
    have h2 := Nat.div_add_mod (k - t) es.bytes
    rw [h.2.1] at h2
    unfold hSliceVector at h1
    omega

/-- The tile number and the slice number of a well-formed slice operand. -/
theorem slice_in_range {es : ESize} {r : SliceRef} (h : r.wf es = true) (s : State) :
    r.tile < es.bytes ∧ s.sliceIndex es r < s.tileDim es := by
  simp only [SliceRef.wf, SliceRef.tileOk, Bool.and_eq_true, decide_eq_true_eq] at h
  exact ⟨h.1, selectSlice_lt s r.ws r.offs es⟩

/-- Bytes written where every byte is mapped leave the set of mapped addresses as it is. -/
theorem isSome_writeBytes {m : Memory} {a : Nat} {bs : List Byte} (h : Mapped m a bs.length) (x : Nat) :
    ((m.writeBytes a bs).byteAt x).isSome = (m.byteAt x).isSome := by
  rw [byteAt_writeBytes]
  split
  · next hx =>
    have := h.2 (x - a) (by omega)
    rw [show a + (x - a) = x by omega] at this
    rw [this, List.getElem?_eq_getElem (by omega)]; rfl
  · rfl

/-- The stores of a slice leave the set of mapped addresses as it is. -/
theorem isSome_storeElems {m : Memory} {start b : Nat} (hb : 0 < b) {active : Nat → Bool} (f : Nat → BitVec (8 * b))
    {n : Nat} (h : ∀ e < n, active e = true → Mapped m (start + e * b) b) (x : Nat) :
    ((storeElems m start b active f n).byteAt x).isSome = (m.byteAt x).isSome := by
  rw [byteAt_storeElems m start hb]
  split
  · next hx =>
    have he : (x - start) / b < n := by rw [Nat.div_lt_iff_lt_mul hb]; omega
    have h1 := (h _ he hx.2.2).2 ((x - start) % b) (Nat.mod_lt _ hb)
    have h2 := Nat.div_add_mod (x - start) b
    rw [Nat.mul_comm] at h2
    rw [show start + (x - start) / b * b + (x - start) % b = x by omega] at h1
    rw [h1]; rfl
  · rfl

/-- The legality of the classes of the table, read backwards. -/
theorem k2_legal {sm za fa : Bool} (h : illegalReason .k2 sm za fa = none) : za = true := by
  cases za <;> simp_all [illegalReason]

theorem k3_legal {sm za fa : Bool} (h : illegalReason .k3 sm za fa = none) : sm = true ∧ za = true := by
  cases sm <;> cases za <;> simp_all [illegalReason]

/-- A completed change, put together. -/
theorem change_complete {i : Instr} {s u t : State} (hc : Change i s u) (h : complete u = .next t) :
    ∃ u, Change i s u ∧ s.pc.toNat + 4 < 2 ^ 64 ∧ t = { u with pc := s.pc + 4#64 } := by
  obtain ⟨h1, h2⟩ := complete_eq_next.mp h
  rw [Change_pc hc] at h1 h2
  exact ⟨u, hc, h1, h2⟩

/-- A completed mode change. -/
theorem mode_next {i : Instr} {s t : State} (sm za : Bool) (hi : changesModes i = true)
    (h : checked s.cfg.haveSME .k6 s (complete ((s.setSM sm).setZA za)) = .next t) :
    ∃ u, Change i s u ∧ s.pc.toNat + 4 < 2 ^ 64 ∧ t = { u with pc := s.pc + 4#64 } := by
  obtain ⟨hf, -, -, he⟩ := checked_eq_next.mp h
  exact change_complete (.mode sm za hi hf) he

/-- A store of bytes is a change of memory. -/
theorem store_next {i : Instr} {s t : State} {a : Nat} {bs : List Byte} (hi : storesMemory i = true)
    (hm : Mapped s.mem a bs.length) (hp : s.pc.toNat + 4 < 2 ^ 64)
    (ht : t = { s with mem := s.mem.writeBytes a bs, pc := s.pc + 4#64 }) :
    ∃ u, Change i s u ∧ s.pc.toNat + 4 < 2 ^ 64 ∧ t = { u with pc := s.pc + 4#64 } :=
  ⟨_, .mem (s.mem.writeBytes a bs) hi (isSome_writeBytes hm) (fun hw => wf_writeBytes bs hw hm.1), hp, ht⟩

/-- Every instruction that completes makes one change and moves pc by 4. -/
theorem exec_next {i : Instr} {s t : State} (h : exec i s = .next t) :
    ∃ u, Change i s u ∧ s.pc.toNat + 4 < 2 ^ 64 ∧ t = { u with pc := s.pc + 4#64 } := by
  have smOnly : ∀ v, (s.setSM v).setZA s.pstateZA = s.setSM v := fun v => setZA_same (by simp)
  have zaOnly : ∀ v, (s.setSM s.pstateSM).setZA v = s.setZA v := fun v => by rw [setSM_same rfl]
  revert h
  induction i using instr_cases with
  | ldrArray a =>
    intro h
    obtain ⟨hf, -, hl, he⟩ := checked_eq_next.mp (show checked s.cfg.haveSME .k2 s (loadArrayVector a s) = _ from h)
    obtain ⟨-, -, hp, ht⟩ := loadArrayVector_eq_next.mp he
    refine ⟨_, .za _ rfl (k2_legal hl) hf (fun _ k v hk => if_neg ?_), hp, ht⟩
    have := selectVector_lt s a.wv a.offs.val
    omega
  | strArray a =>
    intro h
    obtain ⟨-, -, -, he⟩ := checked_eq_next.mp (show checked s.cfg.haveSME .k2 s (storeArrayVector a s) = _ from h)
    obtain ⟨-, -, hm, hp, ht⟩ := storeArrayVector_eq_next.mp he
    exact store_next rfl (by rwa [leBytes_length]) hp ht
  | zeroTiles m =>
    intro h
    obtain ⟨hf, -, hl, he⟩ := checked_eq_next.mp (show checked s.cfg.haveSME .k2 s (zeroTilesEffect m s) = _ from h)
    obtain ⟨hp, ht⟩ := zeroTilesEffect_eq_next.mp he
    exact ⟨_, .za _ rfl (k2_legal hl) hf (fun _ k v hk => by simp [Nat.not_lt.mpr hk]), hp, ht⟩
  | ldrTable r =>
    intro h
    obtain ⟨hf, -, hl, he⟩ := checked_eq_next.mp (show checked s.cfg.haveSME2 .k2 s (loadTable r s) = _ from h)
    obtain ⟨-, -, hp, ht⟩ := loadTable_eq_next.mp he
    exact ⟨_, .zt0 (buildElems 512 8 64 (fun k => s.mem.byteD ((s.base r).toNat + k))) rfl (k2_legal hl) hf, hp, ht⟩
  | strTable r =>
    intro h
    obtain ⟨-, -, -, he⟩ := checked_eq_next.mp (show checked s.cfg.haveSME2 .k2 s (storeTable r s) = _ from h)
    obtain ⟨-, -, hm, hp, ht⟩ := storeTable_eq_next.mp he
    exact store_next rfl (by rwa [leBytes_length]) hp ht
  | zeroTable =>
    intro h
    obtain ⟨hf, -, hl, he⟩ := checked_eq_next.mp (show checked s.cfg.haveSME2 .k2 s (complete _) = _ from h)
    exact change_complete (.zt0 0#512 rfl (k2_legal hl) hf) he
  | smstartSM => intro h; exact mode_next true s.pstateZA rfl (by rw [smOnly]; exact h)
  | smstopSM => intro h; exact mode_next false s.pstateZA rfl (by rw [smOnly]; exact h)
  | smstartZA => intro h; exact mode_next s.pstateSM true rfl (by rw [zaOnly]; exact h)
  | smstopZA => intro h; exact mode_next s.pstateSM false rfl (by rw [zaOnly]; exact h)
  | smstart => intro h; exact mode_next true true rfl h
  | smstop => intro h; exact mode_next false false rfl h
  | msrSVCR r => intro h; exact mode_next _ _ rfl h
  | mrsSVCR r =>
    intro h
    obtain ⟨-, -, -, he⟩ := checked_eq_next.mp (show checked s.cfg.haveSME .k6 s (complete _) = _ from h)
    exact change_complete (.x r rfl) he
  | load es a =>
    intro h
    rw [exec_tileLoad] at h
    obtain ⟨hf, -, hl, he⟩ := checked_eq_next.mp h
    obtain ⟨-, -, hp, ht⟩ := tileLoad_eq_next.mp he
    obtain ⟨f, hw, hr⟩ := writeSlice_eq_mapZA s a.slice.dir a.slice.tile (s.sliceIndex es a.slice) es (loadedSlice es a s)
    rw [hw] at ht
    exact ⟨_, .za f (by cases es <;> rfl) (k3_legal hl).2 hf (fun hwf => by
      have h := slice_in_range (show a.slice.wf es = true by cases es <;> exact hwf) s
      exact hr h.1 h.2), hp, ht⟩
  | store es a =>
    intro h
    rw [exec_tileStore] at h
    obtain ⟨-, -, -, he⟩ := checked_eq_next.mp h
    obtain ⟨-, -, hm, hp, ht⟩ := tileStore_eq_next.mp he
    refine ⟨_, .mem (s.memAfterTileStore es a) (by cases es <;> rfl) ?_ ?_, hp, ht⟩
    · exact isSome_storeElems (esize_bytes_pos es) _ hm
    · intro hw
      exact wf_storeElems _ hw ((elemsAdmitted_iff _ _ _ _ _).mpr
        (fun e he ha => (admits_iff_mapped _ _ _).mpr (hm e he ha)))
  | toVector es a =>
    intro h
    rw [exec_movaToVector] at h
    obtain ⟨hf, -, hl, he⟩ := checked_eq_next.mp h
    obtain ⟨hp, ht⟩ := moveToVector_eq_next.mp he
    exact ⟨_, .z _ _ ⟨es, a, rfl⟩ (k3_legal hl).1 hf (lowBits_predicatedWrite _ _ _ s es _), hp, ht⟩
  | toTile es a =>
    intro h
    rw [exec_movaToTile] at h
    obtain ⟨hf, -, hl, he⟩ := checked_eq_next.mp h
    obtain ⟨hp, ht⟩ := moveToTile_eq_next.mp he
    obtain ⟨f, hw, hr⟩ := writeSlice_eq_mapZA s a.slice.dir a.slice.tile (s.sliceIndex es a.slice) es
      (predicatedWrite (s.readSlice a.slice.dir a.slice.tile (s.sliceIndex es a.slice) es)
        (s.readZ a.z) (s.active a.pg es) es.bits (s.tileDim es) .merging)
    rw [hw] at ht
    exact ⟨_, .za f (by cases es <;> rfl) (k3_legal hl).2 hf (fun hwf => by
      have h := slice_in_range (show a.slice.wf es = true by cases es <;> exact hwf) s
      exact hr h.1 h.2), hp, ht⟩

/-- A step that answers a next state ran an instruction. -/
theorem step_next {s t : State} (h : step s = .next t) : s.pc.toNat % 4 = 0 ∧ ∃ i, exec i s = .next t := by
  unfold step at h
  cases hf : s.fetch with
  | none => rw [hf] at h; cases h
  | some w =>
    rw [hf] at h
    have ha : s.pc.toNat % 4 = 0 := by
      by_contra hn
      unfold State.fetch at hf
      rw [if_pos hn] at hf; cases hf
    cases hd : decodeWord w with
    | ok i => simp only [hd] at h; exact ⟨ha, i, h⟩
    | error e => simp only [hd] at h; cases h

end Sys2Proof.Laws
end

