-- ==== Sys2Proof/Machine/Disassembly.lean ====
section
/-! DEFINITION. The preferred disassembly of operands (30_encoding.md R86, R90; 44_za_storage_and_tiles.md R193,
R205; 45_multi_vector_operands.md R237, R238, R245, R257, R261, R265, R266). Notation only: nothing the step
does reads it. -/

namespace Sys2Proof.Machine

/-- The qualifier letter of an element size (30_encoding.md R86). -/
def sizeLetter : ESize → String
  | .b => "B"
  | .h => "H"
  | .s => "S"
  | .d => "D"
  | .q => "Q"

/-- The suffix of a slice direction (44_za_storage_and_tiles.md R198). -/
def dirLetter : SliceDir → String
  | .horizontal => "H"
  | .vertical => "V"

/-- The name of a 32-bit register. -/
def wName (n : Nat) : String := "W" ++ toString n

/-- A register list in braces, the given parts separated by the given text. -/
def braced (sep : String) (parts : List String) : String :=
  String.singleton (Char.ofNat 123) ++ " " ++ sep.intercalate parts ++ " " ++ String.singleton (Char.ofNat 125)

/-- `ZA[Wv, offs]` (44_za_storage_and_tiles.md R193). -/
def showArrayVector (wv offs : Nat) : String := "ZA[" ++ wName wv ++ ", " ++ toString offs ++ "]"

/-- `ZAtH.T[Ws, offs]`, `ZAtV.T[Ws, offs]` (44_za_storage_and_tiles.md R205). -/
def showSlice (es : ESize) (dir : SliceDir) (t ws offs : Nat) : String :=
  "ZA" ++ toString t ++ dirLetter dir ++ "." ++ sizeLetter es ++ "[" ++ wName ws ++ ", " ++ toString offs ++ "]"

/-- `Zn.T`. -/
def showZ (es : ESize) (n : Fin 32) : String := "Z" ++ toString n.val ++ "." ++ sizeLetter es

/-- Consecutive Z multi-vector operand, dash-separated range: first and last register
(45_multi_vector_operands.md R237). -/
def showZRange (es : ESize) (rs : List (Fin 32)) : String :=
  braced "-" ((rs.head?.map (showZ es)).toList ++ (rs.getLast?.map (showZ es)).toList)

/-- Comma-separated list: preferred for strided, alternative for consecutive operands
(45_multi_vector_operands.md R237, R238). -/
def showZList (es : ESize) (rs : List (Fin 32)) : String := braced ", " (rs.map (showZ es))

/-- An offset range `offs1:offsN` of n offsets; a single offset for n = 1. -/
def showOffsets (offs n : Nat) : String :=
  if n = 1 then toString offs else toString offs ++ ":" ++ toString (offs + (n - 1))

/-- `ZAtH.T[Ws, offs1:offs2]`, `ZAtH.T[Ws, offs1:offs4]` and the vertical forms
(45_multi_vector_operands.md R245). -/
def showMultiSlice (es : ESize) (dir : SliceDir) (t ws offs : Nat) (k : GroupNum) : String :=
  "ZA" ++ toString t ++ dirLetter dir ++ "." ++ sizeLetter es ++ "[" ++ wName ws ++ ", "
    ++ showOffsets offs k.val ++ "]"

/-- The symbol of the number of vector groups (45_multi_vector_operands.md R266). -/
def groupSymbol : GroupNum → String
  | .one => ""
  | .two => ", VGx2"
  | .four => ", VGx4"

/-- `ZA.T[Wv, offs, VGx2]` and its siblings, T one of B, H, S or D (45_multi_vector_operands.md R257, R261, R265). -/
def showMultiVector (es : GroupESize) (wv offs : Nat) (ng gs : GroupNum) : String :=
  "ZA." ++ sizeLetter es.toESize ++ "[" ++ wName wv ++ ", " ++ showOffsets offs gs.val ++ groupSymbol ng ++ "]"

end Sys2Proof.Machine
end

