-- ==== Sys2Proof/Tests/Slice0.lean ====
section
/-! SUPPORT. Tests. Every expected value is one of 95_test_vectors.md (the vector's name stands in the test's
docstring) or a hand calculation from the rule named; then, for every statement of the certificate with
hypotheses, a state and operands that meet them. -/

namespace Sys2Proof.Tests

set_option maxRecDepth 100000
set_option Elab.async false

open Sys2Proof.Machine Sys2Proof.Safety

/-! Small states. -/

/-- The state after reset with chosen mode bits and a chosen SVL of the default instance (128 or 256). -/
def at' (l : VecLen) (sm za : Bool) : State :=
  { State.reset with pstateSM := sm, pstateZA := za, cfg := { Params.default with selectSVL := .table [] l } }

/-- Both mode bits 1. -/
def on (l : VecLen) : State := at' l true true

/-- The state after the instruction word at pc has run, if it completes. -/
def run (w : Nat) (s : State) : Option State := nextState (step (s.withFetchWord 32 w))

/-- The fault or the refusal of the instruction word at pc, if it stops. -/
def stop (w : Nat) (s : State) : Option (Fault ⊕ Refusal) :=
  match step (s.withFetchWord 32 w) with
  | .next _ => none
  | .fault f => some (.inl f)
  | .refused r => some (.inr r)

/-- n bytes of memory from an address. -/
def memB (a n : Nat) (f : Nat → Nat) : Memory := (List.range n).map fun k => (a + k, BitVec.ofNat 8 (f k))

/-- ZA storage with 32 rows of 32 bytes by row and column. -/
def zaFill (f : Nat → Nat → Nat) : Vector VecReg 256 :=
  Vector.ofFn fun r => buildElems 2048 8 (if r.val < 32 then 32 else 0) (fun c => BitVec.ofNat 8 (f r.val c))

/-- General-purpose registers, zero but for a list. -/
def xs (l : List (Fin 31 × DWord)) : Vector DWord 31 := l.foldl (fun v p => v.set p.1 p.2) State.reset.x

/-- Predicate registers, zero but for one. -/
def p1 (n : Fin 16) (v : PredReg) : Vector PredReg 16 := State.reset.p.set n v

/-- Vector registers, zero but for one. -/
def z1 (n : Fin 32) (v : VecReg) : Vector VecReg 32 := State.reset.z.set n v

/-- The bytes of a memory, without their addresses. -/
def bytesOf (m : Memory) : List Nat := m.map (fun c => c.2.toNat)

/-! Well-formedness: each check refuses an ill-formed term, and lets the last good value pass. -/

/-- There are 2 tiles of halfwords and 8 offsets (44_za_storage_and_tiles.md R200, R205). -/
theorem test_wf_halfword :
    Instr.wf (.ld1h { slice := { dir := .horizontal, tile := 1, ws := .w12, offs := 7 }, pg := 0, base := .sp, index := .zr }) = true
    ∧ Instr.wf (.ld1h { slice := { dir := .horizontal, tile := 2, ws := .w12, offs := 7 }, pg := 0, base := .sp, index := .zr }) = false
    ∧ Instr.wf (.ld1h { slice := { dir := .horizontal, tile := 1, ws := .w12, offs := 8 }, pg := 0, base := .sp, index := .zr }) = false := by
  decide

/-- tileOk refuses a tile number past the last tile of each size (44_za_storage_and_tiles.md R200). -/
theorem test_wf_tile_refused :
    [ESize.b, .h, .s, .d, .q].map (fun es => SliceRef.tileOk es { dir := .vertical, tile := es.bytes, ws := .w15, offs := 0 })
      = [false, false, false, false, false] := by decide

/-- offsOk refuses an offset past the last one of each size: 16, 8, 4, 2, 1 (44_za_storage_and_tiles.md R205). -/
theorem test_wf_offs_refused :
    [(ESize.b, 16), (.h, 8), (.s, 4), (.d, 2), (.q, 1)].map
        (fun c => SliceRef.offsOk c.1 { dir := .vertical, tile := 0, ws := .w15, offs := c.2 })
      = [false, false, false, false, false] := by decide

/-! Decoding: words of 95_test_vectors.md section 3, at least one for every row, with the fields given there. -/

theorem test_decode_ldr_array : decodeTableWord 32 0xE1000023 =
    some (.ldrArray { wv := .w12, offs := 3, base := .x 1 }) := by decide
theorem test_decode_str_array : decodeTableWord 32 0xE12023E0 =
    some (.strArray { wv := .w13, offs := 0, base := .sp }) := by decide
theorem test_decode_zero_tiles : decodeTableWord 32 0xC00800FF = some (.zeroTiles 0xFF#8) := by decide
theorem test_decode_ldr_table : decodeTableWord 32 0xE11F8040 = some (.ldrTable (.x 2)) := by decide
theorem test_decode_str_table : decodeTableWord 32 0xE13F8000 = some (.strTable (.x 0)) := by decide
theorem test_decode_zero_table : decodeTableWord 32 0xC0480001 = some .zeroTable := by decide
theorem test_decode_mode_changes :
    [0xD503437F, 0xD503427F, 0xD503457F, 0xD503447F, 0xD503477F, 0xD503467F].map (decodeTableWord 32) =
      [some .smstartSM, some .smstopSM, some .smstartZA, some .smstopZA, some .smstart, some .smstop] := by decide
theorem test_decode_msr : decodeTableWord 32 0xD51B4243 = some (.msrSVCR (.x 3)) := by decide
theorem test_decode_mrs : decodeTableWord 32 0xD53B4245 = some (.mrsSVCR (.x 5)) := by decide
theorem test_decode_ld1b : decodeTableWord 32 0xE001000F = some (.ld1b
    { slice := { dir := .horizontal, tile := 0, ws := .w12, offs := 15 }, pg := 0, base := .x 0, index := .x 1 }) := by decide
theorem test_decode_ld1h : decodeTableWord 32 0xE044C86F = some (.ld1h
    { slice := { dir := .vertical, tile := 1, ws := .w14, offs := 7 }, pg := 2, base := .x 3, index := .x 4 }) := by decide
theorem test_decode_ld1w : decodeTableWord 32 0xE085AC89 = some (.ld1w
    { slice := { dir := .vertical, tile := 2, ws := .w13, offs := 1 }, pg := 3, base := .x 4, index := .x 5 }) := by decide
theorem test_decode_ld1d : decodeTableWord 32 0xE0C97FEF = some (.ld1d
    { slice := { dir := .horizontal, tile := 7, ws := .w15, offs := 1 }, pg := 7, base := .sp, index := .x 9 }) := by decide
theorem test_decode_ld1q : decodeTableWord 32 0xE1DF844F = some (.ld1q
    { slice := { dir := .vertical, tile := 15, ws := .w12, offs := 0 }, pg := 1, base := .x 2, index := .zr }) := by decide
theorem test_decode_st1b : decodeTableWord 32 0xE03F8000 = some (.st1b
    { slice := { dir := .vertical, tile := 0, ws := .w12, offs := 0 }, pg := 0, base := .x 0, index := .zr }) := by decide
theorem test_decode_st1h : decodeTableWord 32 0xE0620421 = some (.st1h
    { slice := { dir := .horizontal, tile := 0, ws := .w12, offs := 1 }, pg := 1, base := .x 1, index := .x 2 }) := by decide
theorem test_decode_st1w : decodeTableWord 32 0xE0A1000C = some (.st1w
    { slice := { dir := .horizontal, tile := 3, ws := .w12, offs := 0 }, pg := 0, base := .x 0, index := .x 1 }) := by decide
theorem test_decode_st1d : decodeTableWord 32 0xE0FFA8C8 = some (.st1d
    { slice := { dir := .vertical, tile := 4, ws := .w13, offs := 0 }, pg := 2, base := .x 6, index := .zr }) := by decide
theorem test_decode_st1q : decodeTableWord 32 0xE1E854E3 = some (.st1q
    { slice := { dir := .horizontal, tile := 3, ws := .w14, offs := 0 }, pg := 5, base := .x 7, index := .x 8 }) := by decide
theorem test_decode_mova_t2v_b : decodeTableWord 32 0xC0028000 = some (.movaT2VB
    { slice := { dir := .vertical, tile := 0, ws := .w12, offs := 0 }, pg := 0, z := 0 }) := by decide
theorem test_decode_mova_t2v_s : decodeTableWord 32 0xC0820527 = some (.movaT2VS
    { slice := { dir := .horizontal, tile := 2, ws := .w12, offs := 1 }, pg := 1, z := 7 }) := by decide
theorem test_decode_mova_t2v_q : decodeTableWord 32 0xC0C300A1 = some (.movaT2VQ
    { slice := { dir := .horizontal, tile := 5, ws := .w12, offs := 0 }, pg := 0, z := 1 }) := by decide
theorem test_decode_mova_v2t_b : decodeTableWord 32 0xC0000000 = some (.movaV2TB
    { slice := { dir := .horizontal, tile := 0, ws := .w12, offs := 0 }, pg := 0, z := 0 }) := by decide
theorem test_decode_mova_v2t_d : decodeTableWord 32 0xC0C0E069 = some (.movaV2TD
    { slice := { dir := .vertical, tile := 4, ws := .w15, offs := 1 }, pg := 0, z := 3 }) := by decide
theorem test_decode_mova_v2t_h : decodeTableWord 32 0xC0400D2F = some (.movaV2TH
    { slice := { dir := .horizontal, tile := 1, ws := .w12, offs := 7 }, pg := 3, z := 9 }) := by decide

/-- The remaining MOVA sizes, each word put together from the encoding lines of 47_named_instructions.md R315,
R316: `11000000 size 00001 Q V Rs Pg 0 ti Zd` with ti from bit 5, and `11000000 size 00000 Q V Rs Pg Zn 0 ti`. -/
theorem test_decode_mova_rest :
    decodeTableWord 32 0b11000000_01_00001_0_1_01_110_0_1011_00010 = some (.movaT2VH
      { slice := { dir := .vertical, tile := 1, ws := .w13, offs := 3 }, pg := 6, z := 2 })
    ∧ decodeTableWord 32 0b11000000_11_00001_0_0_10_001_0_1101_11111 = some (.movaT2VD
      { slice := { dir := .horizontal, tile := 6, ws := .w14, offs := 1 }, pg := 1, z := 31 })
    ∧ decodeTableWord 32 0b11000000_10_00000_0_0_00_001_00111_0_0010 = some (.movaV2TS
      { slice := { dir := .horizontal, tile := 0, ws := .w12, offs := 2 }, pg := 1, z := 7 })
    ∧ decodeTableWord 32 0b11000000_11_00000_1_1_11_101_10000_0_1110 = some (.movaV2TQ
      { slice := { dir := .vertical, tile := 14, ws := .w15, offs := 0 }, pg := 5, z := 16 }) := by decide

/-- The words that 95_test_vectors.md section 3 lists as refused. -/
theorem test_decode_refused :
    [0x00000000, 0xD503201F, 0xD503417F, 0xE1000010, 0xC0830000, 0xC0480000, 0xC0480003, 0xC0090000].map
      (decodeTableWord 32) = [none, none, none, none, none, none, none, none] := by decide

/-- The encoder writes the same words. -/
theorem test_encode_words :
    encodeWord (.ldrArray { wv := .w12, offs := 3, base := .x 1 }) = 0xE1000023#32
    ∧ encodeWord (.ld1h { slice := { dir := .vertical, tile := 1, ws := .w14, offs := 7 }, pg := 2, base := .x 3, index := .x 4 })
      = 0xE044C86F#32
    ∧ encodeWord (.movaV2TD { slice := { dir := .vertical, tile := 4, ws := .w15, offs := 1 }, pg := 0, z := 3 })
      = 0xC0C0E069#32 := by decide

/-! One step of each instruction: the vectors of 95_test_vectors.md section 2.10. -/

/-- I1, and pc advances by 4. -/
theorem test_ldr_array :
    ((run 0xE1000002 { at' .v128 false true with x := xs [(12, 15), (0, 0x1000)], mem := memB 0x1000 64 id }).map
      fun t => (t.zaVec 1, t.pc)) = some (0x2F2E2D2C2B2A29282726252423222120#2048, 4#64) := by decide +kernel

/-- I2: only 32 bits of the select register count, and the immediate scales by SVLB. -/
theorem test_ldr_array_offset :
    ((run 0xE100600F { at' .v256 false true with
        x := xs [(15, 0x000000ABFFFFFFFF), (0, 0x1000)], mem := memB 0x1000 512 (· / 32) }).map
      fun t => (List.range 32).map (fun k => (elem (t.zaVec k) 31 8).toNat)) =
      some ((List.range 32).map (fun k => if k = 14 then 0x0F else 0)) := by decide +kernel

/-- I3 and I4. -/
theorem test_ldr_array_stops :
    stop 0xE1000000 { on .v128 with x := xs [(0, 0x1008)] } = some (.inr .misalignedBase)
    ∧ stop 0xE1000000 { on .v128 with x := xs [(0, 0x1000)], mem := memB 0x1000 8 id }
      = some (.inl (.outsideLaunchMemory 0#64)) := by decide +kernel

/-- I5. -/
theorem test_str_array :
    ((run 0xE12023E0 { on .v128 with
        sp := 0x8000, za := State.reset.za.set 0 0xFFEEDDCCBBAA99887766554433221100, mem := memB 0x8000 16 (fun _ => 0) }).map
      fun t => t.mem) = some (memB 0x8000 16 (fun k => 0x11 * k)) := by decide +kernel

/-- I6 at both lengths. -/
theorem test_zero_tiles :
    ((run 0xC0080011 { on .v128 with za := zaFill (fun _ _ => 0xFF) }).map
      fun t => (List.range 16).map (fun k => t.zaVec k == 0#2048)) = some ((List.range 16).map (fun k => k % 4 == 0)) := by
  decide +kernel

/-- I7 at SVL = 256. -/
theorem test_zero_tiles_two :
    ((run 0xC0080081 { on .v256 with za := zaFill (fun _ _ => 0xFF) }).map
      fun t => (List.range 32).filter (fun k => t.zaVec k == 0#2048)) = some [0, 7, 8, 15, 16, 23, 24, 31] := by
  decide +kernel

/-- I10. -/
theorem test_ldr_table :
    ((run 0xE11F8040 { on .v128 with
        x := xs [(2, 0x2000)], mem := memB 0x2000 64 (fun k => [0x78, 0x56, 0x34, 0x12].getD k k) }).map
      fun t => (tableEntry t.zt0 0, tableEntry t.zt0 15)) = some (0x12345678#32, 0x3F3E3D3C#32) := by decide +kernel

/-- I11, with a table that is not all zero. -/
theorem test_str_table :
    ((run 0xE13F8000 { on .v128 with x := xs [(0, 0x3000)], zt0 := 5#512, mem := memB 0x3000 64 (fun _ => 0xEE) }).map
      fun t => bytesOf t.mem) = some (5 :: List.replicate 63 0) := by decide +kernel

/-- I12. -/
theorem test_zero_table :
    ((run 0xC0480001 { on .v128 with zt0 := BitVec.allOnes 512, za := zaFill (fun _ _ => 0xFF) }).map
      fun t => (t.zt0, (elem (t.zaVec 15) 15 8).toNat)) = some (0#512, 0xFF) := by decide +kernel

/-- A state with nonzero registers, for the mode changes (95_test_vectors.md section 2.8). -/
def busy (sm za : Bool) : State :=
  { at' .v128 sm za with
    z := z1 3 7#2048, p := p1 15 5#256, ffr := 9#256, fpsr := 0x10, za := zaFill (fun _ _ => 0xFF), zt0 := 5#512 }

/-- What the table of section 2.8 shows: the mode bits; Z, P, FFR; FPSR; ZA storage and ZT0. -/
def modeView (t : State) : (Bool × Bool) × (VecReg × PredReg × PredReg) × DWord × (Nat × TableReg) :=
  ((t.pstateSM, t.pstateZA), (t.z[3], t.p[15], t.ffr), t.fpsr, ((elem (t.zaVec 9) 2 8).toNat, t.zt0))

/-- I13: 0, 0, SMSTART. -/
theorem test_smstart : (run 0xD503477F (busy false false)).map modeView =
    some ((true, true), (0, 0, 0), 0x0800009F, (0, 0)) := by decide +kernel
/-- 0, 1, SMSTART SM: ZA kept. -/
theorem test_smstart_sm : (run 0xD503437F (busy false true)).map modeView =
    some ((true, true), (0, 0, 0), 0x0800009F, (0xFF, 5)) := by decide +kernel
/-- 1, 0, SMSTART SM: no change of SM, nothing zeroed. -/
theorem test_smstart_sm_again : (run 0xD503437F (busy true false)).map modeView =
    some ((true, false), (7, 5, 9), 0x10, (0xFF, 5)) := by decide +kernel
/-- 0, 0, SMSTART ZA: ZA and ZT0 zero, registers kept. -/
theorem test_smstart_za : (run 0xD503457F (busy false false)).map modeView =
    some ((false, true), (7, 5, 9), 0x10, (0, 0)) := by decide +kernel
/-- 0, 1, SMSTART ZA: no change of ZA, no zeroing. -/
theorem test_smstart_za_again : (run 0xD503457F (busy false true)).map modeView =
    some ((false, true), (7, 5, 9), 0x10, (0xFF, 5)) := by decide +kernel
/-- I14. -/
theorem test_smstop_sm : (run 0xD503427F (busy true true)).map modeView =
    some ((false, true), (0, 0, 0), 0x0800009F, (0xFF, 5)) := by decide +kernel
/-- 1, 1, SMSTOP ZA, then SMSTART ZA: re-enabling zeroes. -/
theorem test_smstop_za : ((run 0xD503447F (busy true true)).bind (run 0xD503457F)).map modeView =
    some ((true, true), (7, 5, 9), 0x10, (0, 0)) := by decide +kernel
/-- 1, 1, SMSTOP. -/
theorem test_smstop : ((run 0xD503467F (busy true true)).map fun t => (t.pstateSM, t.pstateZA, t.z[3], t.fpsr)) =
    some (false, false, 0, 0x0800009F) := by decide +kernel
/-- Section 2.8: MSR SVCR with 0xFFFF_FFFF_FFFF_FFFE; bits 63:2 ignored. -/
theorem test_msr_svcr : ((run 0xD51B4243 { busy true true with x := xs [(3, 0xFFFFFFFFFFFFFFFE)] }).map modeView) =
    some ((false, true), (0, 0, 0), 0x0800009F, (0xFF, 5)) := by decide +kernel
/-- I16. -/
theorem test_msr_svcr_xzr : ((run 0xD51B425F (busy true true)).map fun t => (t.pstateSM, t.pstateZA)) =
    some (false, false) := by decide +kernel
/-- I17 and the line on MRS of section 2.8. -/
theorem test_mrs_svcr : [(false, false), (true, false), (false, true), (true, true)].map
    (fun b => (run 0xD53B4245 { busy b.1 b.2 with x := xs [(5, 77)] }).map fun t => t.x[5]) =
    [some 0, some 1, some 2, some 3] := by decide +kernel

/-- I18: a vertical byte slice, Inactive elements zero, the bytes beside it unchanged. -/
theorem test_ld1b :
    ((run 0xE001800F { on .v128 with
        x := xs [(12, 2), (0, 0x1000), (1, 3)], p := p1 0 0x00F5, mem := memB 0x1000 64 id,
        za := zaFill (fun r _ => 0xA0 + r) }).map
      fun t => ((List.range 16).map (fun k => (elem (t.zaVec k) 1 8).toNat), (elem (t.zaVec 5) 0 8).toNat,
        (elem (t.zaVec 5) 2 8).toNat)) =
      some ([3, 0, 5, 0, 7, 8, 9, 0xA, 0, 0, 0, 0, 0, 0, 0, 0], 0xA5, 0xA5) := by decide +kernel
/-- I19. -/
theorem test_ld1h :
    ((run 0xE044286A { on .v128 with
        x := xs [(13, 7), (3, 0x2000), (4, 1)], p := p1 2 0x0455, mem := memB 0x2000 64 (0x40 + ·),
        za := zaFill (fun _ _ => 0xFF) }).map
      fun t => (t.zaVec 3, t.zaVec 2 == t.zaVec 4)) = some (0x000000004D4C00004948474645444342#2048, true) := by
  decide +kernel
/-- The first instruction of program P4 at 0x04: start 0x4010, slice 1 of ZA0.S is ZA[4]. -/
theorem test_ld1w :
    ((run 0xE0820001 { on .v128 with
        x := xs [(0, 0x4000), (2, 4)], p := p1 0 0x1111, mem := memB 0x4010 16 id }).map
      fun t => t.zaVec 4) = some 0x0F0E0D0C0B0A09080706050403020100#2048 := by decide +kernel
/-- I20. -/
theorem test_ld1w_misaligned :
    stop 0xE09F0000 { on .v128 with x := xs [(0, 0x1002)] } = some (.inr .misalignedStart) := by decide +kernel
/-- I21: SP as base, a vertical doubleword slice. -/
theorem test_ld1d :
    ((run 0xE0C9FFEF { on .v128 with
        x := xs [(9, 2)], sp := 0x3000, p := p1 7 0x0101, mem := memB 0x3000 64 id }).map
      fun t => (t.zaVec 7, t.zaVec 15)) =
      some (0x17161514131211100000000000000000#2048, 0x1F1E1D1C1B1A19180000000000000000#2048) := by decide +kernel
/-- I22: the Inactive element makes no access to the bytes that are not mapped, and is zeroed. -/
theorem test_ld1q :
    ((run 0xE1DF044F { on .v256 with
        x := xs [(12, 5), (2, 0x4000)], p := p1 1 0x00000001, mem := memB 0x4000 16 id, za := zaFill (fun _ _ => 0x55) }).map
      fun t => t.zaVec 31) = some 0x0F0E0D0C0B0A09080706050403020100#2048 := by decide +kernel
/-- I23. -/
theorem test_st1b_horizontal :
    ((run 0xE03F0003 { on .v128 with
        x := xs [(0, 0x5000)], p := p1 0 0x8001, mem := memB 0x5000 16 (fun _ => 0xEE),
        za := zaFill (fun r c => 16 * r + c) }).map fun t => bytesOf t.mem) =
      some [0x30, 0xEE, 0xEE, 0xEE, 0xEE, 0xEE, 0xEE, 0xEE, 0xEE, 0xEE, 0xEE, 0xEE, 0xEE, 0xEE, 0xEE, 0x3F] := by
  decide +kernel
/-- I24. -/
theorem test_st1b_vertical :
    ((run 0xE03F8003 { on .v128 with
        x := xs [(0, 0x5000)], p := p1 0 0xFFFF, mem := memB 0x5000 16 (fun _ => 0xEE),
        za := zaFill (fun r c => 16 * r + c) }).map fun t => bytesOf t.mem) =
      some [0x03, 0x13, 0x23, 0x33, 0x43, 0x53, 0x63, 0x73, 0x83, 0x93, 0xA3, 0xB3, 0xC3, 0xD3, 0xE3, 0xF3] := by
  decide +kernel
/-- I25: only the two bytes of element 0 need be mapped. -/
theorem test_st1h :
    ((run 0xE0620421 { on .v128 with
        x := xs [(1, 0x5000), (2, 4)], p := p1 1 0x0001, mem := memB 0x5008 2 (fun _ => 0xEE),
        za := zaFill (fun r c => 16 * r + c) }).map fun t => bytesOf t.mem) = some [0x20, 0x21] := by decide +kernel
/-- I26. -/
theorem test_st1w :
    ((run 0xE0A1000C { on .v128 with
        x := xs [(12, 1), (0, 0x5000)], p := p1 0 0x1111, mem := memB 0x5000 16 (fun _ => 0xEE),
        za := zaFill (fun r c => 16 * r + c) }).map fun t => t.mem) = some (memB 0x5000 16 (0x70 + ·)) := by decide +kernel
/-- I27: a vertical doubleword slice with an Inactive element, which is not written. -/
theorem test_st1d :
    ((run 0xE0FFA8C8 { on .v256 with
        x := xs [(13, 2), (6, 0x6000)], p := p1 2 0x01000101, mem := memB 0x6000 32 (fun _ => 0xEE),
        za := zaFill (fun r c => (8 * r + c) % 256) }).map fun t => bytesOf t.mem) =
      some [0x30, 0x31, 0x32, 0x33, 0x34, 0x35, 0x36, 0x37, 0x70, 0x71, 0x72, 0x73, 0x74, 0x75, 0x76, 0x77,
        0xEE, 0xEE, 0xEE, 0xEE, 0xEE, 0xEE, 0xEE, 0xEE, 0xF0, 0xF1, 0xF2, 0xF3, 0xF4, 0xF5, 0xF6, 0xF7] := by
  decide +kernel
/-- I28. -/
theorem test_st1q :
    ((run 0xE1E854E3 { on .v128 with
        x := xs [(14, 99), (7, 0x7000), (8, 1)], p := p1 5 0x0001, mem := memB 0x7010 16 (fun _ => 0xEE),
        za := zaFill (fun r c => 16 * r + c) }).map fun t => t.mem) = some (memB 0x7010 16 (0x30 + ·)) := by decide +kernel
/-- I28, second part: the predicate bit is clear, nothing is written and nothing need be mapped. -/
theorem test_st1q_inactive :
    ((run 0xE1E854E3 { on .v128 with x := xs [(14, 99), (7, 0x7000), (8, 1)], p := p1 5 0xFFFE }).map fun t => t.mem) =
      some [] := by decide +kernel
/-- I29. -/
theorem test_mova_t2v_b :
    ((run 0xC0028000 { on .v128 with
        x := xs [(12, 17)], p := p1 0 0x0F0F, z := z1 0 (BitVec.allOnes 2048), za := zaFill (fun r c => (16 * r + c) % 256) }).map
      fun t => t.readZ 0) = some 0xFFFFFFFFB1A19181FFFFFFFF31211101#2048 := by decide +kernel
/-- By hand from 47_named_instructions.md R315: ZA1V.H[W13, 3] at SVL = 128, slice 3: halfword i is bytes 6, 7 of
ZA[1 + 2i]; elements 0 and 7 Active. -/
theorem test_mova_t2v_h :
    ((run 0b11000000_01_00001_0_1_01_110_0_1011_00010 { on .v128 with
        p := p1 6 0x4001, za := zaFill (fun r c => 16 * r + c) }).map
      fun t => t.z[2]) = some 0xF7F60000000000000000000000001716#2048 := by decide +kernel
/-- Program P4 at 0x20: column 1, elements 0 and 2 Active. -/
theorem test_mova_t2v_s :
    ((run 0xC0828427 { on .v128 with
        p := p1 1 0x0101, z := z1 7 0xAAAAAAAABBBBBBBBCCCCCCCCDDDDDDDD,
        za := ((State.reset.za.set 0 (0x11#2048 <<< 32)).set 8 (0x211#2048 <<< 32)) }).map
      fun t => t.z[7]) = some 0xAAAAAAAA00000211CCCCCCCC00000011#2048 := by decide +kernel
/-- By hand from 47_named_instructions.md R315: ZA6H.D[W14, 1] at SVL = 128, slice 1 is ZA[14]; element 1 Active. -/
theorem test_mova_t2v_d :
    ((run 0b11000000_11_00001_0_0_10_001_0_1101_11111 { on .v128 with
        p := p1 1 0x0100, za := zaFill (fun r c => 16 * r + c) }).map
      fun t => t.z[31]) = some 0xEFEEEDECEBEAE9E80000000000000000#2048 := by decide +kernel
/-- I30. -/
theorem test_mova_t2v_q :
    ((run 0xC0C300A1 { on .v256 with
        x := xs [(12, 1)], p := p1 0 0x00010000, z := z1 1 (buildElems 2048 8 32 (fun _ => 0x11)),
        za := zaFill (fun r c => (8 * r + c) % 256) }).map
      fun t => t.z[1]) = some 0xC7C6C5C4C3C2C1C0BFBEBDBCBBBAB9B811111111111111111111111111111111#2048 := by decide +kernel
/-- By hand from 47_named_instructions.md R316: ZA0H.B[W12, 0], bytes 0 and 15 Active. -/
theorem test_mova_v2t_b :
    ((run 0xC0000000 { on .v128 with
        p := p1 0 0x8001, z := z1 0 0x0F0E0D0C0B0A09080706050403020100, za := zaFill (fun _ _ => 0xFF) }).map
      fun t => (t.zaVec 0, elem (t.zaVec 1) 0 8)) = some (0x0FFFFFFFFFFFFFFFFFFFFFFFFFFFFF00#2048, 0xFF#8) := by
  decide +kernel
/-- I33. -/
theorem test_mova_v2t_h :
    ((run 0xC0400D2F { on .v128 with
        x := xs [(12, 2)], p := p1 3 0x5005, z := z1 9 0x00070006000500040003000200010000,
        za := zaFill (fun _ _ => 0xFF) }).map fun t => t.zaVec 3) =
      some 0x00070006FFFFFFFFFFFFFFFF00010000#2048 := by decide +kernel
/-- Program P4 at 0x24. -/
theorem test_mova_v2t_s :
    ((run 0xC08004E2 { on .v128 with
        p := p1 1 0x0101, z := z1 7 0xAAAAAAAA00000211CCCCCCCC00000011,
        za := State.reset.za.set 8 0x00000213000002120000021100000210 }).map fun t => t.zaVec 8) =
      some 0x00000213000002110000021100000011#2048 := by decide +kernel
/-- I32: elements 1 and 2 of a vertical doubleword slice. -/
theorem test_mova_v2t_d :
    ((run 0xC0C0E069 { on .v256 with
        x := xs [(15, 1)], p := p1 0 0x00010100, z := z1 3 (buildElems 2048 8 32 (fun k => BitVec.ofNat 8 (0x80 + k))),
        za := zaFill (fun _ _ => 0xFF) }).map
      fun t => ([4, 12, 20, 28].map (fun r => elem (t.zaVec r) 2 64), elem (t.zaVec 12) 1 64)) =
      some ([0xFFFFFFFFFFFFFFFF#64, 0x8F8E8D8C8B8A8988#64, 0x9796959493929190#64, 0xFFFFFFFFFFFFFFFF#64],
        0xFFFFFFFFFFFFFFFF#64) := by decide +kernel
/-- By hand from 47_named_instructions.md R316: ZA14V.Q[W15, 0] at SVL = 256, slice 1: bytes 16 to 31 of ZA[14] and
ZA[30]; element 1 Active. -/
theorem test_mova_v2t_q :
    ((run 0b11000000_11_00000_1_1_11_101_10000_0_1110 { on .v256 with
        x := xs [(15, 1)], p := p1 5 0x00010000, z := z1 16 (0xABCD#2048 <<< 128), za := zaFill (fun _ _ => 0x22) }).map
      fun t => (elem (t.zaVec 14) 1 128, elem (t.zaVec 30) 0 8, elem (t.zaVec 30) 1 128)) =
      some (0x22222222222222222222222222222222#128, 0x22#8, 0xABCD#128) := by decide +kernel

/-! Stops and exceptions: 95_test_vectors.md sections 2.9, 4.3 and 5. -/

/-- X1, X2, X3: an instruction of K2 and one of K3 in the states that make them illegal. -/
theorem test_illegal :
    stop 0xE1000000 (at' .v128 true false) = some (.inl (.smeIllegal .zaIsZero 0#64))
    ∧ stop 0xE0800000 (at' .v128 false false) = some (.inl (.smeIllegal .smIsZero 0#64))
    ∧ stop 0xE0800000 (at' .v128 false true) = some (.inl (.smeIllegal .smIsZero 0#64))
    ∧ stop 0xE0800000 (at' .v128 true false) = some (.inl (.smeIllegal .zaIsZero 0#64)) := by decide +kernel

/-- The reason codes (60_exceptions.md R321). -/
theorem test_reason_codes :
    [SmeReason.accessTrapped, .smIsOne, .smIsZero, .zaIsZero, .zt0Trapped].map SmeReason.code =
      [0b000#3, 0b001#3, 0b010#3, 0b011#3, 0b100#3] := by decide

/-- X4: the access trap comes before the legality check; without the feature the instruction is undefined first. -/
theorem test_access_trap :
    stop 0xE0800000 { State.reset with cfg := { Params.default with smeAccessEnabled := ELFlags.const false } }
      = some (.inl (.smeAccessTrap 0#64))
    ∧ stop 0xC0480001 { State.reset with
        cfg := { Params.default with haveSME2 := false, smeAccessEnabled := ELFlags.const false } }
      = some (.inl (.undefinedInstruction 0#64)) := by decide +kernel

/-- X11: a store to an address of the program text is refused, and so is a word of no row; nothing can be fetched
outside the text. -/
theorem test_refusals :
    stop 0xE1200000 { on .v128 with mem := memB 0 16 id } = some (.inr .storeToProgramText)
    ∧ stop 0xD503201F (on .v128) = some (.inr (.wordOutsideSpec .outsideTable))
    ∧ stop 0xE1000000 { on .v128 with pc := 2#64 } = some (.inl (.fetchOutsideText 2#64)) := by decide +kernel

/-! Operand-level functions: 95_test_vectors.md sections 2.1 to 2.7. -/

/-- L1, L2, L3. -/
theorem test_lengths :
    ((at' .v256 false false).vl, (at' .v256 true false).vl, (at' .v256 true false).plBits) = (.v128, .v256, 32)
    ∧ ((at' .v256 false false).svlB, (at' .v256 false false).svlH, (at' .v256 false false).svlS,
        (at' .v256 false false).svlD, (at' .v256 false false).svlQ) = (32, 16, 8, 4, 2) := by decide +kernel

/-- L6 and L11. -/
theorem test_nonstreaming_lengths :
    nsvlSet { Params.default with maxNSVL := .v512 } = [.v128, .v256, .v512]
    ∧ State.vl { State.reset with cfg := { Params.default with
        selectNSVL := .table [] .v256, sveDisabledOrTrapped := ELFlags.const true } } = .v128 := by decide +kernel

/-- The family's steps of 40_vector_lengths.md R107: LEN = 2 requests 384 bits; the largest member at most that. -/
theorem test_family_length :
    familyLength [.v128, .v256, .v512] 384 = some .v256 ∧ familyLength [.v512] 384 = some .v512 := by decide

/-- L9 and L10: both outcomes of an increase. -/
theorem test_fill :
    fillOnIncrease true 16 32 0xCCCC5555#256 = 0xCCCC5555#256 ∧ fillOnIncrease false 16 32 0xCCCC5555#256 = 0x5555#256 := by
  decide +kernel

/-- S3: bits above VL are not written. -/
theorem test_write_v :
    (State.writeV { at' .v256 true false with z := z1 5 (lowBits 512 (BitVec.allOnes 2048)) } 5
      0x0123456789ABCDEF0011223344556677).z[5] =
      (lowBits 256 (BitVec.allOnes 2048) <<< 256) ||| 0x0123456789ABCDEF0011223344556677#2048 := by decide +kernel

/-- M2, M4, M8. -/
theorem test_mask_read :
    maskToBools 0x1EF1#256 .s 4 = [true, true, false, true]
    ∧ maskToBools 0x1EF1#256 .h 8 = [true, false, true, true, false, true, true, false]
    ∧ maskToBools 0x00010001#256 .q 2 = [true, true] := by decide +kernel

/-- The canonical masks of section 2.3. -/
theorem test_mask_generate :
    maskFromBools [true, false, true, true] .s = 0x1101#256 ∧ maskFromBools [false, true] .d = 0x0100#256
    ∧ maskFromBools [true, false, false, true, false, false, false, true] .h = 0x4041#256 := by decide +kernel

/-- C3, C4, C8, C10, C14, C16. -/
theorem test_counter_decode :
    counterToBools 0x8014 .v256 2 .s = some ([false, false] ++ List.replicate 14 true)
    ∧ (counterToBools 0x7E05 .v512 4 .b).map (fun l => (l.take 3, l.length)) = some ([true, true, false], 256)
    ∧ counterToBools 0x0048 .v128 2 .d = some (List.replicate 4 true)
    ∧ counterToBools 0x7FF0 .v128 1 .s = some (List.replicate 4 false)
    ∧ counterToBools 0x0081 .v256 1 .b = some (List.replicate 32 true)
    ∧ counterToBools 0x000C .v256 1 .s = some (true :: List.replicate 7 false) := by decide +kernel

/-- The encodings of section 2.3. -/
theorem test_counter_encode :
    counterEncode false 3 0 = 0x0007 ∧ counterEncode true 2 2 = 0x8014 ∧ counterEncode false 2 3 = 0x0028
    ∧ counterEncode true 0 0 = 0x8001 ∧ counterEncode false 5 1 = 0x0016 ∧ counterEncode false 8 3 = 0x0088 := by decide

/-- The predicated writes of section 2.3. -/
theorem test_predicated_write :
    predicatedWrite 0xAAAAAAAABBBBBBBBCCCCCCCCDDDDDDDD#128 0x00000004000000030000000200000001#128
      (fun e => predBit 0x0101#256 e .s) 32 4 .merging = 0xAAAAAAAA00000003CCCCCCCC00000001#128
    ∧ predicatedWrite 0xAAAAAAAABBBBBBBBCCCCCCCCDDDDDDDD#128 0x00000004000000030000000200000001#128
      (fun e => predBit 0x0101#256 e .s) 32 4 .zeroing = 0x00000000000000030000000000000001#128 := by decide +kernel

/-- Section 1.1: ZA[13] as a horizontal slice of each element size. -/
theorem test_vector_as_slice :
    [ESize.b, .h, .s, .d, .q].map (vectorAsSlice 13) = [(0, 13), (1, 6), (1, 3), (5, 1), (13, 0)] := by decide

/-- Sections 1.7 and 1.8. -/
theorem test_tiles_overlap :
    tilesOverlap 1 .h 0 .s = false ∧ tilesOverlap 0 .s 2 .d = false ∧ tilesOverlap 0 .h 2 .s = true
    ∧ tilesOverlap 2 .s 6 .d = true
    ∧ (List.range 16).filter (fun q => tilesOverlap 3 .d q .q) = [3, 11] := by decide

/-- T3 and T5. -/
theorem test_select :
    State.selectVector { on .v256 with x := xs [(15, 0x000000ABFFFFFFFF)] } .w15 15 = 14
    ∧ State.selectSlice { on .v256 with x := xs [(13, 13)] } .w13 3 .s = 0 := by decide +kernel

/-- MS2, MS3, MS4, MS9. -/
theorem test_multi_slice :
    multiSlice .v256 11 .s .four = .ok [0, 1, 2, 3] ∧ multiSlice .v256 7 .d .four = .ok [0, 1, 2, 3]
    ∧ multiSlice .v128 0 .d .four = .error .undefinedInstr ∧ multiSlice .v256 33 .b .four = .ok [0, 1, 2, 3] := by
  decide

/-- MV2, MV4, MV6, MV11. -/
theorem test_multi_vector :
    zaMultiVector 32 11 .two .two = [[10, 11], [26, 27]] ∧ zaMultiVector 32 5 .four .one = [[5], [13], [21], [29]]
    ∧ zaMultiVector 32 37 .one .four = [[4, 5, 6, 7]]
    ∧ zaMultiVector 64 21 .four .four = [[4, 5, 6, 7], [20, 21, 22, 23], [36, 37, 38, 39], [52, 53, 54, 55]] := by decide

/-- MS3 and MV2 through their select registers: W15 holds 5, W8 holds 9 (10_state.md R33). -/
theorem test_operand_registers :
    State.multiSliceOperand { on .v256 with x := xs [(15, 5), (8, 9)] } .w15 2 .d .four = .ok [0, 1, 2, 3]
    ∧ State.multiVectorOperand { on .v256 with x := xs [(15, 5), (8, 9)] } .w8 2 .two .two = [[10, 11], [26, 27]]
    ∧ State.groupSel { on .v256 with x := xs [(11, 0xFFFFFFFF00000007)] } .w11 = 7 := by decide +kernel

/-- As many groups as Z registers: MV2's groups with Z31 and Z0, and no operand for three registers
(45_multi_vector_operands.md R253). -/
theorem test_grouped_operand :
    State.groupedOperand { on .v256 with x := xs [(8, 9)] } [31, 0] .w8 2 .two = some [(31, [10, 11]), (0, [26, 27])]
    ∧ State.groupedOperand (on .v256) [1, 2, 3] .w8 2 .two = none
    ∧ groupPairs [31, 0] [[5], [13], [21], [29]] = none := by decide +kernel

/-- The offsets of N10: multiples of 4 up to dim - 4. -/
theorem test_multi_slice_offsets : (List.range 9).filter (multiSliceOffsOk 8 .four) = [0, 4] := by decide

/-- Field value 2 names PN10; C3 read through it (30_encoding.md R85). -/
theorem test_governing_counter :
    governingCounter 7 = 15
    ∧ State.governingBools { on .v256 with p := p1 10 0x8014 } 2 2 .s = some ([false, false] ++ List.replicate 14 true) := by
  decide +kernel

/-- The Z multi-vector operands of section 2.6. -/
theorem test_z_multi_vector :
    zConsecutive 4 30 = [30, 31, 0, 1] ∧ zStrided2 5 = some [5, 13] ∧ zStrided2 8 = none
    ∧ zStrided4 19 = some [19, 23, 27, 31] ∧ zStrided4 4 = none := by decide

/-- The table of section 2.7. -/
def tableT : TableReg := buildElems 512 32 16 (fun i => BitVec.ofNat 32 (0xAABBCC00 + i))

/-- Z1, Z2, Z4. -/
theorem test_lookup :
    lookupResult tableT 0xC6#2048 .v128 .s .two 1 0 0 = 0xAABBCC03AABBCC00AABBCC01AABBCC02#2048
    ∧ lookupResult tableT 0xFEDCBA98765432100123456789ABCDEF#2048 .v128 .b .four 1 0 0
      = 0x000102030405060708090A0B0C0D0E0F#2048
    ∧ lookupResult tableT 0xE41B0000#2048 .v128 .s .two 2 1 0 = 0xAABBCC00AABBCC01AABBCC02AABBCC03#2048
    ∧ lookupResult tableT 0xE41B0000#2048 .v128 .s .two 2 1 1 = 0xAABBCC03AABBCC02AABBCC01AABBCC00#2048 := by decide +kernel

/-- Portions at VL = 128: 4-bit indices for two registers of bytes fill the source, for four they do not fit
(46_zt0.md R274). -/
theorem test_lookup_portions :
    (List.range 3).filter (lookupImmOk .v128 .b .four 2) = [0] ∧ (List.range 3).filter (lookupImmOk .v128 .b .four 4) = []
    ∧ (List.range 5).filter (lookupImmOk .v128 .s .two 4) = [0, 1, 2, 3] := by decide

/-- Z1 as an instruction, legal only with both mode bits 1 (46_zt0.md R274, R275). -/
theorem test_lookup_instruction :
    (nextState (lookupInstruction [5] .s .two 3 0 { on .v128 with zt0 := tableT, z := z1 3 0xC6 })).map (fun t => (t.z[5], t.pc)) =
      some (0xAABBCC03AABBCC00AABBCC01AABBCC02, 4)
    ∧ lookupInstruction [5] .s .two 3 0 (at' .v128 false true) = .fault (.smeIllegal .smIsZero 0)
    ∧ lookupInstruction [5] .s .two 3 0 (at' .v128 true false) = .fault (.smeIllegal .zaIsZero 0) :=
  ⟨by decide +kernel, rfl, rfl⟩

/-- The lists R273 names, and three others. -/
theorem test_lookup_lists :
    [[5], [31, 0], [30, 31, 0, 1], [5, 13], [3, 7, 11, 15]].map lookupListOk = List.replicate 5 true
    ∧ [[], [1, 1], [1, 2, 3]].map lookupListOk = List.replicate 3 false := by decide

/-- The duty of R352 holds of a cleared state and fails for a nonzero ZT0. -/
theorem test_new_bits_cleared :
    NewBitsCleared State.reset 128 256 128 256
    ∧ ¬ NewBitsCleared { State.reset with zt0 := 1#512 } 128 256 128 256 :=
  ⟨⟨by decide +kernel, by decide +kernel, by decide +kernel, by decide +kernel, by decide +kernel, fun _ => rfl⟩,
    fun h => absurd (h.zt0 (.inl (by decide))) (by decide +kernel)⟩

/-- LEN fields are read and written at their level and above only, never at EL0 (10_state.md R31, R32). -/
theorem test_len_access :
    ((applyEvent (.writeSmcrLen .el2 5) { State.reset with el := .el2 }).smcrLen.el2,
      (applyEvent (.writeSmcrLen .el3 5) { State.reset with el := .el2 }).smcrLen.el3,
      (applyEvent (.writeZcrLen .el1 5) { State.reset with el := .el0 }).zcrLen.el1) = (5#4, 0#4, 0#4)
    ∧ State.readSmcrLen { State.reset with el := .el0 } .el1 = none ∧ State.reset.readZcrLen .el3 = some 0 := by
  decide +kernel

/-- The disassembly examples of sections 1.5 and 1.7. -/
theorem test_disassembly :
    showSlice .s .vertical 2 13 3 = "ZA2V.S[W13, 3]" ∧ showMultiVector .s 8 5 .two .one = "ZA.S[W8, 5, VGx2]" := by
  decide +kernel

/-- The flags a change of PSTATE.SM leaves (43_streaming_mode_and_za_enable.md R164; 10_state.md R30). -/
theorem test_fpsr_flags : fpsrFlags 0x0800009F#64 =
    { qc := true, idc := true, ixc := true, ufc := true, ofc := true, dzc := true, ioc := true } := by decide

/-! Witnesses: for each statement of the certificate with hypotheses, a state and operands that meet all of them,
with one for each clause where there are several. -/

/-- A state of both mode bits with one mapped block of 64 bytes at 0x1000 and one at 0x2000, and register operands. -/
def block : State :=
  { on .v128 with
    x := xs [(12, 17), (0, 0x1000), (1, 0x2000), (2, 4)], p := p1 2 0x8421
    mem := memB 0x1000 64 id ++ memB 0x2000 64 id }

/-- The same with only 32 bytes mapped from 0x1000. -/
def half : State := { block with mem := memB 0x1000 32 id }

/-- The same with program text over the bytes at 0x1000. -/
def texted : State := { block with text := memB 0x1000 64 id }

/-- A tile slice operand of words at [X0, X2, LSL #2] governed by P2: elements 0, 4 and 8 bits in. -/
def sliceOp : SliceMemOperands :=
  { slice := { dir := .vertical, tile := 3, ws := .w12, offs := 3 }, pg := 2, base := .x 0, index := .x 2 }

/-- A move operand of words governed by P2. -/
def moveOp : MovaOperands := { slice := { dir := .vertical, tile := 3, ws := .w12, offs := 3 }, pg := 2, z := 31 }

theorem block_sme : SmeReady block := ⟨rfl, rfl, by decide⟩
theorem block_sme2 : Sme2Ready block := ⟨rfl, rfl, by decide⟩
theorem block_tile : TileReady block := ⟨block_sme, rfl, rfl⟩
theorem half_sme : SmeReady half := ⟨rfl, rfl, by decide⟩
theorem half_sme2 : Sme2Ready half := ⟨rfl, rfl, by decide⟩
theorem half_tile : TileReady half := ⟨half_sme, rfl, rfl⟩
theorem texted_sme : SmeReady texted := ⟨rfl, rfl, by decide⟩
theorem texted_sme2 : Sme2Ready texted := ⟨rfl, rfl, by decide⟩
theorem texted_tile : TileReady texted := ⟨texted_sme, rfl, rfl⟩

/-- The last tile and the last offset of the size. -/
theorem witness_DecodeAfterEncode :
    Instr.wf (.ld1d { slice := { dir := .vertical, tile := 7, ws := .w15, offs := 1 }, pg := 7, base := .sp, index := .zr })
      = true := by decide

theorem witness_EncodeAfterDecode : decodeWord 0xE11F8040#32 = .ok (.ldrTable (.x 2)) := by decide

theorem witness_RowsAreDisjoint :
    (Opc.ld1 .q).matchesWord 0xE1DF844F#32 = true ∧ (Opc.ldrTable).matchesWord 0xE1DF844F#32 = false := by decide

/-- ZERO (table) at address 0. -/
theorem witness_StepRunsDecodedInstruction :
    (State.reset.withFetchWord 32 0xC0480001).pc.toNat % 4 = 0
    ∧ (List.range 4).map ((State.reset.withFetchWord 32 0xC0480001).text.byteAt ·) =
        [some 0x01#8, some 0x00#8, some 0x48#8, some 0xC0#8]
    ∧ decode [0x01#8, 0x00#8, 0x48#8, 0xC0#8, 0xFF#8] = .ok (.zeroTable, [0xFF#8]) := by decide +kernel

/-- A misaligned pc; a text that ends one byte early; a word of no row. -/
theorem witness_StepStopsWithoutInstruction :
    { State.reset with pc := 2#64 }.pc.toNat % 4 ≠ 0
    ∧ (∃ k < 4, Memory.byteAt (memB 0 3 id) (State.reset.pc.toNat + k) = none)
    ∧ ((List.range 4).map (Memory.byteAt (memB 0 4 id) ·) = [some 0#8, some 1#8, some 2#8, some 3#8]
        ∧ opcTable.all (fun o => !o.matchesWord (wordOfBytes 0 1 2 3)) = true) := by decide +kernel

theorem witness_LdrArrayLoadsSelectedVector :
    SmeReady block ∧ block.pstateZA = true ∧ (block.base (.x 0)).toNat % 16 = 0
    ∧ Mapped block.mem (block.arrayAddr { wv := .w12, offs := 3, base := .x 0 }) block.svlB :=
  ⟨block_sme, rfl, by decide, by unfold Mapped; decide +kernel⟩

/-- The last bytes of the address space: the transfer ends at 2^64. -/
theorem witness_LdrArray_top :
    Mapped (memB 0xFFFFFFFFFFFFFFF0 16 id) (State.arrayAddr { on .v128 with sp := 0xFFFFFFFFFFFFFFF0 }
      { wv := .w12, offs := 0, base := .sp }) (on .v128).svlB := by unfold Mapped; decide +kernel

theorem witness_StrArrayStoresSelectedVector :
    SmeReady block ∧ block.pstateZA = true ∧ (block.base (.x 0)).toNat % 16 = 0
    ∧ Mapped block.mem (block.arrayAddr { wv := .w12, offs := 3, base := .x 0 }) block.svlB
    ∧ NoText block.text (block.arrayAddr { wv := .w12, offs := 3, base := .x 0 }) block.svlB :=
  ⟨block_sme, rfl, by decide, by unfold Mapped; decide +kernel, by unfold NoText; decide +kernel⟩

theorem witness_ZeroTilesZeroesMaskedVectors : SmeReady block ∧ block.pstateZA = true := ⟨block_sme, rfl⟩

/-- ZA3.S is mask 0x88 (I9). -/
theorem witness_ZeroTilesAliasZeroesTile :
    SmeReady block ∧ block.pstateZA = true ∧ ESize.s ≠ .q ∧ 3 < ESize.s.bytes
    ∧ ∀ i < 8, (0x88#8).getLsbD i = decide (i % ESize.s.bytes = 3) := ⟨block_sme, rfl, by decide, by decide, by decide⟩

theorem witness_LdrTableLoadsZT0 :
    Sme2Ready block ∧ block.pstateZA = true ∧ (block.base (.x 1)).toNat % 16 = 0
    ∧ Mapped block.mem (block.base (.x 1)).toNat 64 :=
  ⟨block_sme2, rfl, by decide, by unfold Mapped; decide +kernel⟩

theorem witness_StrTableStoresZT0 :
    Sme2Ready block ∧ block.pstateZA = true ∧ (block.base (.x 1)).toNat % 16 = 0
    ∧ Mapped block.mem (block.base (.x 1)).toNat 64 ∧ NoText block.text (block.base (.x 1)).toNat 64 :=
  ⟨block_sme2, rfl, by decide, by unfold Mapped; decide +kernel, by unfold NoText; decide +kernel⟩

theorem witness_ZeroTableClearsZT0 : Sme2Ready block ∧ block.pstateZA = true := ⟨block_sme2, rfl⟩

/-- All four states of the mode bits. -/
theorem witness_SmstartSmstopChangeModes :
    SmeReady (busy false false) ∧ SmeReady (busy true false) ∧ SmeReady (busy false true) ∧ SmeReady (busy true true) :=
  ⟨⟨rfl, rfl, by decide⟩, ⟨rfl, rfl, by decide⟩, ⟨rfl, rfl, by decide⟩, ⟨rfl, rfl, by decide⟩⟩

theorem witness_MsrSvcrWritesModes : SmeReady (busy true true) ∧ XnZR.x 30 = .x 30 ∧ XnZR.zr = .zr :=
  ⟨⟨rfl, rfl, by decide⟩, rfl, rfl⟩

theorem witness_MrsSvcrReadsModes : SmeReady (busy true false) ∧ XnZR.x 0 = .x 0 ∧ XnZR.zr = .zr :=
  ⟨⟨rfl, rfl, by decide⟩, rfl, rfl⟩

/-- Word elements 0 and 1 are governed by bits 0 and 4 of 0x8421: one Active, one Inactive. -/
theorem witness_TileLoadWritesSlice :
    TileReady block ∧ sliceOp.slice.wf .s = true ∧ block.sliceStart .s sliceOp % ESize.s.bytes = 0
    ∧ (∀ e < block.tileDim .s, governs block sliceOp.pg .s e = true →
        Mapped block.mem (block.sliceStart .s sliceOp + e * ESize.s.bytes) ESize.s.bytes)
    ∧ (governs block sliceOp.pg .s 0 = true ∧ governs block sliceOp.pg .s 1 = false)
    ∧ (sliceHasByte .s .vertical 3 (block.sliceIndex .s sliceOp.slice) 15 3 = true
      ∧ sliceHasByte .s .vertical 3 (block.sliceIndex .s sliceOp.slice) 15 4 = false) :=
  ⟨block_tile, by decide, by decide +kernel, by unfold Mapped; decide +kernel, by decide +kernel, by decide +kernel⟩

theorem witness_TileStoreWritesActiveElements :
    TileReady block ∧ sliceOp.slice.wf .s = true ∧ block.sliceStart .s sliceOp % ESize.s.bytes = 0
    ∧ ∀ e < block.tileDim .s, governs block sliceOp.pg .s e = true →
        Mapped block.mem (block.sliceStart .s sliceOp + e * ESize.s.bytes) ESize.s.bytes
          ∧ NoText block.text (block.sliceStart .s sliceOp + e * ESize.s.bytes) ESize.s.bytes :=
  ⟨block_tile, by decide, by decide +kernel, by unfold Mapped NoText; decide +kernel⟩

theorem witness_MovaToVectorMergesSlice : TileReady block ∧ moveOp.slice.wf .s = true := ⟨block_tile, by decide⟩

theorem witness_MovaToTileMergesVector : TileReady block ∧ moveOp.slice.wf .s = true := ⟨block_tile, by decide⟩

/-- Feature absent; feature present and access prevented. -/
theorem witness_UndefinedThenAccessTrap :
    featurePresent { Params.default with haveSME2 := false } .zeroTable = false
    ∧ featurePresent Params.default .zeroTable = true
    ∧ ({ Params.default with smeAccessEnabled := ELFlags.const false }).smeAccessEnabled.at .el3 = false := by decide

/-- The three clauses: K2, K3 in Streaming SVE mode, K3 outside it. -/
theorem witness_ZaAccessIllegalWithoutZA :
    (featurePresent (busy true false).cfg .zeroTable = true ∧ (busy true false).cfg.smeAccessEnabled.at (busy true false).el = true
      ∧ (busy true false).pstateZA = false ∧ legalClass .zeroTable = .k2)
    ∧ (legalClass (.ld1w sliceOp) = .k3 ∧ (busy true false).pstateSM = true)
    ∧ (legalClass (.ld1w sliceOp) = .k3 ∧ (busy false false).pstateSM = false ∧ (busy false false).pstateZA = false) := by
  decide +kernel

theorem witness_TileSliceIllegalOutsideStreamingMode : SmeReady (busy false true) ∧ (busy false true).pstateSM = false :=
  ⟨⟨rfl, rfl, by decide⟩, rfl⟩

theorem witness_LegalityTable :
    (true = true ∧ false = false) ∧ illegalReason .k5 true true false = some .smIsOne
    ∧ illegalReason .k3 true false false = some .zaIsZero := by decide

/-- Bases 1 and 15 off a multiple of 16; a start 2 off a multiple of 4. -/
theorem witness_MisalignedAccessRefused :
    (SmeReady block ∧ Sme2Ready block ∧ TileReady block ∧ block.pstateZA = true)
    ∧ (State.base { block with x := xs [(0, 0x1001)] } (.x 0)).toNat % 16 ≠ 0
    ∧ (State.base { block with sp := 0x100F } .sp).toNat % 16 ≠ 0
    ∧ State.sliceStart { block with x := xs [(0, 0x1002)] } .s sliceOp % ESize.s.bytes ≠ 0 :=
  ⟨⟨block_sme, block_sme2, block_tile, rfl⟩, by decide +kernel, by decide +kernel, by decide +kernel⟩

/-- One byte of the request missing at the end of the mapped block; no text there. -/
theorem witness_AccessOutsideMemoryIsStuck :
    (SmeReady half ∧ Sme2Ready half ∧ TileReady half ∧ half.pstateZA = true)
    ∧ ((half.base (.x 0)).toNat % 16 = 0 ∧ ¬ Mapped half.mem (half.arrayAddr { wv := .w12, offs := 2, base := .x 0 }) half.svlB
      ∧ NoText half.text (half.arrayAddr { wv := .w12, offs := 2, base := .x 0 }) half.svlB)
    ∧ (¬ Mapped half.mem (half.base (.x 0)).toNat 64 ∧ NoText half.text (half.base (.x 0)).toNat 64)
    ∧ (half.sliceStart .b sliceOp % ESize.b.bytes = 0 ∧ 5 < half.tileDim .b
      ∧ governs { half with x := xs [(0, 0x101C)] } sliceOp.pg .b 5 = true
      ∧ ¬ Mapped half.mem (0x101C + 5 * ESize.b.bytes) ESize.b.bytes) :=
  ⟨⟨half_sme, half_sme2, half_tile, rfl⟩,
    ⟨by decide, by unfold Mapped; decide +kernel, by unfold NoText; decide +kernel⟩,
    ⟨by unfold Mapped; decide +kernel, by unfold NoText; decide +kernel⟩,
    ⟨by decide +kernel, by decide +kernel, by decide +kernel, by unfold Mapped; decide +kernel⟩⟩

theorem witness_StoreToProgramTextRefused :
    (SmeReady texted ∧ Sme2Ready texted ∧ TileReady texted ∧ texted.pstateZA = true)
    ∧ ((texted.base (.x 0)).toNat % 16 = 0 ∧ ¬ NoText texted.text (texted.arrayAddr { wv := .w12, offs := 0, base := .x 0 }) texted.svlB)
    ∧ ¬ NoText texted.text (texted.base (.x 0)).toNat 64
    ∧ (texted.sliceStart .s sliceOp % ESize.s.bytes = 0 ∧ 0 < texted.tileDim .s ∧ governs texted sliceOp.pg .s 0 = true
      ∧ ¬ NoText texted.text (texted.sliceStart .s sliceOp + 0 * ESize.s.bytes) ESize.s.bytes) :=
  ⟨⟨texted_sme, texted_sme2, texted_tile, rfl⟩,
    ⟨by decide, by unfold NoText; decide +kernel⟩, by unfold NoText; decide +kernel,
    ⟨by decide +kernel, by decide +kernel, by decide +kernel, by unfold NoText; decide +kernel⟩⟩

/-- MRS SVCR to the zero register completes from reset. -/
theorem completes_from_reset : exec (.mrsSVCR .zr) State.reset = .next { State.reset with pc := 4#64 } := rfl

theorem witness_PcMovesByFourWithoutWrapping :
    exec (.mrsSVCR .zr) State.reset = .next { State.reset with pc := 4#64 } := completes_from_reset

theorem witness_FaultsNameTheirInstruction : exec .zeroTable State.reset = .fault (.smeIllegal .zaIsZero 0#64) := rfl

/-- The reset state with a program placed at pc. -/
def loaded (w : Nat) : State := State.reset.withFetchWord 32 w

/-- MRS XZR, SVCR, placed at the reset pc, completes. -/
theorem loaded_steps : step (loaded 0xD53B425F) = .next { loaded 0xD53B425F with pc := 4#64 } := rfl

theorem loaded_consistent : Consistent (loaded 0xD53B425F) where
  params := by decide
  modes := fun _ => ⟨rfl, rfl⟩
  mem := by decide
  text := by decide
  pcAligned := by decide
  noContents := fun _ => ⟨rfl, rfl⟩
  implemented := ⟨by decide +kernel, by decide +kernel, by decide +kernel, by decide +kernel, by decide +kernel, by decide⟩

theorem witness_StepKeepsConsistent :
    Consistent (loaded 0xD53B425F) ∧ step (loaded 0xD53B425F) = .next { loaded 0xD53B425F with pc := 4#64 } :=
  ⟨loaded_consistent, loaded_steps⟩

theorem witness_StepKeepsLengthsAndLaunchParameters :
    step (loaded 0xD53B425F) = .next { loaded 0xD53B425F with pc := 4#64 } := loaded_steps

/-- A state with FEAT_SME_FA64 implemented and enabled, outside Streaming SVE mode. -/
def fa64 : State :=
  { busy false true with cfg := { Params.default with haveSMEFA64 := true, fa64Enabled := ELFlags.const true } }

/-- By an event, in both directions, and with FEAT_SME_FA64 for the FFR clause on entry; test_smstart_sm and
test_smstop_sm show steps that change PSTATE.SM. -/
theorem witness_AnyChangeOfSMZeroesAndSetsFPSR :
    (Moves (busy false true) ((busy false true).setSM true) ∧ ((busy false true).setSM true).pstateSM ≠ (busy false true).pstateSM)
    ∧ (Moves (busy true true) ((busy true true).setSM false) ∧ ((busy true true).setSM false).pstateSM ≠ (busy true true).pstateSM
      ∧ (busy true true).pstateSM = true)
    ∧ (Moves fa64 (fa64.setSM true) ∧ (fa64.setSM true).pstateSM ≠ fa64.pstateSM ∧ fa64.fa64Active = true) :=
  ⟨⟨.inr ⟨.setSM true, rfl⟩, by decide +kernel⟩, ⟨.inr ⟨.setSM false, rfl⟩, by decide +kernel, rfl⟩,
    ⟨.inr ⟨.setSM true, rfl⟩, by decide +kernel, by decide⟩⟩

theorem witness_AnyEnableOfZAZeroesStorage :
    Moves (busy true false) ((busy true false).setZA true) ∧ (busy true false).pstateZA = false
    ∧ ((busy true false).setZA true).pstateZA = true := ⟨.inr ⟨.setZA true, rfl⟩, rfl, by decide +kernel⟩

/-- Both directions. -/
theorem witness_ChangeOfZAAloneKeepsRegisters :
    (Moves (busy true false) ((busy true false).setZA true) ∧ Moves (busy true true) ((busy true true).setZA false))
    ∧ (((busy true false).setZA true).pstateZA ≠ (busy true false).pstateZA
      ∧ ((busy true false).setZA true).pstateSM = (busy true false).pstateSM)
    ∧ (((busy true true).setZA false).pstateZA ≠ (busy true true).pstateZA
      ∧ ((busy true true).setZA false).pstateSM = (busy true true).pstateSM) :=
  ⟨⟨.inr ⟨.setZA true, rfl⟩, .inr ⟨.setZA false, rfl⟩⟩, by decide +kernel, by decide +kernel⟩

theorem witness_ZaStorageRetained :
    exec (.mrsSVCR .zr) (busy false true) = .next { busy false true with pc := 4#64 } ∧ (busy false true).pstateZA = true
    ∧ writesZA (.mrsSVCR .zr) = false ∧ writesZT0 (.mrsSVCR .zr) = false := ⟨rfl, rfl, rfl, rfl⟩

theorem witness_DisabledZAIsNotObservable : (busy true false).pstateZA = false := rfl

/-- Two states with VL = 128 that differ in bit 200 of Z3 and bit 20 of P15 and of FFR. -/
theorem witness_InaccessibleBitsAreNotRead :
    SameAccessible (busy false false)
      { busy false false with z := z1 3 (7#2048 ||| (1#2048 <<< 200)), p := p1 15 (5#256 ||| (1#256 <<< 20)), ffr := 9#256 ||| (1#256 <<< 20) } :=
  ⟨rfl, by decide +kernel, by decide +kernel, by decide +kernel⟩

theorem witness_InaccessibleBitsAreNotWritten :
    exec (.mrsSVCR .zr) State.reset = .next { State.reset with pc := 4#64 } ∧ State.reset.pstateSM = State.reset.pstateSM :=
  ⟨completes_from_reset, rfl⟩

theorem witness_OnlyNamedDestinationsChange :
    exec (.mrsSVCR .zr) State.reset = .next { State.reset with pc := 4#64 } := completes_from_reset

/-- The last tile, the last slice, and a vector that fills SVL = 128 bits. -/
theorem witness_SliceReadsBackWhatWasWritten :
    7 < ESize.d.bytes ∧ 1 < (on .v128).tileDim .d ∧ lowBits (on .v128).svlBits (lowBits 128 (BitVec.allOnes 2048)) = lowBits 128 (BitVec.allOnes 2048) := by
  decide +kernel

theorem witness_VerticalSliceIsElementOfEachHorizontal :
    3 < ESize.s.bytes ∧ 3 < (on .v128).tileDim .s ∧ 0 < (on .v128).tileDim .s
    ∧ lowBits (on .v128).svlBits (lowBits 128 (BitVec.allOnes 2048)) = lowBits 128 (BitVec.allOnes 2048) := by decide +kernel

theorem witness_TilesOverlapIffVectorShared : 3 < ESize.s.bytes ∧ 11 < ESize.q.bytes := by decide

/-- Two predicates that differ only in bits no word element reads. -/
theorem witness_UpperPredicateBitsIgnored :
    (∃ a : SliceMemOperands, a.pg = 2 ∧ (Instr.ld1w sliceOp = Instr.tileLoad .s a ∨ Instr.ld1w sliceOp = Instr.tileStore .s a))
    ∧ (∀ e < block.tileDim .s, (p1 2 0xEEEF)[governing 2].getLsbD (e * ESize.s.bytes)
        = block.p[governing 2].getLsbD (e * ESize.s.bytes)) :=
  ⟨⟨sliceOp, rfl, .inl rfl⟩, by decide +kernel⟩

/-- The longest mask. -/
theorem witness_CanonicalMask : (List.replicate 16 true).length * ESize.q.bytes ≤ 256 := by decide

theorem witness_PredicatedWriteByElement :
    3 < 4 ∧ 4 * 32 ≤ 128 ∧ predBit 0x1101#256 3 .s = true ∧ predBit 0x1101#256 1 .s = false := by decide +kernel

/-- The largest counts, at the shortest and the longest vector. -/
theorem witness_CounterReadsBack :
    (counterLsz .b = some 0 ∧ 1023 < 2 ^ (counterMaxBit .v2048 - 0))
    ∧ (counterLsz .d = some 3 ∧ 7 < 2 ^ (counterMaxBit .v128 - 3)) := by decide

theorem witness_CanonicalCounters : (0x7FF0#16).setWidth 4 = 0#4 ∧ counterLsz .d = some 3 := by decide

/-- C13 against 0x0001 at VL = 128: bit 7 is not used; and bits 16 and higher. -/
theorem witness_CounterIgnoresHighCountBits :
    (∀ i < 16, (i ≤ counterMaxBit .v128 ∨ i = 15) → (0x0081#16).getLsbD i = (0x0001#16).getLsbD i)
    ∧ lowBits 16 0x00018014#256 = lowBits 16 0x8014#256 := by decide +kernel

theorem witness_SimdWriteZeroesToVL : 128 ≤ 255 ∧ 255 < (at' .v256 true false).vlBits := by decide +kernel

theorem witness_ScalarResultIsZeroExtended : 16 ≤ 64 ∧ 16 ≤ (at' .v256 true false).vlBits := by decide +kernel

theorem witness_SelectedLengthsAreImplemented : State.reset.cfg.ok = true := by decide

theorem witness_EffectiveVectorLength :
    (busy true false).pstateSM = true ∧ ((busy false false).pstateSM = false ∧ (busy false false).cfg.haveSVE = true)
    ∧ (busy false false).cfg.sveDisabledOrTrapped.at .el3 = false
    ∧ ({ Params.default with sveDisabledOrTrapped := ELFlags.const true }).sveDisabledOrTrapped.at .el3 = true := by decide +kernel

/-- Non-streaming lengths selected by LEN, up to 512. -/
def lenState : State :=
  { State.reset with cfg := { Params.default with maxNSVL := .v512, selectNSVL := .familySteps }, zcrLen := { el1 := 3, el2 := 3, el3 := 3 } }

/-- ZCR_EL3.LEN from 512 bits to 256 and back, then an exception return: VL is never below 256. -/
theorem witness_ConsistentlyAccessibleBitsKept :
    (∀ e ∈ [Event.writeZcrLen .el3 1, .writeZcrLen .el3 3, .exceptionReturn .el1], isLengthEvent e = true)
    ∧ (∀ k ≤ 3, 256 ≤ (applyEvents ([Event.writeZcrLen .el3 1, .writeZcrLen .el3 3, .exceptionReturn .el1].take k) lenState).vlBits)
    ∧ (applyEvents [Event.writeZcrLen .el3 1] lenState).vlBits = 256 ∧ lenState.vlBits = 512 := by decide +kernel

theorem witness_NewlyAccessibleBitsZeroOrPrevious : (256 ≤ 256 ∨ false = true) ∧ (256 ≤ 128 ∨ true = true) ∧ 128 < 256 := by decide

/-- The condition of R115 for a target of EL1; and both ways for ZA storage to be kept. -/
theorem witness_ExceptionEntryPreservesState :
    (∀ l ∈ ELevel.all, l.num < ELevel.el1.num →
      ({ Params.default with simdUnavailable := { el0 := true, el1 := false, el2 := false, el3 := false } }).simdUnavailable.at l = true)
    ∧ (State.reset.enterLevel .el1 = State.reset.enterLevel .el1 ∧ State.reset.pstateZA = false)
    ∧ ((on .v128).enterLevel .el3).svl = (on .v128).svl := ⟨by decide, ⟨rfl, rfl⟩, by decide +kernel⟩

/-- Fewer slices than the operand; exactly as many. -/
theorem witness_MultiSliceOperand :
    (GroupNum.four ≠ .one ∧ (on .v128).tileDim .d < GroupNum.four.val) ∧ (GroupNum.two ≠ .one ∧ GroupNum.two.val ≤ (on .v128).tileDim .d) := by
  decide +kernel

theorem witness_ZMultiVectorRegisters :
    zStrided2 23 = some [23, 31] ∧ zStrided2 7 = some [7, 15] ∧ zStrided4 3 = some [3, 7, 11, 15]
    ∧ zStrided4 16 = some [16, 20, 24, 28] := by decide

/-- Four distinct destinations, the source among them, the last element of each; and the three states of the mode
bits. -/
theorem witness_Zt0LookupByElement :
    [(30 : Fin 32), 31, 0, 1].Nodup ∧ [(30 : Fin 32), 31, 0, 1][3]? = some 1 ∧ 3 < (on .v128).vlBits / TableESize.s.bits
    ∧ ((2 : Fin 32) ∉ [(30 : Fin 32), 31, 0, 1] ∧ (on .v128).vlBits ≤ 128)
    ∧ (Sme2Ready (on .v128) ∧ (on .v128).pstateSM = true ∧ (on .v128).pstateZA = true)
    ∧ (Sme2Ready (busy false true) ∧ (busy false true).pstateSM = false)
    ∧ (Sme2Ready (busy true false) ∧ (busy true false).pstateSM = true ∧ (busy true false).pstateZA = false) :=
  ⟨by decide, by decide, by decide +kernel, by decide +kernel, ⟨⟨rfl, rfl, by decide⟩, rfl, rfl⟩,
    ⟨⟨rfl, rfl, by decide⟩, rfl⟩, ⟨⟨rfl, rfl, by decide⟩, rfl, rfl⟩⟩

end Sys2Proof.Tests
end

section
/-! PROOFS. The program counter after an instruction that completes (10_state.md R36, D6;
47_named_instructions.md R281). -/

namespace Sys2Proof.Proofs

open Sys2Proof.Machine Sys2Proof.Laws

/-- The last step of an instruction is guarded: nothing completes in the last four bytes of the address space. -/
theorem pc_add_four_lt_of_exec {i : Instr} {s t : State} (h : exec i s = .next t) : s.pc.toNat + 4 < 2 ^ 64 := by
  obtain ⟨-, -, hlt, -⟩ := exec_next h
  exact hlt

/-- The next pc as a word; this equation alone would also hold of a pc that wraps. -/
theorem pc_of_exec {i : Instr} {s t : State} (h : exec i s = .next t) : t.pc = s.pc + 4#64 := by
  obtain ⟨u, -, -, rfl⟩ := exec_next h
  rfl

/-- Settles O28: the next pc is the word `pc + 4`, whose value is the sum since the guard of the last step keeps it
below 2^64. -/
theorem pcMovesByFourWithoutWrapping : Obligations.PcMovesByFourWithoutWrapping := by
  intro i s t h
  have hlt : s.pc.toNat + (4#64).toNat < 2 ^ 64 := pc_add_four_lt_of_exec h
  calc t.pc.toNat = (s.pc + 4#64).toNat := by rw [pc_of_exec h]
    _ = s.pc.toNat + 4 := BitVec.toNat_add_of_lt hlt

end Sys2Proof.Proofs
end

section
/-! PROOFS. The memory accesses that do not complete: refused for alignment (20_memory.md R62, D4), refused for program
text (R67, D8), stuck outside the launch memory (R60, D2). Each own effect of a load or store has one equation per way
it stops, in the order in which the effect checks them. -/

namespace Sys2Proof.Proofs

open Sys2Proof.Machine Sys2Proof.Safety Sys2Proof.Laws

/-! The checks that fail, in the words of the statements. -/

theorem baseAligned_of_aligned {s : State} {r : XnSP} (h : (s.base r).toNat % 16 = 0) : s.baseAligned r = true :=
  (baseAligned_iff s r).mpr h

theorem baseAligned_of_misaligned {s : State} {r : XnSP} (h : (s.base r).toNat % 16 ≠ 0) : s.baseAligned r = false :=
  Bool.eq_false_iff.mpr (mt (baseAligned_iff s r).mp h)

theorem admits_of_not_mapped {m : Memory} {a n : Nat} (h : ¬ Mapped m a n) : m.admits a n = false :=
  Bool.eq_false_iff.mpr (mt (admits_iff_mapped m a n).mp h)

theorem someMapped_of_not_noText {text : Memory} {a n : Nat} (h : ¬ NoText text a n) : text.someMapped a n = true :=
  Bool.eq_true_of_not_eq_false (mt (someMapped_false_iff text a n).mp h)

/-- One Active element outside the launch memory is enough for the whole slice not to be admitted. -/
theorem elemsAdmitted_of_not_mapped {m : Memory} {start b n e : Nat} {active : Nat → Bool} (he : e < n)
    (ha : active e = true) (h : ¬ Mapped m (start + e * b) b) : elemsAdmitted m start b active n = false := by
  rw [Bool.eq_false_iff, Ne, elemsAdmitted_iff]
  intro hall
  exact h ((admits_iff_mapped _ _ _).mp (hall e he ha))

/-- One Active element with a byte of program text is enough. -/
theorem elemsInText_of_not_noText {text : Memory} {start b n e : Nat} {active : Nat → Bool} (he : e < n)
    (ha : active e = true) (h : ¬ NoText text (start + e * b) b) : elemsInText text start b active n = true :=
  (elemsInText_iff text start b active n).mpr ⟨e, he, ha, someMapped_of_not_noText h⟩

theorem elemsInText_of_noText {text : Memory} {start b n : Nat} {active : Nat → Bool}
    (h : ∀ e < n, active e = true → NoText text (start + e * b) b) : elemsInText text start b active n = false := by
  rw [Bool.eq_false_iff, Ne, elemsInText_iff]
  rintro ⟨e, he, ha, hsome⟩
  have hnone := (someMapped_false_iff text (start + e * b) b).mpr (h e he ha)
  exact Bool.false_ne_true (hnone.symm.trans hsome)

/-! Stores of consecutive bytes. -/

theorem storeBytes_of_text {s : State} {a : Nat} {bs : List Byte} (h : ¬ NoText s.text a bs.length) :
    storeBytes s a bs = .refused .storeToProgramText := if_pos (someMapped_of_not_noText h)

theorem storeBytes_of_not_mapped {s : State} {a : Nat} {bs : List Byte} (ht : NoText s.text a bs.length)
    (hm : ¬ Mapped s.mem a bs.length) : storeBytes s a bs = .fault (.outsideLaunchMemory s.pc) := by
  rw [storeBytes, (someMapped_false_iff _ _ _).mpr ht, admits_of_not_mapped hm]
  rfl

/-! LDR and STR (array vector). -/

section ArrayVector

variable {s : State} {a : ArrayOperands}

theorem loadArrayVector_of_misaligned (h : (s.base a.base).toNat % 16 ≠ 0) :
    loadArrayVector a s = .refused .misalignedBase := by
  rw [loadArrayVector, baseAligned_of_misaligned h]
  rfl

theorem loadArrayVector_of_not_mapped (h : (s.base a.base).toNat % 16 = 0)
    (hm : ¬ Mapped s.mem (s.arrayAddr a) s.svlB) : loadArrayVector a s = .fault (.outsideLaunchMemory s.pc) := by
  rw [loadArrayVector, baseAligned_of_aligned h, admits_of_not_mapped hm]
  rfl

theorem storeArrayVector_of_misaligned (h : (s.base a.base).toNat % 16 ≠ 0) :
    storeArrayVector a s = .refused .misalignedBase := by
  rw [storeArrayVector, baseAligned_of_misaligned h]
  rfl

/-- From an aligned base the store is a store of the bytes of the selected array vector. -/
theorem storeArrayVector_of_aligned (h : (s.base a.base).toNat % 16 = 0) :
    storeArrayVector a s =
      storeBytes s (s.arrayAddr a) (leBytes (s.zaVec (s.selectVector a.wv a.offs.val)) s.svlB) := by
  rw [storeArrayVector, baseAligned_of_aligned h]
  exact if_neg Bool.false_ne_true

theorem exec_ldrArray_of_ready (h : SmeReady s) (hz : s.pstateZA = true) :
    exec (.ldrArray a) s = loadArrayVector a s := checked_k2 h.feature h.access hz

theorem exec_strArray_of_ready (h : SmeReady s) (hz : s.pstateZA = true) :
    exec (.strArray a) s = storeArrayVector a s := checked_k2 h.feature h.access hz

end ArrayVector

/-! LDR and STR (table). -/

section Table

variable {s : State} {r : XnSP}

theorem loadTable_of_misaligned (h : (s.base r).toNat % 16 ≠ 0) : loadTable r s = .refused .misalignedBase := by
  rw [loadTable, baseAligned_of_misaligned h]
  rfl

theorem loadTable_of_not_mapped (h : (s.base r).toNat % 16 = 0) (hm : ¬ Mapped s.mem (s.base r).toNat 64) :
    loadTable r s = .fault (.outsideLaunchMemory s.pc) := by
  rw [loadTable, baseAligned_of_aligned h, admits_of_not_mapped hm]
  rfl

theorem storeTable_of_misaligned (h : (s.base r).toNat % 16 ≠ 0) : storeTable r s = .refused .misalignedBase := by
  rw [storeTable, baseAligned_of_misaligned h]
  rfl

/-- From an aligned base the store is a store of the 64 bytes of ZT0. -/
theorem storeTable_of_aligned (h : (s.base r).toNat % 16 = 0) :
    storeTable r s = storeBytes s (s.base r).toNat (leBytes s.zt0 64) := by
  rw [storeTable, baseAligned_of_aligned h]
  exact if_neg Bool.false_ne_true

theorem exec_ldrTable_of_ready (h : Sme2Ready s) (hz : s.pstateZA = true) :
    exec (.ldrTable r) s = loadTable r s := checked_k2 h.feature h.access hz

theorem exec_strTable_of_ready (h : Sme2Ready s) (hz : s.pstateZA = true) :
    exec (.strTable r) s = storeTable r s := checked_k2 h.feature h.access hz

end Table

/-! LD1 and ST1 (tile slice). -/

section TileSlice

variable {s : State} {es : ESize} {a : SliceMemOperands} {e : Nat}

theorem tileLoad_of_misaligned (h : s.sliceStart es a % es.bytes ≠ 0) :
    tileLoad es a s = .refused .misalignedStart := if_pos h

theorem tileStore_of_misaligned (h : s.sliceStart es a % es.bytes ≠ 0) :
    tileStore es a s = .refused .misalignedStart := if_pos h

theorem tileLoad_of_not_mapped (h : s.sliceStart es a % es.bytes = 0) (he : e < s.tileDim es)
    (ha : s.active a.pg es e = true) (hm : ¬ Mapped s.mem (s.sliceStart es a + e * es.bytes) es.bytes) :
    tileLoad es a s = .fault (.outsideLaunchMemory s.pc) := by
  rw [tileLoad, if_neg (not_not_intro h), elemsAdmitted_of_not_mapped he ha hm]
  rfl

theorem tileStore_of_text (h : s.sliceStart es a % es.bytes = 0) (he : e < s.tileDim es)
    (ha : s.active a.pg es e = true) (ht : ¬ NoText s.text (s.sliceStart es a + e * es.bytes) es.bytes) :
    tileStore es a s = .refused .storeToProgramText := by
  rw [tileStore, if_neg (not_not_intro h), if_pos (elemsInText_of_not_noText he ha ht)]

theorem tileStore_of_not_mapped (h : s.sliceStart es a % es.bytes = 0) (he : e < s.tileDim es)
    (ha : s.active a.pg es e = true) (hm : ¬ Mapped s.mem (s.sliceStart es a + e * es.bytes) es.bytes)
    (ht : ∀ f < s.tileDim es, s.active a.pg es f = true →
      NoText s.text (s.sliceStart es a + f * es.bytes) es.bytes) :
    tileStore es a s = .fault (.outsideLaunchMemory s.pc) := by
  rw [tileStore, if_neg (not_not_intro h), elemsInText_of_noText ht, elemsAdmitted_of_not_mapped he ha hm]
  rfl

theorem exec_tileLoad_of_ready (h : TileReady s) : exec (Instr.tileLoad es a) s = tileLoad es a s :=
  (exec_tileLoad es a s).trans (checked_k3 h)

theorem exec_tileStore_of_ready (h : TileReady s) : exec (Instr.tileStore es a) s = tileStore es a s :=
  (exec_tileStore es a s).trans (checked_k3 h)

end TileSlice

/-! The statements. -/

/-- Settles O26: the alignment check passes, no store meets text, and the check of the launch memory fails; for a tile
slice, at the Active element that is given. -/
theorem accessOutsideMemoryIsStuck : Obligations.AccessOutsideMemoryIsStuck := by
  intro s
  refine ⟨fun hs hz a hb hm => ⟨?_, fun ht => ?_⟩, fun hs hz r hb hm => ⟨?_, fun ht => ?_⟩,
    fun hs es a e hb he hg hm => ?_⟩
  · rw [exec_ldrArray_of_ready hs hz, loadArrayVector_of_not_mapped hb hm]
  · rw [exec_strArray_of_ready hs hz, storeArrayVector_of_aligned hb]
    exact storeBytes_of_not_mapped (by rwa [leBytes_length]) (by rwa [leBytes_length])
  · rw [exec_ldrTable_of_ready hs hz, loadTable_of_not_mapped hb hm]
  · rw [exec_strTable_of_ready hs hz, storeTable_of_aligned hb]
    exact storeBytes_of_not_mapped (by rwa [leBytes_length]) (by rwa [leBytes_length])
  · have ha : s.active a.pg es e = true := (active_eq_governs hs.sm a.pg he).trans hg
    refine ⟨?_, fun ht => ?_⟩
    · rw [exec_tileLoad_of_ready hs, tileLoad_of_not_mapped hb he ha hm]
    · rw [exec_tileStore_of_ready hs]
      refine tileStore_of_not_mapped hb he ha hm fun f hf hactive => ht f hf ?_
      rwa [← active_eq_governs hs.sm a.pg hf]

/-- Settles O27: a store looks for text before it looks at the launch memory. -/
theorem storeToProgramTextRefused : Obligations.StoreToProgramTextRefused := by
  intro s
  refine ⟨fun hs hz a hb ht => ?_, fun hs hz r hb ht => ?_, fun hs es a e hb he hg ht => ?_⟩
  · rw [exec_strArray_of_ready hs hz, storeArrayVector_of_aligned hb]
    exact storeBytes_of_text (by rwa [leBytes_length])
  · rw [exec_strTable_of_ready hs hz, storeTable_of_aligned hb]
    exact storeBytes_of_text (by rwa [leBytes_length])
  · have ha : s.active a.pg es e = true := (active_eq_governs hs.sm a.pg he).trans hg
    rw [exec_tileStore_of_ready hs, tileStore_of_text hb he ha ht]

/-- Settles O25: alignment is the first check of every load and store. -/
theorem misalignedAccessRefused : Obligations.MisalignedAccessRefused := by
  intro s
  refine ⟨fun hs hz a hb => ⟨?_, ?_⟩, fun hs hz r hb => ⟨?_, ?_⟩, fun hs es a hb => ⟨?_, ?_⟩⟩
  · rw [exec_ldrArray_of_ready hs hz, loadArrayVector_of_misaligned hb]
  · rw [exec_strArray_of_ready hs hz, storeArrayVector_of_misaligned hb]
  · rw [exec_ldrTable_of_ready hs hz, loadTable_of_misaligned hb]
  · rw [exec_strTable_of_ready hs hz, storeTable_of_misaligned hb]
  · rw [exec_tileLoad_of_ready hs, tileLoad_of_misaligned hb]
  · rw [exec_tileStore_of_ready hs, tileStore_of_misaligned hb]

end Sys2Proof.Proofs
end

section
/-! PROOFS. Encoding and decoding (30_encoding.md R80-R82, R88; the encoding lines of 47_named_instructions.md
R284-R316). A field of an encoded word is read where it was placed, because no other field and no fixed bit of the row
lies there; the fields of a word, put back in place, are the bits outside the mask of its row. -/

namespace Sys2Proof.Proofs

open Sys2Proof.Laws

/-! The families of five element sizes: the row, the operand bits and the well-formedness. -/

theorem opc_tileLoad (es : ESize) (a : SliceMemOperands) : (Instr.tileLoad es a).opc = .ld1 es := by cases es <;> rfl

theorem opc_tileStore (es : ESize) (a : SliceMemOperands) : (Instr.tileStore es a).opc = .st1 es := by cases es <;> rfl

theorem opc_movaToVector (es : ESize) (a : MovaOperands) : (Instr.movaToVector es a).opc = .movaT2V es := by
  cases es <;> rfl

theorem opc_movaToTile (es : ESize) (a : MovaOperands) : (Instr.movaToTile es a).opc = .movaV2T es := by
  cases es <;> rfl

theorem fields_tileLoad (es : ESize) (a : SliceMemOperands) : (Instr.tileLoad es a).fields = a.fields es := by
  cases es <;> rfl

theorem fields_tileStore (es : ESize) (a : SliceMemOperands) : (Instr.tileStore es a).fields = a.fields es := by
  cases es <;> rfl

theorem fields_movaToVector (es : ESize) (a : MovaOperands) : (Instr.movaToVector es a).fields = a.fieldsT2V es := by
  cases es <;> rfl

theorem fields_movaToTile (es : ESize) (a : MovaOperands) : (Instr.movaToTile es a).fields = a.fieldsV2T es := by
  cases es <;> rfl

theorem wf_tileLoad (es : ESize) (a : SliceMemOperands) : (Instr.tileLoad es a).wf = a.slice.wf es := by
  cases es <;> rfl

theorem wf_tileStore (es : ESize) (a : SliceMemOperands) : (Instr.tileStore es a).wf = a.slice.wf es := by
  cases es <;> rfl

theorem wf_movaToVector (es : ESize) (a : MovaOperands) : (Instr.movaToVector es a).wf = a.slice.wf es := by
  cases es <;> rfl

theorem wf_movaToTile (es : ESize) (a : MovaOperands) : (Instr.movaToTile es a).wf = a.slice.wf es := by
  cases es <;> rfl

/-! Rows and words. -/

theorem matchesWord_iff (o : Opc) (w : IWord) : o.matchesWord w = true ↔ w &&& o.mask = o.value := beq_iff_eq

/-- The word of an instruction matches the instruction's row, well-formed or not. -/
theorem opc_matchesWord_encodeWord (i : Instr) : i.opc.matchesWord (encodeWord i) = true := by
  rw [matchesWord_iff]
  cases i with
  | ldrArray a => exact MatchesRow.ldrArray a
  | strArray a => exact MatchesRow.strArray a
  | zeroTiles m => exact MatchesRow.zeroTiles m
  | ldrTable r => exact MatchesRow.ldrTable r
  | strTable r => exact MatchesRow.strTable r
  | zeroTable => exact MatchesRow.zeroTable
  | smstartSM => exact MatchesRow.smstartSM
  | smstopSM => exact MatchesRow.smstopSM
  | smstartZA => exact MatchesRow.smstartZA
  | smstopZA => exact MatchesRow.smstopZA
  | smstart => exact MatchesRow.smstart
  | smstop => exact MatchesRow.smstop
  | msrSVCR r => exact MatchesRow.msrSVCR r
  | mrsSVCR r => exact MatchesRow.mrsSVCR r
  | ld1b a => exact MatchesRow.ld1b a
  | ld1h a => exact MatchesRow.ld1h a
  | ld1w a => exact MatchesRow.ld1w a
  | ld1d a => exact MatchesRow.ld1d a
  | ld1q a => exact MatchesRow.ld1q a
  | st1b a => exact MatchesRow.st1b a
  | st1h a => exact MatchesRow.st1h a
  | st1w a => exact MatchesRow.st1w a
  | st1d a => exact MatchesRow.st1d a
  | st1q a => exact MatchesRow.st1q a
  | movaT2VB a => exact MatchesRow.movaT2VB a
  | movaT2VH a => exact MatchesRow.movaT2VH a
  | movaT2VS a => exact MatchesRow.movaT2VS a
  | movaT2VD a => exact MatchesRow.movaT2VD a
  | movaT2VQ a => exact MatchesRow.movaT2VQ a
  | movaV2TB a => exact MatchesRow.movaV2TB a
  | movaV2TH a => exact MatchesRow.movaV2TH a
  | movaV2TS a => exact MatchesRow.movaV2TS a
  | movaV2TD a => exact MatchesRow.movaV2TD a
  | movaV2TQ a => exact MatchesRow.movaV2TQ a

/-- A word that matches no row of the table is refused under its name. -/
theorem decodeWord_of_no_match {w : IWord} (h : ∀ o ∈ opcTable, o.matchesWord w = false) :
    decodeWord w = .error (rejectName w) := by
  have hfind : opcTable.find? (fun o => o.matchesWord w) = none :=
    List.find?_eq_none.mpr fun o ho => Bool.eq_false_iff.mp (h o ho)
  rw [decodeWord, hfind]

theorem decode_cons (b0 b1 b2 b3 : Byte) (rest : List Byte) :
    decode (b0 :: b1 :: b2 :: b3 :: rest) = (decodeWord (wordOfBytes b0 b1 b2 b3)).map (fun i => (i, rest)) := by
  rw [decode]
  cases decodeWord (wordOfBytes b0 b1 b2 b3) <;> rfl

theorem decodeWord_of_decode_cons {b0 b1 b2 b3 : Byte} {rest : List Byte} {i : Instr}
    (h : decode (b0 :: b1 :: b2 :: b3 :: rest) = .ok (i, rest)) : decodeWord (wordOfBytes b0 b1 b2 b3) = .ok i := by
  rw [decode_cons] at h
  cases hw : decodeWord (wordOfBytes b0 b1 b2 b3) with
  | error e => rw [hw] at h; cases h
  | ok j => rw [hw] at h; cases h; rfl

/-- The bytes of a word decode as the word does. -/
theorem decode_bytesOfWord_append (w : IWord) (rest : List Byte) :
    decode (bytesOfWord w ++ rest) = (decodeWord w).map (fun i => (i, rest)) := by
  rw [bytesOfWord, List.cons_append, List.cons_append, List.cons_append, List.cons_append, List.nil_append,
    decode_cons, wordOfBytes_bytesOfWord]

/-! From the instruction to the word and back: every field is read where it was placed. -/

/-- The fixed bits of a word do not show in a field that the mask leaves out. -/
theorem wordField_fixed_or {mask v : IWord} {lo len : Nat} (u : IWord) (hv : v &&& mask = v)
    (hm : wordField mask lo len = 0#len) : wordField (v ||| u) lo len = wordField u lo len := by
  have hzero : wordField v lo len = 0#len := by
    rw [← hv, wordField, BitVec.extractLsb'_and]
    exact (congrArg _ hm).trans BitVec.and_zero
  rw [wordField_or, hzero, BitVec.zero_or]

/-- A word with the three fields of a well-formed slice operand holds that slice operand. -/
theorem sliceOfWord_of_fields {es : ESize} {lo : Nat} {w : IWord} {r : SliceRef} (h : r.wf es = true)
    (hdir : wordField w 15 1 = r.dir.toField) (hws : wordField w 13 2 = r.ws.toField)
    (hti : wordField w lo 4 = tileField es r) : sliceOfWord es lo w = r := by
  obtain ⟨htile, hoffs⟩ := tileField_split h
  rw [sliceOfWord, hdir, hws, hti, SliceDir_ofField_toField, SelReg_ofField_toField, htile, hoffs]

/-! The fields of each operand group, read in a word whose other bits are fixed bits of the row. -/

theorem wordField_arrayFields {v : IWord} (a : ArrayOperands) (hv : v &&& 0xFFFF9C10#32 = v) :
    wordField (v ||| a.fields) 13 2 = a.wv.toField ∧ wordField (v ||| a.fields) 5 5 = a.base.toField
      ∧ wordField (v ||| a.fields) 0 4 = BitVec.ofNat 4 a.offs.val := by
  refine ⟨?_, ?_, ?_⟩ <;> rw [wordField_fixed_or _ hv (by decide)] <;>
    simp [ArrayOperands.fields, wordField_or, wordField_placeField_same, wordField_placeField_other]

theorem wordField_sliceMemFields {es : ESize} {v : IWord} (a : SliceMemOperands) (hv : v &&& 0xFFE00010#32 = v) :
    (wordField (v ||| a.fields es) 15 1 = a.slice.dir.toField
      ∧ wordField (v ||| a.fields es) 13 2 = a.slice.ws.toField
      ∧ wordField (v ||| a.fields es) 0 4 = tileField es a.slice)
    ∧ wordField (v ||| a.fields es) 10 3 = BitVec.ofNat 3 a.pg.val
      ∧ wordField (v ||| a.fields es) 5 5 = a.base.toField
      ∧ wordField (v ||| a.fields es) 16 5 = a.index.toField := by
  refine ⟨⟨?_, ?_, ?_⟩, ?_, ?_, ?_⟩ <;> rw [wordField_fixed_or _ hv (by decide)] <;>
    simp [SliceMemOperands.fields, SliceRef.fields, wordField_or, wordField_placeField_same, wordField_placeField_other]

theorem wordField_movaT2VFields {es : ESize} {v : IWord} (a : MovaOperands) (hv : v &&& 0xFFFF0200#32 = v) :
    (wordField (v ||| a.fieldsT2V es) 15 1 = a.slice.dir.toField
      ∧ wordField (v ||| a.fieldsT2V es) 13 2 = a.slice.ws.toField
      ∧ wordField (v ||| a.fieldsT2V es) 5 4 = tileField es a.slice)
    ∧ wordField (v ||| a.fieldsT2V es) 10 3 = BitVec.ofNat 3 a.pg.val
      ∧ wordField (v ||| a.fieldsT2V es) 0 5 = BitVec.ofNat 5 a.z.val := by
  refine ⟨⟨?_, ?_, ?_⟩, ?_, ?_⟩ <;> rw [wordField_fixed_or _ hv (by decide)] <;>
    simp [MovaOperands.fieldsT2V, SliceRef.fields, wordField_or, wordField_placeField_same, wordField_placeField_other]

theorem wordField_movaV2TFields {es : ESize} {v : IWord} (a : MovaOperands) (hv : v &&& 0xFFFF0010#32 = v) :
    (wordField (v ||| a.fieldsV2T es) 15 1 = a.slice.dir.toField
      ∧ wordField (v ||| a.fieldsV2T es) 13 2 = a.slice.ws.toField
      ∧ wordField (v ||| a.fieldsV2T es) 0 4 = tileField es a.slice)
    ∧ wordField (v ||| a.fieldsV2T es) 10 3 = BitVec.ofNat 3 a.pg.val
      ∧ wordField (v ||| a.fieldsV2T es) 5 5 = BitVec.ofNat 5 a.z.val := by
  refine ⟨⟨?_, ?_, ?_⟩, ?_, ?_⟩ <;> rw [wordField_fixed_or _ hv (by decide)] <;>
    simp [MovaOperands.fieldsV2T, SliceRef.fields, wordField_or, wordField_placeField_same, wordField_placeField_other]

theorem wordField_placeField_fixed_or {n lo : Nat} {mask v : IWord} (f : BitVec n) (h : lo + n ≤ 32)
    (hv : v &&& mask = v) (hm : wordField mask lo n = 0#n) : wordField (v ||| placeField f lo) lo n = f := by
  rw [wordField_fixed_or _ hv hm, wordField_placeField_same f h]

/-! Each operand group, read from the word it was placed in. -/

theorem arrayOfWord_or_fields {v : IWord} (a : ArrayOperands) (hv : v &&& 0xFFFF9C10#32 = v) :
    arrayOfWord (v ||| a.fields) = a := by
  obtain ⟨hwv, hbase, hoffs⟩ := wordField_arrayFields a hv
  rw [arrayOfWord, hwv, hbase, hoffs, SelReg_ofField_toField, XnSP_ofField_toField]
  simp

theorem sliceMemOfWord_or_fields {es : ESize} {v : IWord} {a : SliceMemOperands} (hv : v &&& 0xFFE00010#32 = v)
    (h : a.slice.wf es = true) : sliceMemOfWord es (v ||| a.fields es) = a := by
  obtain ⟨⟨hdir, hws, hti⟩, hpg, hbase, hindex⟩ := wordField_sliceMemFields a hv
  rw [sliceMemOfWord, sliceOfWord_of_fields h hdir hws hti, hpg, hbase, hindex, XnSP_ofField_toField,
    XnZR_ofField_toField]
  simp

theorem movaT2VOfWord_or_fields {es : ESize} {v : IWord} {a : MovaOperands} (hv : v &&& 0xFFFF0200#32 = v)
    (h : a.slice.wf es = true) : movaT2VOfWord es (v ||| a.fieldsT2V es) = a := by
  obtain ⟨⟨hdir, hws, hti⟩, hpg, hz⟩ := wordField_movaT2VFields a hv
  rw [movaT2VOfWord, sliceOfWord_of_fields h hdir hws hti, hpg, hz]
  simp

theorem movaV2TOfWord_or_fields {es : ESize} {v : IWord} {a : MovaOperands} (hv : v &&& 0xFFFF0010#32 = v)
    (h : a.slice.wf es = true) : movaV2TOfWord es (v ||| a.fieldsV2T es) = a := by
  obtain ⟨⟨hdir, hws, hti⟩, hpg, hz⟩ := wordField_movaV2TFields a hv
  rw [movaV2TOfWord, sliceOfWord_of_fields h hdir hws hti, hpg, hz]
  simp

theorem XnSP_ofField_or_fields {mask v : IWord} (r : XnSP) (hv : v &&& mask = v) (hm : wordField mask 5 5 = 0#5) :
    XnSP.ofField (wordField (v ||| placeField r.toField 5) 5 5) = r := by
  rw [wordField_placeField_fixed_or _ (by decide) hv hm, XnSP_ofField_toField]

theorem XnZR_ofField_or_fields {mask v : IWord} (r : XnZR) (hv : v &&& mask = v) (hm : wordField mask 0 5 = 0#5) :
    XnZR.ofField (wordField (v ||| placeField r.toField 0) 0 5) = r := by
  rw [wordField_placeField_fixed_or _ (by decide) hv hm, XnZR_ofField_toField]

/-- A row builds from the word of its well-formed instruction that instruction. -/
theorem build_encodeWord {i : Instr} (h : i.wf = true) : i.opc.build (encodeWord i) = i := by
  rw [encodeWord]
  induction i using instr_cases with
  | ldrArray a => exact congrArg Instr.ldrArray (arrayOfWord_or_fields a (value_and_mask .ldrArray))
  | strArray a => exact congrArg Instr.strArray (arrayOfWord_or_fields a (value_and_mask .strArray))
  | zeroTiles m =>
    exact congrArg Instr.zeroTiles
      (wordField_placeField_fixed_or m (by decide) (value_and_mask .zeroTiles) (by decide))
  | ldrTable r => exact congrArg Instr.ldrTable (XnSP_ofField_or_fields r (value_and_mask .ldrTable) (by decide))
  | strTable r => exact congrArg Instr.strTable (XnSP_ofField_or_fields r (value_and_mask .strTable) (by decide))
  | zeroTable | smstartSM | smstopSM | smstartZA | smstopZA | smstart | smstop => rfl
  | msrSVCR r => exact congrArg Instr.msrSVCR (XnZR_ofField_or_fields r (value_and_mask .msrSVCR) (by decide))
  | mrsSVCR r => exact congrArg Instr.mrsSVCR (XnZR_ofField_or_fields r (value_and_mask .mrsSVCR) (by decide))
  | load es a =>
    rw [wf_tileLoad] at h
    rw [opc_tileLoad, fields_tileLoad]
    exact congrArg (Instr.tileLoad es) (sliceMemOfWord_or_fields (value_and_mask (.ld1 es)) h)
  | store es a =>
    rw [wf_tileStore] at h
    rw [opc_tileStore, fields_tileStore]
    exact congrArg (Instr.tileStore es) (sliceMemOfWord_or_fields (value_and_mask (.st1 es)) h)
  | toVector es a =>
    rw [wf_movaToVector] at h
    rw [opc_movaToVector, fields_movaToVector]
    exact congrArg (Instr.movaToVector es) (movaT2VOfWord_or_fields (value_and_mask (.movaT2V es)) h)
  | toTile es a =>
    rw [wf_movaToTile] at h
    rw [opc_movaToTile, fields_movaToTile]
    exact congrArg (Instr.movaToTile es) (movaV2TOfWord_or_fields (value_and_mask (.movaV2T es)) h)

theorem decodeWord_encodeWord {i : Instr} (h : i.wf = true) : decodeWord (encodeWord i) = .ok i := by
  rw [decodeWord_of_matches (opc_matchesWord_encodeWord i), build_encodeWord h]

/-! From the word to the instruction and back: the fields put in place again are the bits outside the mask. -/

theorem placeField_wordField (w : IWord) (lo len : Nat) :
    placeField (wordField w lo len) lo = w &&& placeField (BitVec.allOnes len) lo := by
  apply BitVec.eq_of_getLsbD_eq
  intro i hi
  simp only [placeField, wordField, BitVec.getLsbD_and, BitVec.getLsbD_shiftLeft, BitVec.getLsbD_setWidth,
    BitVec.getLsbD_extractLsb', BitVec.getLsbD_allOnes]
  by_cases hlo : i < lo
  · simp [hlo]
  · simp [hi, hlo, show i - lo < 32 by omega, show lo + (i - lo) = i by omega, Bool.and_comm]

theorem fields_sliceOfWord (es : ESize) (lo : Nat) (w : IWord) :
    (sliceOfWord es lo w).fields es lo = w &&& (placeField (BitVec.allOnes 1) 15 ||| placeField (BitVec.allOnes 2) 13
      ||| placeField (BitVec.allOnes 4) lo) := by
  simp only [SliceRef.fields, sliceOfWord, SliceDir_toField_ofField, SelReg_toField_ofField, tileField_join,
    placeField_wordField, BitVec.and_or_distrib_left]

theorem fields_arrayOfWord (w : IWord) : (arrayOfWord w).fields = w &&& ~~~0xFFFF9C10#32 := by
  simp only [ArrayOperands.fields, arrayOfWord, SelReg_toField_ofField, XnSP_toField_ofField, BitVec.val_toFin,
    BitVec.ofNat_toNat, BitVec.setWidth_eq, placeField_wordField, ← BitVec.and_or_distrib_left]
  rfl

theorem fields_sliceMemOfWord (es : ESize) (w : IWord) :
    (sliceMemOfWord es w).fields es = w &&& ~~~0xFFE00010#32 := by
  simp only [SliceMemOperands.fields, sliceMemOfWord, fields_sliceOfWord, XnSP_toField_ofField, XnZR_toField_ofField,
    BitVec.val_toFin, BitVec.ofNat_toNat, BitVec.setWidth_eq, placeField_wordField, ← BitVec.and_or_distrib_left]
  rfl

theorem fieldsT2V_movaT2VOfWord (es : ESize) (w : IWord) :
    (movaT2VOfWord es w).fieldsT2V es = w &&& ~~~0xFFFF0200#32 := by
  simp only [MovaOperands.fieldsT2V, movaT2VOfWord, fields_sliceOfWord, BitVec.val_toFin, BitVec.ofNat_toNat,
    BitVec.setWidth_eq, placeField_wordField, ← BitVec.and_or_distrib_left]
  rfl

theorem fieldsV2T_movaV2TOfWord (es : ESize) (w : IWord) :
    (movaV2TOfWord es w).fieldsV2T es = w &&& ~~~0xFFFF0010#32 := by
  simp only [MovaOperands.fieldsV2T, movaV2TOfWord, fields_sliceOfWord, BitVec.val_toFin, BitVec.ofNat_toNat,
    BitVec.setWidth_eq, placeField_wordField, ← BitVec.and_or_distrib_left]
  rfl

/-- No operand bit is dropped and none is taken from the fixed bits. -/
theorem fields_build (o : Opc) (w : IWord) : (o.build w).fields = w &&& ~~~o.mask := by
  cases o with
  | ldrArray | strArray => exact fields_arrayOfWord w
  | zeroTiles => exact placeField_wordField w 0 8
  | ldrTable | strTable =>
    exact (congrArg (placeField · 5) (XnSP_toField_ofField _)).trans (placeField_wordField w 5 5)
  | msrSVCR | mrsSVCR =>
    exact (congrArg (placeField · 0) (XnZR_toField_ofField _)).trans (placeField_wordField w 0 5)
  | ld1 es => exact (fields_tileLoad es _).trans (fields_sliceMemOfWord es w)
  | st1 es => exact (fields_tileStore es _).trans (fields_sliceMemOfWord es w)
  | movaT2V es => exact (fields_movaToVector es _).trans (fieldsT2V_movaT2VOfWord es w)
  | movaV2T es => exact (fields_movaToTile es _).trans (fieldsV2T_movaV2TOfWord es w)
  | zeroTable | smstartSM | smstopSM | smstartZA | smstopZA | smstart | smstop => exact BitVec.and_zero.symm

/-- Cutting the shared field of tile number and offset leaves both in their ranges. -/
theorem wf_build (o : Opc) (w : IWord) : (o.build w).wf = true := by
  cases o with
  | ld1 es => exact (wf_tileLoad es _).trans (sliceOfWord_wf es 0 w)
  | st1 es => exact (wf_tileStore es _).trans (sliceOfWord_wf es 0 w)
  | movaT2V es => exact (wf_movaToVector es _).trans (sliceOfWord_wf es 5 w)
  | movaV2T es => exact (wf_movaToTile es _).trans (sliceOfWord_wf es 0 w)
  | _ => rfl

theorem encodeWord_build {o : Opc} {w : IWord} (h : o.matchesWord w = true) : encodeWord (o.build w) = w := by
  calc encodeWord (o.build w) = o.value ||| (w &&& ~~~o.mask) := by rw [encodeWord, opc_build, fields_build]
    _ = (w &&& o.mask) ||| (w &&& ~~~o.mask) := by rw [(matchesWord_iff o w).mp h]
    _ = w := by rw [← BitVec.and_or_distrib_left, BitVec.or_not_self, BitVec.and_allOnes]

/-! The statements. -/

/-- Settles O1: the word of an instruction matches its row, and the row reads every field where it was placed. -/
theorem decodeAfterEncode : Obligations.DecodeAfterEncode := by
  intro i rest h
  rw [encode, decode_bytesOfWord_append, decodeWord_encodeWord h]
  rfl

/-- Settles O2: a word that decodes matches the row of its instruction, whose mask and fields cover every bit. -/
theorem encodeAfterDecode : Obligations.EncodeAfterDecode := by
  intro w i h
  obtain ⟨o, hmatch, rfl⟩ := decodeWord_ok h
  exact ⟨wf_build o w, encodeWord_build hmatch⟩

/-- Settles O3: decoding by either row gives one instruction, and an instruction has one row. -/
theorem rowsAreDisjoint : Obligations.RowsAreDisjoint := by
  intro w a b ha
  refine ⟨fun hb => ?_, decodeWord_of_matches ha⟩
  have hbuild : a.build w = b.build w :=
    Except.ok.inj ((decodeWord_of_matches ha).symm.trans (decodeWord_of_matches hb))
  calc a = (a.build w).opc := (opc_build a w).symm
    _ = (b.build w).opc := by rw [hbuild]
    _ = b := opc_build b w

/-- Settles O4: each word of an instruction matches the row named here, each other word matches no row. -/
theorem specWordsDecodeOrAreRefused : Obligations.SpecWordsDecodeOrAreRefused :=
  ⟨decodeWord_of_matches (o := .ldrArray) (by decide), decodeWord_of_matches (o := .strArray) (by decide),
    decodeWord_of_matches (o := .zeroTiles) (by decide), decodeWord_of_matches (o := .ldrTable) (by decide),
    decodeWord_of_matches (o := .zeroTable) (by decide), decodeWord_of_matches (o := .smstartZA) (by decide),
    decodeWord_of_matches (o := .msrSVCR) (by decide), decodeWord_of_matches (o := .ld1 .h) (by decide),
    decodeWord_of_matches (o := .st1 .d) (by decide), decodeWord_of_matches (o := .movaT2V .s) (by decide),
    decodeWord_of_matches (o := .movaV2T .d) (by decide), decodeWord_of_no_match (by decide),
    decodeWord_of_no_match (by decide), decodeWord_of_no_match (by decide), decodeWord_of_no_match (by decide),
    decodeWord_of_no_match (by decide), decodeWord_of_no_match (by decide), decodeWord_of_no_match (by decide),
    decodeWord_of_no_match (by decide)⟩

end Sys2Proof.Proofs
end

section
/-! PROOFS. The step around an instruction: what is fetched, and when there is nothing to execute (30_encoding.md R80,
R88; 47_named_instructions.md R281). -/

namespace Sys2Proof.Proofs

open Sys2Proof.Machine

/-! Fetching. -/

theorem fetch_of_misaligned {s : State} (h : s.pc.toNat % 4 ≠ 0) : s.fetch = none := if_pos h

theorem fetch_of_bytes {s : State} {b0 b1 b2 b3 : Byte} (ha : s.pc.toNat % 4 = 0)
    (h0 : s.text.byteAt s.pc.toNat = some b0) (h1 : s.text.byteAt (s.pc.toNat + 1) = some b1)
    (h2 : s.text.byteAt (s.pc.toNat + 2) = some b2) (h3 : s.text.byteAt (s.pc.toNat + 3) = some b3) :
    s.fetch = some (wordOfBytes b0 b1 b2 b3) := by
  rw [State.fetch, if_neg (not_not_intro ha), h0, h1, h2, h3]

/-- What a fetched word says of the text: the pc is aligned and all four bytes are there. -/
theorem bytes_of_fetch {s : State} {w : IWord} (h : s.fetch = some w) :
    s.pc.toNat % 4 = 0 ∧ ∀ k < 4, (s.text.byteAt (s.pc.toNat + k)).isSome = true := by
  rw [State.fetch] at h
  split at h
  · cases h
  · next ha =>
    split at h
    · next b0 b1 b2 b3 h0 h1 h2 h3 =>
      refine ⟨not_not.mp ha, fun k hk => ?_⟩
      match k, hk with
      | 0, _ => exact Option.isSome_of_eq_some h0
      | 1, _ => exact Option.isSome_of_eq_some h1
      | 2, _ => exact Option.isSome_of_eq_some h2
      | 3, _ => exact Option.isSome_of_eq_some h3
    · cases h

theorem fetch_of_missing {s : State} {k : Nat} (hk : k < 4) (h : s.text.byteAt (s.pc.toNat + k) = none) :
    s.fetch = none := by
  rw [Option.eq_none_iff_forall_ne_some]
  intro w hw
  obtain ⟨-, hbytes⟩ := bytes_of_fetch hw
  exact absurd (hbytes k hk) (by rw [h]; exact Bool.false_ne_true)

theorem step_of_no_fetch {s : State} (h : s.fetch = none) : step s = .fault (.fetchOutsideText s.pc) := by
  rw [step, h]

theorem step_of_decoded {s : State} {w : IWord} {i : Instr} (h : s.fetch = some w) (hd : decodeWord w = .ok i) :
    step s = exec i s := by
  simp only [step, h, hd]

theorem step_of_rejected {s : State} {w : IWord} {e : DecodeError} (h : s.fetch = some w)
    (hd : decodeWord w = .error e) : step s = .refused (.wordOutsideSpec e) := by
  simp only [step, h, hd]

/-! The statements. -/

/-- Settles O5: the word fetched is the word of the four bytes, and it decodes as the bytes do. -/
theorem stepRunsDecodedInstruction : Obligations.StepRunsDecodedInstruction := by
  intro s b0 b1 b2 b3 i rest ha h0 h1 h2 h3 hd
  exact step_of_decoded (fetch_of_bytes ha h0 h1 h2 h3) (decodeWord_of_decode_cons hd)

/-- Settles O6: the first clause is a fetch of nothing, the second a word of no row. -/
theorem stepStopsWithoutInstruction : Obligations.StepStopsWithoutInstruction := by
  intro s
  refine ⟨fun h => step_of_no_fetch ?_, fun b0 b1 b2 b3 ha h0 h1 h2 h3 hrows => ?_⟩
  · rcases h with hmis | ⟨k, hk, hnone⟩
    · exact fetch_of_misaligned hmis
    · exact fetch_of_missing hk hnone
  · exact ⟨rejectName (wordOfBytes b0 b1 b2 b3),
      step_of_rejected (fetch_of_bytes ha h0 h1 h2 h3) (decodeWord_of_no_match fun o _ => hrows o)⟩

end Sys2Proof.Proofs
end

section
/-! PROOFS. Vector lengths: which length is selected, what a change of VL leaves in the vector and predicate registers,
and what exception entry and return keep (40_vector_lengths.md R102-R118). -/

namespace Sys2Proof.Proofs

open Sys2Proof.Machine Sys2Proof.Safety Sys2Proof.Laws

/-! Selection. -/

/-- Whatever a selection parameter answers, an implemented length is selected. -/
theorem selectLen_mem (sel : LenSelect) (c : Params) {set : List VecLen} {largest : VecLen} (el : ELevel)
    (r : LenFields) (h : largest ∈ set) : selectLen sel c set largest el r ∈ set := by
  unfold selectLen
  split
  · split
    · next hl => exact List.contains_iff_mem.mp hl
    · exact h
  · exact h

theorem mem_nsvlSet_iff (c : Params) (l : VecLen) : l ∈ nsvlSet c ↔ l.bits ≤ c.maxNSVL.bits := by
  have hall : l ∈ VecLen.all := by cases l <;> decide
  simp only [nsvlSet, List.mem_filter, hall, true_and, decide_eq_true_eq]

/-- What consistent parameters say of SVLSet: it holds MaxSVL and nothing longer. -/
theorem svlSet_of_ok {c : Params} (h : c.ok = true) :
    c.maxSVL ∈ c.svlSet ∧ ∀ l ∈ c.svlSet, l.bits ≤ c.maxSVL.bits := by
  simp only [Params.ok, Bool.and_eq_true, List.contains_iff_mem, List.all_eq_true, decide_eq_true_eq] at h
  obtain ⟨⟨⟨⟨hmax, hle⟩, -⟩, -⟩, -⟩ := h
  exact ⟨hmax, hle⟩

/-! A change of VL. -/

theorem changeVL_of_le (s : State) {old new : Nat} (preserved : Bool) (h : new ≤ old) :
    s.changeVL old new preserved = s := if_pos h

/-- Both values of the choice of R111. -/
theorem fillOnIncrease_eq_or_cleared {W : Nat} (keep : Bool) (old new : Nat) (v : BitVec W) :
    fillOnIncrease keep old new v = v ∨ ∀ b, (fillOnIncrease keep old new v).getLsbD b
      = (!(decide (old ≤ b ∧ b < new)) && v.getLsbD b) := by
  cases keep with
  | true => exact .inl rfl
  | false =>
    refine .inr fun b => ?_
    rw [fillOnIncrease, if_neg Bool.false_ne_true, getLsbD_mergeLow, getLsbD_lowBits]
    by_cases hnew : b < new
    · by_cases hold : b < old
      · simp [hnew, hold, Nat.not_le.mpr hold]
      · simp [hnew, hold, Nat.not_lt.mp hold]
    · simp [hnew]

/-- Where VL does not rise or the PE preserves the state, the registers are as they were. -/
theorem changeVL_keeps_registers (s : State) {old new : Nat} {preserved : Bool} (h : new ≤ old ∨ preserved = true) :
    (s.changeVL old new preserved).z = s.z ∧ (s.changeVL old new preserved).p = s.p
      ∧ (s.changeVL old new preserved).ffr = s.ffr := by
  rcases h with hle | rfl
  · rw [changeVL_of_le s preserved hle]
    exact ⟨rfl, rfl, rfl⟩
  · refine ⟨Vector.ext fun n hn => ?_, Vector.ext fun n hn => ?_, ?_⟩
    · exact (changeVL_z s old new true ⟨n, hn⟩).trans (ite_self _)
    · exact (changeVL_p s old new true ⟨n, hn⟩).trans (ite_self _)
    · exact (changeVL_ffr s old new true).trans (ite_self _)

/-- Bits below the old VL are as they were, whatever the new one is. -/
theorem restoredAt_changeVL (s : State) {m old : Nat} (new : Nat) (preserved : Bool) (h : m ≤ old) :
    restoredAt m s (s.changeVL old new preserved) := by
  have h8 : m / 8 ≤ old / 8 := Nat.div_le_div_right h
  by_cases hle : new ≤ old
  · rw [changeVL_of_le s preserved hle]
    exact ⟨fun _ => rfl, fun _ => rfl, rfl⟩
  · refine ⟨fun n => ?_, fun n => ?_, ?_⟩
    · rw [changeVL_z, if_neg hle, lowBits_fillOnIncrease _ _ _ h]
    · rw [changeVL_p, if_neg hle, lowBits_fillOnIncrease _ _ _ h8]
    · rw [changeVL_ffr, if_neg hle, lowBits_fillOnIncrease _ _ _ h8]

/-! Sequences of length events. -/

theorem restoredAt_refl (m : Nat) (s : State) : restoredAt m s s := ⟨fun _ => rfl, fun _ => rfl, rfl⟩

theorem restoredAt_trans {m : Nat} {s t u : State} (hst : restoredAt m s t) (htu : restoredAt m t u) :
    restoredAt m s u := by
  obtain ⟨hz, hp, hf⟩ := hst
  obtain ⟨hz', hp', hf'⟩ := htu
  exact ⟨fun n => (hz' n).trans (hz n), fun n => (hp' n).trans (hp n), hf'.trans hf⟩

/-- A LEN field or the level written, then the change of VL that follows from it. -/
theorem restoredAt_afterLengthEvent {s after : State} {m : Nat} (preserved : Bool) (h : m ≤ s.vlBits)
    (hz : after.z = s.z) (hp : after.p = s.p) (hf : after.ffr = s.ffr) :
    restoredAt m s (s.afterLengthEvent after preserved) := by
  have hchange := restoredAt_changeVL after after.vlBits preserved h
  unfold restoredAt at hchange ⊢
  rwa [afterLengthEvent_z, afterLengthEvent_p, afterLengthEvent_ffr, ← hz, ← hp, ← hf]

theorem restoredAt_applyEvent {s : State} {e : Event} {m : Nat} (he : isLengthEvent e = true) (h : m ≤ s.vlBits) :
    restoredAt m s (applyEvent e s) := by
  cases e with
  | writeSmcrLen lvl v =>
    cases ha : s.smcrAccessible lvl with
    | true =>
      rw [applyEvent, writeSmcrLen_accessible v ha]
      exact restoredAt_afterLengthEvent _ h rfl rfl rfl
    | false =>
      rw [applyEvent, writeSmcrLen_inaccessible v ha]
      exact restoredAt_refl m s
  | writeZcrLen lvl v =>
    cases ha : s.zcrAccessible lvl with
    | true =>
      rw [applyEvent, writeZcrLen_accessible v ha]
      exact restoredAt_afterLengthEvent _ h rfl rfl rfl
    | false =>
      rw [applyEvent, writeZcrLen_inaccessible v ha]
      exact restoredAt_refl m s
  | exceptionEntry target => exact restoredAt_afterLengthEvent _ h rfl rfl rfl
  | exceptionReturn target => exact restoredAt_afterLengthEvent _ h rfl rfl rfl
  | setSM v => cases he
  | setZA v => cases he

/-! Exception entry and return. -/

theorem preservedOnEntry_of_unavailable {c : Params} {target : ELevel}
    (h : ∀ l : ELevel, l.num < target.num → c.simdUnavailable.at l = true) : preservedOnEntry c target = true := by
  rw [preservedOnEntry, List.all_eq_true]
  intro l _
  by_cases hl : l.num < target.num
  · simp [h l hl]
  · simp [hl]

/-- What a change of level keeps, whether or not the PE preserves the registers: entry and return alike. -/
theorem afterLengthEvent_el_keeps (s : State) (target : ELevel) {preserved : Bool} {t : State}
    (ht : t = s.afterLengthEvent { s with el := target } preserved) :
    t.el = target ∧ t.pstateSM = s.pstateSM ∧ t.pstateZA = s.pstateZA ∧ t.fpsr = s.fpsr ∧ t.zt0 = s.zt0
      ∧ (t.svl = s.svl ∨ s.pstateZA = false → t.za = s.za) := by
  subst ht
  refine ⟨by simp, by simp, by simp, by simp, by simp, fun h => ?_⟩
  have hsvl : (s.afterLengthEvent { s with el := target } preserved).svl = ({ s with el := target } : State).svl :=
    svl_congr (by simp) (by simp) (by simp)
  rw [hsvl] at h
  exact afterLengthEvent_za h

/-! The statements. -/

/-- Settles O52: `selectLen` answers a member of the set it is given, as the largest length is one. -/
theorem selectedLengthsAreImplemented : Obligations.SelectedLengthsAreImplemented := by
  intro s hok
  obtain ⟨hmax, hle⟩ := svlSet_of_ok hok
  have hsvl : s.svl ∈ s.cfg.svlSet := selectLen_mem _ _ _ _ hmax
  have hnsvl : s.nsvl ∈ nsvlSet s.cfg := selectLen_mem _ _ _ _ ((mem_nsvlSet_iff _ _).mpr le_rfl)
  exact ⟨hsvl, hle _ hsvl, (mem_nsvlSet_iff _ _).mp hnsvl, fun l => (mem_nsvlSet_iff _ l).symm⟩

/-- Settles O53, by the mode and, outside Streaming SVE mode, by the condition of R114. -/
theorem effectiveVectorLength : Obligations.EffectiveVectorLength := by
  intro s
  refine ⟨fun hsm => ⟨vl_streaming hsm, ?_⟩, fun hsm hsve => ⟨?_, fun htrap => ?_, fun htrap => ?_⟩⟩
  · simp [State.maxVL, maxLen, hsm]
  · simp [State.maxVL, maxLen, hsm, hsve]
  · simp [State.vl, State.nonStreamingVL, hsm, htrap]
  · simp [State.vl, State.nonStreamingVL, hsm, hsve, htrap]

/-- Settles O54, by induction on the events: each one keeps the bits below the VL it starts from. -/
theorem consistentlyAccessibleBitsKept : Obligations.ConsistentlyAccessibleBitsKept := by
  intro es s m hlen hvl
  change restoredAt m s (applyEvents es s)
  induction es generalizing s with
  | nil => exact restoredAt_refl m s
  | cons e es ih =>
    have hfirst : restoredAt m s (applyEvent e s) :=
      restoredAt_applyEvent (hlen e List.mem_cons_self) (hvl 0 (Nat.zero_le _))
    have hrest : restoredAt m (applyEvent e s) (applyEvents es (applyEvent e s)) :=
      ih (applyEvent e s) (fun f hf => hlen f (List.mem_cons_of_mem e hf))
        fun k hk => hvl (k + 1) (Nat.succ_le_succ hk)
    exact restoredAt_trans hfirst hrest

/-- Settles O55: each register is filled by a choice of its own, and either choice gives one of the two values. -/
theorem newlyAccessibleBitsZeroOrPrevious : Obligations.NewlyAccessibleBitsZeroOrPrevious := by
  intro s old new preserved
  refine ⟨changeVL_keeps_registers s, fun hlt => ⟨fun n => ?_, fun n => ?_, ?_⟩⟩
  · rw [changeVL_z, if_neg (Nat.not_le.mpr hlt)]
    exact fillOnIncrease_eq_or_cleared _ _ _ _
  · rw [changeVL_p, if_neg (Nat.not_le.mpr hlt)]
    exact fillOnIncrease_eq_or_cleared _ _ _ _
  · rw [changeVL_ffr, if_neg (Nat.not_le.mpr hlt)]
    exact fillOnIncrease_eq_or_cleared _ _ _ _

/-- Settles O56: entry and return are one length event, and under R115's condition entry is one that preserves. -/
theorem exceptionEntryPreservesState : Obligations.ExceptionEntryPreservesState := by
  intro s target
  refine ⟨fun h => ?_, fun t ht => ?_⟩
  · rw [State.enterLevel, preservedOnEntry_of_unavailable h, afterLengthEvent_z, afterLengthEvent_p,
      afterLengthEvent_ffr]
    exact changeVL_keeps_registers _ (.inr rfl)
  · rcases ht with ht | ht
    · exact afterLengthEvent_el_keeps s target ht
    · exact afterLengthEvent_el_keeps s target ht

end Sys2Proof.Proofs
end

section
/-! PROOFS. Inaccessible bits: the bits of the vector registers at and above VL, and of the predicate registers and FFR
at and above VL/8, are neither read nor written (40_vector_lengths.md R110; 10_state.md R37). For the reads, every
update and every instruction is shown to take states that agree in the accessible bits to states that do. -/

namespace Sys2Proof.Proofs

open Sys2Proof.Machine Sys2Proof.Safety Sys2Proof.Laws

/-! What an instruction writes. -/

/-- The bits of the vector and predicate registers and of FFR that are not accessible in `s` are the same in `t`. -/
def SameInaccessible (s t : State) : Prop :=
  (∀ (n : Fin 32) (b : Nat), s.vlBits ≤ b → t.z[n].getLsbD b = s.z[n].getLsbD b)
    ∧ (∀ (n : Fin 16) (b : Nat), s.plBits ≤ b → t.p[n].getLsbD b = s.p[n].getLsbD b)
    ∧ ∀ b, s.plBits ≤ b → t.ffr.getLsbD b = s.ffr.getLsbD b

theorem sameInaccessible_of_eq {s t : State} (hz : t.z = s.z) (hp : t.p = s.p) (hf : t.ffr = s.ffr) :
    SameInaccessible s t := by
  unfold SameInaccessible
  rw [hz, hp, hf]
  exact ⟨fun _ _ _ => rfl, fun _ _ _ => rfl, fun _ _ => rfl⟩

theorem sameInaccessible_writeZ (s : State) (d : Fin 32) (v : VecReg) : SameInaccessible s (s.writeZ d v) := by
  refine ⟨fun n b hb => ?_, fun _ _ _ => rfl, fun _ _ => rfl⟩
  rw [writeZ_getElem]
  split
  · rw [getLsbD_mergeLow, if_neg (Nat.not_lt.mpr hb)]
  · rfl

theorem sameInaccessible_of_change {i : Instr} {s t : State} (h : Change i s t) (hsm : t.pstateSM = s.pstateSM) :
    SameInaccessible s t := by
  cases h with
  | za f => exact sameInaccessible_of_eq (mapZA_z s f) (mapZA_p s f) (mapZA_ffr s f)
  | zt0 v => exact sameInaccessible_of_eq rfl rfl rfl
  | mem m => exact sameInaccessible_of_eq rfl rfl rfl
  | z n v => exact sameInaccessible_writeZ s n v
  | mode sm za =>
    rw [setZA_pstateSM, setSM_pstateSM] at hsm
    rw [setSM_same hsm]
    exact sameInaccessible_of_eq (setZA_z s za) (setZA_p s za) (setZA_ffr s za)
  | x rt => exact sameInaccessible_of_eq (writeXZ_z s rt _) (writeXZ_p s rt _) (writeXZ_ffr s rt _)

/-! States that agree in the accessible bits. -/

theorem sameAccessible_refl (s : State) : SameAccessible s s := ⟨rfl, fun _ => rfl, fun _ => rfl, rfl⟩

/-- The second state is the first with other vector and predicate registers. -/
theorem eq_with_registers {s u : State} (h : SameAccessible s u) :
    ∃ z p ffr, u = { s with z := z, p := p, ffr := ffr } :=
  ⟨u.z, u.p, u.ffr, h.rest⟩

theorem vl_of_sameAccessible {s u : State} (h : SameAccessible s u) : u.vl = s.vl := by
  obtain ⟨z, p, ffr, rfl⟩ := eq_with_registers h
  exact vl_congr rfl rfl rfl rfl rfl

theorem readZ_of_sameAccessible {s u : State} (h : SameAccessible s u) (n : Fin 32) : u.readZ n = s.readZ n := by
  rw [State.readZ, State.readZ, State.vlBits, vl_of_sameAccessible h]
  exact h.z n

theorem readP_of_sameAccessible {s u : State} (h : SameAccessible s u) (n : Fin 16) : u.readP n = s.readP n := by
  rw [State.readP, State.readP, State.plBits, vl_of_sameAccessible h]
  exact h.p n

theorem active_of_sameAccessible {s u : State} (h : SameAccessible s u) (pg : Fin 8) (es : ESize) :
    u.active pg es = s.active pg es := by
  funext e
  rw [State.active, State.active, readP_of_sameAccessible h]

/-- An update that commutes with replacing the vector and predicate registers and keeps VL. -/
theorem sameAccessible_map {s u : State} {g : State → State} (h : SameAccessible s u) (hvl : (g s).vl = s.vl)
    (hg : ∀ z p ffr, g { s with z := z, p := p, ffr := ffr } = { g s with z := z, p := p, ffr := ffr }) :
    SameAccessible (g s) (g u) := by
  obtain ⟨z, p, ffr, rfl⟩ := eq_with_registers h
  have hs : g s = { g s with z := s.z, p := s.p, ffr := s.ffr } := hg s.z s.p s.ffr
  have hsz : (g s).z = s.z := by rw [hs]
  have hsp : (g s).p = s.p := by rw [hs]
  have hsf : (g s).ffr = s.ffr := by rw [hs]
  rw [hg z p ffr]
  refine ⟨rfl, fun n => ?_, fun n => ?_, ?_⟩
  · rw [State.vlBits, hvl, hsz]; exact h.z n
  · rw [State.plBits, hvl, hsp]; exact h.p n
  · rw [State.plBits, hvl, hsf]; exact h.ffr

/-! The updates. -/

section Updates

variable {s u : State} (h : SameAccessible s u)

include h

theorem sameAccessible_mapZA (f : Nat → VecReg → VecReg) : SameAccessible (s.mapZA f) (u.mapZA f) :=
  sameAccessible_map (g := fun s => s.mapZA f) h (vl_congr (by simp) (by simp) (by simp) (by simp) (by simp))
    fun _ _ _ => rfl

theorem sameAccessible_writeZAVec (k : Nat) (v : VecReg) : SameAccessible (s.writeZAVec k v) (u.writeZAVec k v) :=
  sameAccessible_mapZA h _

theorem sameAccessible_writeSlice (d : SliceDir) (t n : Nat) (es : ESize) (v : VecReg) :
    SameAccessible (s.writeSlice d t n es v) (u.writeSlice d t n es v) :=
  sameAccessible_map (g := fun s => s.writeSlice d t n es v) h
    (vl_congr (by simp) (by simp) (by simp) (by simp) (by simp)) fun _ _ _ => by cases d <;> rfl

theorem sameAccessible_writeXZ (r : XnZR) (v : DWord) : SameAccessible (s.writeXZ r v) (u.writeXZ r v) :=
  sameAccessible_map (g := fun s => s.writeXZ r v) h (vl_congr (by simp) (by simp) (by simp) (by simp) (by simp))
    fun _ _ _ => by cases r <;> rfl

theorem sameAccessible_setZA (v : Bool) : SameAccessible (s.setZA v) (u.setZA v) :=
  sameAccessible_map (g := fun s => s.setZA v) h (vl_congr (by simp) (by simp) (by simp) (by simp) (by simp))
    fun z p ffr => by
      by_cases hv : v = s.pstateZA
      · rw [setZA_same hv, setZA_same (s := { s with z := z, p := p, ffr := ffr }) hv]
      · rw [State.setZA, State.setZA, if_neg hv, if_neg hv]
        cases v <;> rfl

theorem sameAccessible_zt0 (v : TableReg) : SameAccessible { s with zt0 := v } { u with zt0 := v } :=
  sameAccessible_map (g := fun s => { s with zt0 := v }) h (vl_congr rfl rfl rfl rfl rfl) fun _ _ _ => rfl

theorem sameAccessible_mem (m : Memory) : SameAccessible { s with mem := m } { u with mem := m } :=
  sameAccessible_map (g := fun s => { s with mem := m }) h (vl_congr rfl rfl rfl rfl rfl) fun _ _ _ => rfl

theorem sameAccessible_pc (v : DWord) : SameAccessible { s with pc := v } { u with pc := v } :=
  sameAccessible_map (g := fun s => { s with pc := v }) h (vl_congr rfl rfl rfl rfl rfl) fun _ _ _ => rfl

/-- Accessible bits written with the same value. -/
theorem sameAccessible_writeZ (d : Fin 32) (v : VecReg) : SameAccessible (s.writeZ d v) (u.writeZ d v) := by
  have hvl := vl_of_sameAccessible h
  refine ⟨?_, fun n => ?_, h.p, h.ffr⟩
  · obtain ⟨z, p, ffr, rfl⟩ := eq_with_registers h
    rfl
  · rw [writeZ_vlBits, writeZ_getElem, writeZ_getElem, State.vlBits, State.vlBits, hvl]
    split
    · rw [lowBits_mergeLow, lowBits_mergeLow]
    · exact h.z n

/-- A change of PSTATE.SM leaves no bit of the registers, accessible or not. -/
theorem sameAccessible_setSM (v : Bool) : SameAccessible (s.setSM v) (u.setSM v) := by
  obtain ⟨z, p, ffr, rfl⟩ := eq_with_registers h
  by_cases hv : v = s.pstateSM
  · rw [setSM_same hv, setSM_same (s := { s with z := z, p := p, ffr := ffr }) hv]
    exact h
  · rw [setSM_change hv, setSM_change (s := { s with z := z, p := p, ffr := ffr }) hv]
    exact sameAccessible_refl _

end Updates

/-! Outcomes. -/

theorem sameOutcome_ite {R : State → State → Prop} {c : Prop} [Decidable c] {a b a' b' : Out}
    (ha : SameOutcome R a a') (hb : SameOutcome R b b') :
    SameOutcome R (if c then a else b) (if c then a' else b') := by
  split
  · exact ha
  · exact hb

section Outcomes

variable {s u : State} (h : SameAccessible s u)

include h

theorem sameOutcome_complete : SameOutcome SameAccessible (complete s) (complete u) := by
  have hpc : u.pc = s.pc := by rw [h.rest]
  rw [complete, complete, hpc]
  exact sameOutcome_ite (sameAccessible_pc h _) rfl

/-- The checks read the parameters, the level and the mode bits. -/
theorem sameOutcome_checked {R : State → State → Prop} {f f' : Bool} (hf : f' = f) (k : LegalClass) {e e' : Out}
    (he : SameOutcome R e e') : SameOutcome R (checked f k s e) (checked f' k u e') := by
  have hstop : ∀ x, SameOutcome R (takeException x s) (takeException x u) := by
    rw [h.rest]
    intro x
    cases x <;> rfl
  have haccess : u.cfg.smeAccessEnabled.at u.el = s.cfg.smeAccessEnabled.at s.el := by rw [h.rest]
  have hlegal : illegalReason k u.pstateSM u.pstateZA u.fa64Active
      = illegalReason k s.pstateSM s.pstateZA s.fa64Active := by
    rw [h.rest]
    rfl
  rw [checked, checked, hf, haccess, hlegal]
  refine sameOutcome_ite (hstop _) (sameOutcome_ite (hstop _) ?_)
  cases illegalReason k s.pstateSM s.pstateZA s.fa64Active with
  | some r => exact hstop _
  | none => exact he

theorem sameOutcome_storeBytes (a : Nat) (bs : List Byte) :
    SameOutcome SameAccessible (storeBytes s a bs) (storeBytes u a bs) := by
  have hstored := sameOutcome_complete (sameAccessible_mem h (s.mem.writeBytes a bs))
  obtain ⟨z, p, ffr, rfl⟩ := eq_with_registers h
  exact sameOutcome_ite rfl (sameOutcome_ite rfl hstored)

theorem sameOutcome_loadArrayVector (a : ArrayOperands) :
    SameOutcome SameAccessible (loadArrayVector a s) (loadArrayVector a u) := by
  have hloaded := fun k v => sameOutcome_complete (sameAccessible_writeZAVec h k v)
  obtain ⟨z, p, ffr, rfl⟩ := eq_with_registers h
  exact sameOutcome_ite rfl (sameOutcome_ite rfl (hloaded _ _))

theorem sameOutcome_storeArrayVector (a : ArrayOperands) :
    SameOutcome SameAccessible (storeArrayVector a s) (storeArrayVector a u) := by
  have hstored := sameOutcome_storeBytes h (s.arrayAddr a)
    (leBytes (s.zaVec (s.selectVector a.wv a.offs.val)) s.svlB)
  obtain ⟨z, p, ffr, rfl⟩ := eq_with_registers h
  exact sameOutcome_ite rfl hstored

theorem sameOutcome_zeroTilesEffect (mask : BitVec 8) :
    SameOutcome SameAccessible (zeroTilesEffect mask s) (zeroTilesEffect mask u) := by
  have hzeroed := fun f => sameOutcome_complete (sameAccessible_mapZA h f)
  obtain ⟨z, p, ffr, rfl⟩ := eq_with_registers h
  exact hzeroed _

theorem sameOutcome_loadTable (r : XnSP) : SameOutcome SameAccessible (loadTable r s) (loadTable r u) := by
  have hloaded := fun v => sameOutcome_complete (sameAccessible_zt0 h v)
  obtain ⟨z, p, ffr, rfl⟩ := eq_with_registers h
  exact sameOutcome_ite rfl (sameOutcome_ite rfl (hloaded _))

theorem sameOutcome_storeTable (r : XnSP) : SameOutcome SameAccessible (storeTable r s) (storeTable r u) := by
  have hbase : u.base r = s.base r := by
    rw [h.rest]
    cases r <;> rfl
  have hzt0 : u.zt0 = s.zt0 := by rw [h.rest]
  rw [storeTable, storeTable, State.baseAligned, State.baseAligned, hbase, hzt0]
  generalize leBytes s.zt0 64 = bytes
  exact sameOutcome_ite rfl (sameOutcome_storeBytes h _ bytes)

theorem sameOutcome_tileLoad (es : ESize) (a : SliceMemOperands) :
    SameOutcome SameAccessible (tileLoad es a s) (tileLoad es a u) := by
  have hloaded := fun d t n v => sameOutcome_complete (sameAccessible_writeSlice h d t n es v)
  have hactive := active_of_sameAccessible h a.pg es
  obtain ⟨z, p, ffr, rfl⟩ := eq_with_registers h
  rw [tileLoad, tileLoad, hactive]
  exact sameOutcome_ite rfl (sameOutcome_ite rfl (hloaded _ _ _ _))

theorem sameOutcome_tileStore (es : ESize) (a : SliceMemOperands) :
    SameOutcome SameAccessible (tileStore es a s) (tileStore es a u) := by
  have hstored := fun m => sameOutcome_complete (sameAccessible_mem h m)
  have hactive := active_of_sameAccessible h a.pg es
  obtain ⟨z, p, ffr, rfl⟩ := eq_with_registers h
  rw [tileStore, tileStore, State.memAfterTileStore, State.memAfterTileStore, hactive]
  exact sameOutcome_ite rfl (sameOutcome_ite rfl (sameOutcome_ite rfl (hstored _)))

theorem sameOutcome_moveToVector (es : ESize) (a : MovaOperands) :
    SameOutcome SameAccessible (moveToVector es a s) (moveToVector es a u) := by
  have hmoved := fun v => sameOutcome_complete (sameAccessible_writeZ h a.z v)
  have hactive := active_of_sameAccessible h a.pg es
  have hread := readZ_of_sameAccessible h a.z
  obtain ⟨z, p, ffr, rfl⟩ := eq_with_registers h
  rw [moveToVector, moveToVector, hactive, hread]
  exact hmoved _

theorem sameOutcome_moveToTile (es : ESize) (a : MovaOperands) :
    SameOutcome SameAccessible (moveToTile es a s) (moveToTile es a u) := by
  have hmoved := fun d t n v => sameOutcome_complete (sameAccessible_writeSlice h d t n es v)
  have hactive := active_of_sameAccessible h a.pg es
  have hread := readZ_of_sameAccessible h a.z
  obtain ⟨z, p, ffr, rfl⟩ := eq_with_registers h
  rw [moveToTile, moveToTile, hactive, hread]
  exact hmoved _ _ _ _

theorem sameOutcome_setSM (v : Bool) : SameOutcome SameAccessible (complete (s.setSM v)) (complete (u.setSM v)) :=
  sameOutcome_complete (sameAccessible_setSM h v)

theorem sameOutcome_setZA (v : Bool) : SameOutcome SameAccessible (complete (s.setZA v)) (complete (u.setZA v)) :=
  sameOutcome_complete (sameAccessible_setZA h v)

theorem sameOutcome_setSM_setZA (sm za : Bool) :
    SameOutcome SameAccessible (complete ((s.setSM sm).setZA za)) (complete ((u.setSM sm).setZA za)) :=
  sameOutcome_setZA (sameAccessible_setSM h sm) za

/-- MSR SVCR reads a general-purpose register only. -/
theorem sameOutcome_writeSvcr (r : XnZR) :
    SameOutcome SameAccessible (complete (s.writeSvcr (s.readXZ r))) (complete (u.writeSvcr (u.readXZ r))) := by
  have hread : u.readXZ r = s.readXZ r := by
    rw [h.rest]
    cases r <;> rfl
  rw [hread]
  exact sameOutcome_setSM_setZA h _ _

/-- MRS SVCR reads the mode bits only. -/
theorem sameOutcome_readSvcr (r : XnZR) :
    SameOutcome SameAccessible (complete (s.writeXZ r s.svcr)) (complete (u.writeXZ r u.svcr)) := by
  have hsvcr : u.svcr = s.svcr := by rw [h.rest]; rfl
  rw [hsvcr]
  exact sameOutcome_complete (sameAccessible_writeXZ h r _)

theorem sameOutcome_exec (i : Instr) : SameOutcome SameAccessible (exec i s) (exec i u) := by
  have hsme : u.cfg.haveSME = s.cfg.haveSME := by rw [h.rest]
  have hsme2 : u.cfg.haveSME2 = s.cfg.haveSME2 := by rw [h.rest]
  induction i using instr_cases with
  | ldrArray a => exact sameOutcome_checked h hsme .k2 (sameOutcome_loadArrayVector h a)
  | strArray a => exact sameOutcome_checked h hsme .k2 (sameOutcome_storeArrayVector h a)
  | zeroTiles m => exact sameOutcome_checked h hsme .k2 (sameOutcome_zeroTilesEffect h m)
  | ldrTable r => exact sameOutcome_checked h hsme2 .k2 (sameOutcome_loadTable h r)
  | strTable r => exact sameOutcome_checked h hsme2 .k2 (sameOutcome_storeTable h r)
  | zeroTable => exact sameOutcome_checked h hsme2 .k2 (sameOutcome_complete (sameAccessible_zt0 h _))
  | smstartSM => exact sameOutcome_checked h hsme .k6 (sameOutcome_setSM h true)
  | smstopSM => exact sameOutcome_checked h hsme .k6 (sameOutcome_setSM h false)
  | smstartZA => exact sameOutcome_checked h hsme .k6 (sameOutcome_setZA h true)
  | smstopZA => exact sameOutcome_checked h hsme .k6 (sameOutcome_setZA h false)
  | smstart => exact sameOutcome_checked h hsme .k6 (sameOutcome_setSM_setZA h true true)
  | smstop => exact sameOutcome_checked h hsme .k6 (sameOutcome_setSM_setZA h false false)
  | msrSVCR r => exact sameOutcome_checked h hsme .k6 (sameOutcome_writeSvcr h r)
  | mrsSVCR r => exact sameOutcome_checked h hsme .k6 (sameOutcome_readSvcr h r)
  | load es a =>
    rw [exec_tileLoad, exec_tileLoad]
    exact sameOutcome_checked h hsme .k3 (sameOutcome_tileLoad h es a)
  | store es a =>
    rw [exec_tileStore, exec_tileStore]
    exact sameOutcome_checked h hsme .k3 (sameOutcome_tileStore h es a)
  | toVector es a =>
    rw [exec_movaToVector, exec_movaToVector]
    exact sameOutcome_checked h hsme .k3 (sameOutcome_moveToVector h es a)
  | toTile es a =>
    rw [exec_movaToTile, exec_movaToTile]
    exact sameOutcome_checked h hsme .k3 (sameOutcome_moveToTile h es a)

end Outcomes

/-! The statements. -/

/-- Settles O38: an instruction reads registers through their accessible bits only, so that each has the same outcome
in both states. -/
theorem inaccessibleBitsAreNotRead : Obligations.InaccessibleBitsAreNotRead :=
  fun i _ _ h => sameOutcome_exec h i

/-- Settles O39: of the changes an instruction can make, only a change of PSTATE.SM reaches inaccessible bits. -/
theorem inaccessibleBitsAreNotWritten : Obligations.InaccessibleBitsAreNotWritten := by
  intro i s t h hsm
  obtain ⟨u, hchange, -, rfl⟩ := exec_next h
  have hkept : SameInaccessible s u := sameInaccessible_of_change hchange hsm
  exact hkept

end Sys2Proof.Proofs
end

section
/-! PROOFS. Writes of a result narrower than its register (41_vector_registers_scalar_writes.md R124-R126): the bits of
the result, zero above them up to the accessible width, and the inaccessible bits as they were. -/

namespace Sys2Proof.Proofs

open Sys2Proof.Machine Sys2Proof.Laws

/-- Every architected length holds a 128-bit SIMD&FP register. -/
theorem le_vlBits (s : State) : 128 ≤ s.vlBits := by
  unfold State.vlBits
  cases s.vl <;> decide

/-- No architected length exceeds the container. -/
theorem vlBits_le (s : State) : s.vlBits ≤ 2048 := by
  unfold State.vlBits
  cases s.vl <;> decide

/-- A zero-extended value has the bits of the value where it has bits, and zero from there on. -/
theorem getLsbD_setWidth_of_lt {w W i : Nat} (r : BitVec w) (h : i < W) :
    (r.setWidth W).getLsbD i = (decide (i < w) && r.getLsbD i) := by
  rw [BitVec.getLsbD_setWidth, decide_eq_true h, Bool.true_and]
  by_cases hw : i < w
  · rw [decide_eq_true hw, Bool.true_and]
  · rw [decide_eq_false hw, Bool.false_and, BitVec.getLsbD_of_ge r i (Nat.le_of_not_lt hw)]

/-- A general-purpose register after it is written. -/
theorem writeX_getElem_self (s : State) (d : Fin 31) (v : DWord) : (s.writeX d v).x[d] = v :=
  Vector.getElem_set_self d.isLt

/-- An accessible bit of a vector register after a write of a narrower value. -/
theorem getLsbD_writeZ_setWidth (s : State) (d : Fin 32) {w i : Nat} (r : BitVec w) (h : i < s.vlBits) :
    (s.writeZ d (r.setWidth 2048)).z[d].getLsbD i = (decide (i < w) && r.getLsbD i) := by
  rw [writeZ_getElem, if_pos rfl, getLsbD_mergeLow, if_pos h,
    getLsbD_setWidth_of_lt r (Nat.lt_of_lt_of_le h (vlBits_le s))]

/-- An inaccessible bit of any vector register after a write of one of them. -/
theorem getLsbD_writeZ_of_le (s : State) (d n : Fin 32) (v : VecReg) {i : Nat} (h : s.vlBits ≤ i) :
    (s.writeZ d v).z[n].getLsbD i = s.z[n].getLsbD i := by
  obtain ⟨hz, -, -⟩ := sameInaccessible_writeZ s d v
  exact hz n i h

/-- Settles O50: the 128 bits are written zero-extended, and VL, at least 128, bounds what is written. -/
theorem simdWriteZeroesToVL : Obligations.SimdWriteZeroesToVL := by
  intro s n v
  have haccessible : ∀ i < s.vlBits, (s.writeV n v).z[n].getLsbD i = (decide (i < 128) && v.getLsbD i) :=
    fun _ hi => getLsbD_writeZ_setWidth s n v hi
  refine ⟨rfl, fun i hi => ?low, fun i hge hlt => ?zeroed, fun i hi => ?inaccessible, fun m hm => ?other⟩
  case low =>
    rw [haccessible i (Nat.lt_of_lt_of_le hi (le_vlBits s)), decide_eq_true hi, Bool.true_and]
  case zeroed =>
    rw [haccessible i hlt, decide_eq_false (Nat.not_lt.mpr hge), Bool.false_and]
  case inaccessible => exact getLsbD_writeZ_of_le s n n _ hi
  case other => exact (writeZ_getElem s n m _).trans (if_neg hm.symm)

/-- Settles O51: in both kinds of register the result is written zero-extended; a vector register takes its accessible
bits only. -/
theorem scalarResultIsZeroExtended : Obligations.ScalarResultIsZeroExtended := by
  intro s w r
  refine ⟨fun d _ i hi => ?gpr, fun d _ => ⟨fun i hi => ?accessible, fun i hi => ?inaccessible⟩⟩
  case gpr => rw [State.scalarWriteGPR, writeX_getElem_self, getLsbD_setWidth_of_lt r hi]
  case accessible => exact getLsbD_writeZ_setWidth s d r hi
  case inaccessible => exact getLsbD_writeZ_of_le s d d _ hi

end Sys2Proof.Proofs
end

section
/-! PROOFS. Predicates read as masks (42_predication.md R131-R139, R153-R158): the canonical mask bit by bit, predicated
writes element by element, and that a predicated instruction reads of its governing predicate only the lowest-numbered
bit of each element. -/

namespace Sys2Proof.Proofs

open Sys2Proof.Machine Sys2Proof.Safety Sys2Proof.Laws

/-! The canonical mask. -/

/-- A predicate element of the canonical form: its lowest-numbered bit is the Boolean, its upper bits are zero. -/
theorem getLsbD_ofNat_bool {w j : Nat} (hj : j < w) (c : Bool) :
    (BitVec.ofNat w (if c then 1 else 0)).getLsbD j = (j == 0 && c) := by
  rw [BitVec.getLsbD_ofNat, decide_eq_true hj, Bool.true_and]
  cases c with
  | false => simp
  | true =>
    rw [if_pos rfl, Bool.and_true, Bool.eq_iff_iff, Nat.testBit_one_eq_true_iff_self_eq_zero, beq_iff_eq]

theorem getLsbD_maskFromBools {es : ESize} {b : List Bool} {e j : Nat} (hb : b.length * es.bytes ≤ 256)
    (he : e < b.length) (hj : j < es.bytes) :
    (maskFromBools b es).getLsbD (e * es.bytes + j) = (j == 0 && b.getD e false) := by
  have hend : (e + 1) * es.bytes ≤ b.length * es.bytes := Nat.mul_le_mul_right _ he
  rw [Nat.succ_mul] at hend
  have hdiv : (e * es.bytes + j) / es.bytes = e := by
    rw [Nat.mul_comm, Nat.mul_add_div (esize_bytes_pos es), Nat.div_eq_of_lt hj, Nat.add_zero]
  have hmod : (e * es.bytes + j) % es.bytes = j := by rw [Nat.mul_comm, Nat.mul_add_mod, Nat.mod_eq_of_lt hj]
  rw [maskFromBools, getLsbD_buildElems, hdiv, hmod, getLsbD_ofNat_bool hj,
    decide_eq_true (show e * es.bytes + j < 256 by omega),
    decide_eq_true (show e * es.bytes + j < b.length * es.bytes by omega), Bool.true_and, Bool.true_and]

theorem getLsbD_maskFromBools_of_le {es : ESize} {b : List Bool} {i : Nat} (h : b.length * es.bytes ≤ i) :
    (maskFromBools b es).getLsbD i = false := by
  rw [maskFromBools, getLsbD_buildElems, decide_eq_false (Nat.not_lt.mpr h), Bool.and_false, Bool.false_and]

/-- The lowest-numbered bit of an element is the Boolean it was made from. -/
theorem predBit_maskFromBools {es : ESize} {b : List Bool} {e : Nat} (hb : b.length * es.bytes ≤ 256)
    (he : e < b.length) : predBit (maskFromBools b es) e es = b.getD e false := by
  have h := getLsbD_maskFromBools hb he (esize_bytes_pos es)
  rwa [Nat.add_zero, beq_self_eq_true, Bool.true_and] at h

theorem maskToBools_maskFromBools {es : ESize} {b : List Bool} (hb : b.length * es.bytes ≤ 256) :
    maskToBools (maskFromBools b es) es b.length = b := by
  refine List.ext_getElem (by simp [maskToBools]) fun e _ he => ?_
  simp only [maskToBools, List.getElem_map, List.getElem_range]
  rw [predBit_maskFromBools hb he, List.getD_eq_getElem _ _ he]

/-- Settles O45: bit by bit, and then as a list, of which the lowest-numbered bits are read. -/
theorem canonicalMask : Obligations.CanonicalMask :=
  fun _ _ hb => ⟨fun _ he _ hj => getLsbD_maskFromBools hb he hj, fun _ hi => getLsbD_maskFromBools_of_le hi,
    maskToBools_maskFromBools hb⟩

/-! Predicated writes. -/

/-- Settles O46, from the value of one element of a predicated write, by whether it is Active. -/
theorem predicatedWriteByElement : Obligations.PredicatedWriteByElement := by
  intro W w n old result active e he hW
  refine ⟨fun hactive mode => ?active, fun hinactive => ?zeroing, fun hinactive => ?merging⟩
  case active => rw [elem_predicatedWrite old result active mode he hW, if_pos hactive]
  case zeroing => rw [elem_predicatedWrite old result active .zeroing he hW, hinactive, if_neg Bool.false_ne_true]
  case merging => rw [elem_predicatedWrite old result active .merging he hW, hinactive, if_neg Bool.false_ne_true]

/-! Loops over elements: equal results where the elements that are visited are equally Active. -/

theorem buildElems_congr {W w n : Nat} {f g : Nat → BitVec w} (h : ∀ e < n, f e = g e) :
    buildElems W w n f = buildElems W w n g := by
  induction n with
  | zero => rfl
  | succ n ih => rw [buildElems, buildElems, ih fun e he => h e (Nat.lt_succ_of_lt he), h n n.lt_succ_self]

section Congruence

variable {active active' : Nat → Bool} {n : Nat} (h : ∀ e < n, active' e = active e)

include h

theorem predicatedWrite_congr {W : Nat} (old result : BitVec W) (w : Nat) (mode : PredMode) :
    predicatedWrite old result active' w n mode = predicatedWrite old result active w n mode :=
  buildElems_congr fun e he => by rw [h e he]

theorem elemsAdmitted_congr (m : Memory) (start b : Nat) :
    elemsAdmitted m start b active' n = elemsAdmitted m start b active n := by
  rw [Bool.eq_iff_iff, elemsAdmitted_iff, elemsAdmitted_iff]
  exact forall₂_congr fun e he => by rw [h e he]

theorem elemsInText_congr (text : Memory) (start b : Nat) :
    elemsInText text start b active' n = elemsInText text start b active n := by
  rw [Bool.eq_iff_iff, elemsInText_iff, elemsInText_iff]
  exact exists_congr fun e => and_congr_right fun he => by rw [h e he]

theorem storeElems_congr (m : Memory) (start b : Nat) (f : Nat → BitVec (8 * b)) :
    storeElems m start b active' f n = storeElems m start b active f n := by
  induction n with
  | zero => rfl
  | succ n ih => rw [storeElems, storeElems, ih fun e he => h e (Nat.lt_succ_of_lt he), h n n.lt_succ_self]

end Congruence

/-! States that differ in the predicate registers. -/

/-- The second state is the first with the predicate registers `q`. -/
def DifferInPredicates (q : Vector PredReg 16) (t u : State) : Prop := u = { t with p := q }

section Predicates

variable {q : Vector PredReg 16} {s u : State} (hu : DifferInPredicates q s u)

include hu

theorem differInPredicates_writeSlice (d : SliceDir) (t n : Nat) (es : ESize) (v : VecReg) :
    DifferInPredicates q (s.writeSlice d t n es v) (u.writeSlice d t n es v) := by
  subst hu
  cases d <;> rfl

theorem differInPredicates_writeZ (n : Fin 32) (v : VecReg) :
    DifferInPredicates q (s.writeZ n v) (u.writeZ n v) := by
  subst hu
  rfl

theorem differInPredicates_mem (m : Memory) : DifferInPredicates q { s with mem := m } { u with mem := m } := by
  subst hu
  rfl

theorem sameOutcome_complete_predicates : SameOutcome (DifferInPredicates q) (complete s) (complete u) := by
  subst hu
  exact sameOutcome_ite rfl rfl

/-- The checks before an instruction's own effect read no predicate register. -/
theorem sameOutcome_checked_predicates (k : LegalClass) {e e' : Out} (h : SameOutcome (DifferInPredicates q) e e') :
    SameOutcome (DifferInPredicates q) (checked s.cfg.haveSME k s e) (checked u.cfg.haveSME k u e') := by
  subst hu
  have hstop : ∀ x, SameOutcome (DifferInPredicates q) (takeException x s) (takeException x { s with p := q }) :=
    fun x => by cases x <;> rfl
  have hlegal : illegalReason k s.pstateSM s.pstateZA (State.fa64Active { s with p := q })
      = illegalReason k s.pstateSM s.pstateZA s.fa64Active := rfl
  rw [checked, checked, hlegal]
  refine sameOutcome_ite (hstop _) (sameOutcome_ite (hstop _) ?_)
  cases illegalReason k s.pstateSM s.pstateZA s.fa64Active with
  | some r => exact hstop _
  | none => exact h

/-- An element is equally Active where the lowest-numbered bits of its predicate elements agree, whether or not that
bit is accessible. -/
theorem active_congr_of_differInPredicates {pg : Fin 8} {es : ESize} {e : Nat}
    (h : q[governing pg].getLsbD (e * es.bytes) = s.p[governing pg].getLsbD (e * es.bytes)) :
    u.active pg es e = s.active pg es e := by
  subst hu
  change (lowBits s.plBits q[governing pg]).getLsbD (e * es.bytes)
    = (lowBits s.plBits s.p[governing pg]).getLsbD (e * es.bytes)
  rw [getLsbD_lowBits, getLsbD_lowBits, h]

end Predicates

/-! The effects of the predicated instructions, where the elements of the slice are equally Active. -/

section Effects

variable {s u : State} {q : Vector PredReg 16} {es : ESize} (hu : DifferInPredicates q s u)

include hu

theorem sameOutcome_tileLoad_predicates {a : SliceMemOperands}
    (h : ∀ e < u.tileDim es, u.active a.pg es e = s.active a.pg es e) :
    SameOutcome (DifferInPredicates q) (tileLoad es a s) (tileLoad es a u) := by
  have hcomplete := fun d t n v => sameOutcome_complete_predicates (differInPredicates_writeSlice hu d t n es v)
  have hloaded : loadedSlice es a u = loadedSlice es a s := by
    subst hu
    exact buildElems_congr fun e he => by rw [h e he]; rfl
  unfold loadedSlice at hloaded
  rw [tileLoad, tileLoad, elemsAdmitted_congr h, hloaded]
  subst hu
  exact sameOutcome_ite rfl (sameOutcome_ite rfl (hcomplete _ _ _ _))

theorem sameOutcome_tileStore_predicates {a : SliceMemOperands}
    (h : ∀ e < u.tileDim es, u.active a.pg es e = s.active a.pg es e) :
    SameOutcome (DifferInPredicates q) (tileStore es a s) (tileStore es a u) := by
  have hcomplete := fun m => sameOutcome_complete_predicates (differInPredicates_mem hu m)
  rw [tileStore, tileStore, State.memAfterTileStore, State.memAfterTileStore, elemsInText_congr h,
    elemsAdmitted_congr h, storeElems_congr h]
  subst hu
  exact sameOutcome_ite rfl (sameOutcome_ite rfl (sameOutcome_ite rfl (hcomplete _)))

theorem sameOutcome_moveToVector_predicates {a : MovaOperands}
    (h : ∀ e < u.tileDim es, u.active a.pg es e = s.active a.pg es e) :
    SameOutcome (DifferInPredicates q) (moveToVector es a s) (moveToVector es a u) := by
  have hcomplete := fun v => sameOutcome_complete_predicates (differInPredicates_writeZ hu a.z v)
  rw [moveToVector, moveToVector, predicatedWrite_congr h]
  subst hu
  exact hcomplete _

theorem sameOutcome_moveToTile_predicates {a : MovaOperands}
    (h : ∀ e < u.tileDim es, u.active a.pg es e = s.active a.pg es e) :
    SameOutcome (DifferInPredicates q) (moveToTile es a s) (moveToTile es a u) := by
  have hcomplete := fun d t n v => sameOutcome_complete_predicates (differInPredicates_writeSlice hu d t n es v)
  rw [moveToTile, moveToTile, predicatedWrite_congr h]
  subst hu
  exact hcomplete _ _ _ _

end Effects

/-- Settles O44: beside its lowest-numbered bits, through which it tells Active elements, a predicated instruction
reads nothing of a predicate register. -/
theorem upperPredicateBitsIgnored : Obligations.UpperPredicateBitsIgnored := by
  intro es s q pg i hi hbits
  have hu : DifferInPredicates q s { s with p := q } := rfl
  have hactive : ∀ e < s.tileDim es, State.active { s with p := q } pg es e = s.active pg es e :=
    fun e he => active_congr_of_differInPredicates hu (hbits e he)
  rcases hi with ⟨a, rfl, rfl | rfl⟩ | ⟨a, rfl, rfl | rfl⟩
  · rw [exec_tileLoad, exec_tileLoad]
    exact sameOutcome_checked_predicates hu .k3 (sameOutcome_tileLoad_predicates hu hactive)
  · rw [exec_tileStore, exec_tileStore]
    exact sameOutcome_checked_predicates hu .k3 (sameOutcome_tileStore_predicates hu hactive)
  · rw [exec_movaToVector, exec_movaToVector]
    exact sameOutcome_checked_predicates hu .k3 (sameOutcome_moveToVector_predicates hu hactive)
  · rw [exec_movaToTile, exec_movaToTile]
    exact sameOutcome_checked_predicates hu .k3 (sameOutcome_moveToTile_predicates hu hactive)

end Sys2Proof.Proofs
end

section
/-! PROOFS. Predicates read as counters (42_predication.md R140-R150): what a generator writes in every bit, and what a
consumer reads back of it. -/

namespace Sys2Proof.Proofs

open Sys2Proof.Machine Sys2Proof.Laws

/-! The fields of a counter. -/

/-- The count bits a consumer uses end above the size field and below the reserved bits, whatever VL is. -/
theorem counterMaxBit_bounds (vl : VecLen) : 6 ≤ counterMaxBit vl ∧ counterMaxBit vl ≤ 10 := by
  cases vl <;> decide

/-- LSZ is the position of the one bit that tells the size, below which the size field is zero. -/
theorem counterSize_of_counterLsz {pn : BitVec 16} {es : ESize} {lsz : Nat} (h : counterLsz es = some lsz)
    (hone : pn.getLsbD lsz = true) (hzero : ∀ i < lsz, pn.getLsbD i = false) : counterSize pn = some (lsz, es) := by
  cases es with
  | b =>
    obtain rfl : 0 = lsz := Option.some.inj h
    rw [counterSize, hone]
    rfl
  | h =>
    obtain rfl : 1 = lsz := Option.some.inj h
    rw [counterSize, hzero 0 (by decide), hone]
    rfl
  | s =>
    obtain rfl : 2 = lsz := Option.some.inj h
    rw [counterSize, hzero 0 (by decide), hzero 1 (by decide), hone]
    rfl
  | d =>
    obtain rfl : 3 = lsz := Option.some.inj h
    rw [counterSize, hzero 0 (by decide), hzero 1 (by decide), hzero 2 (by decide), hone]
    rfl
  | q => cases h

/-- A size field of 0b0000 holds no size. -/
theorem counterSize_eq_none {pn : BitVec 16} (h : ∀ i < 4, pn.getLsbD i = false) : counterSize pn = none := by
  rw [counterSize, h 0 (by decide), h 1 (by decide), h 2 (by decide), h 3 (by decide)]
  rfl

/-- A counter of the consumer's size: its elements, one by one. -/
theorem counterToBools_of_size {pn : BitVec 16} {es : ESize} {lsz : Nat} (vl : VecLen) (nvec : Nat)
    (h : counterSize pn = some (lsz, es)) :
    counterToBools pn vl nvec es =
      some ((List.range (nvec * vl.bits / es.bits)).map fun e => counterBit pn vl lsz e) := by
  rw [counterToBools, h]
  exact if_pos rfl

/-! What a generator writes. -/

theorem counterLsz_le {es : ESize} {lsz : Nat} (h : counterLsz es = some lsz) : lsz ≤ 3 := by
  cases es <;> simp [counterLsz] at h <;> omega

/-- A bit of a counter whose field `x` was placed at bit `lo`. -/
theorem getLsbD_setWidth_shiftLeft {n i : Nat} (x : BitVec n) (lo : Nat) (hi : i < 16) :
    (x.setWidth 16 <<< lo).getLsbD i = (decide (lo ≤ i) && x.getLsbD (i - lo)) := by
  rw [BitVec.getLsbD_shiftLeft, BitVec.getLsbD_setWidth, decide_eq_true hi,
    decide_eq_true (show i - lo < 16 by omega), Bool.true_and, Bool.true_and]
  by_cases hlo : i < lo
  · rw [decide_eq_true hlo, decide_eq_false (Nat.not_le.mpr hlo), Bool.not_true, Bool.false_and]
  · rw [decide_eq_false hlo, decide_eq_true (Nat.not_lt.mp hlo), Bool.not_false]

/-- Every bit of an encoded counter: invert on top, one bit at LSZ, the count between them. -/
theorem getLsbD_counterEncode (invert : Bool) (count : Nat) {lsz i : Nat} (hlsz : lsz ≤ 3) (hi : i < 16) :
    (counterEncode invert count lsz).getLsbD i =
      if i = 15 then invert else if i ≤ lsz then decide (i = lsz) else count.testBit (i - (lsz + 1)) := by
  rw [counterEncode, BitVec.getLsbD_or, BitVec.getLsbD_or, getLsbD_setWidth_shiftLeft _ _ hi,
    getLsbD_setWidth_shiftLeft _ _ hi, ← BitVec.twoPow_eq, BitVec.getLsbD_twoPow, BitVec.getLsbD_ofNat]
  by_cases htop : i = 15
  · subst htop
    simp [show lsz ≠ 15 by omega]
  · by_cases hsize : i ≤ lsz
    · simp [htop, hsize, show ¬ 15 ≤ i by omega, show ¬ lsz + 1 ≤ i by omega, show lsz < 16 by omega, eq_comm]
    · simp [htop, hsize, show ¬ 15 ≤ i by omega, show lsz + 1 ≤ i by omega, show lsz ≠ i by omega,
        show i - (lsz + 1) < 14 - lsz by omega]

theorem counterCount_counterEncode (invert : Bool) {count lsz : Nat} {vl : VecLen} (hlsz : lsz ≤ 3)
    (h : count < 2 ^ (counterMaxBit vl - lsz)) : counterCount (counterEncode invert count lsz) vl lsz = count := by
  have hmax := counterMaxBit_bounds vl
  have hfield : (counterEncode invert count lsz).extractLsb' (lsz + 1) (counterMaxBit vl - lsz)
      = BitVec.ofNat (counterMaxBit vl - lsz) count := by
    apply BitVec.eq_of_getLsbD_eq
    intro i hi
    rw [BitVec.getLsbD_extractLsb', getLsbD_counterEncode invert count hlsz (by omega), if_neg (by omega),
      if_neg (by omega), BitVec.getLsbD_ofNat, Nat.add_sub_cancel_left]
  rw [counterCount, hfield, BitVec.toNat_ofNat, Nat.mod_eq_of_lt h]

theorem counterBit_counterEncode (invert : Bool) {count lsz : Nat} {vl : VecLen} (hlsz : lsz ≤ 3)
    (h : count < 2 ^ (counterMaxBit vl - lsz)) (e : Nat) :
    counterBit (counterEncode invert count lsz) vl lsz e = xor (decide (e < count)) invert := by
  rw [counterBit, counterCount_counterEncode invert hlsz h, getLsbD_counterEncode invert count hlsz (by decide),
    if_pos rfl]

theorem counterSize_counterEncode (invert : Bool) (count : Nat) {es : ESize} {lsz : Nat}
    (h : counterLsz es = some lsz) : counterSize (counterEncode invert count lsz) = some (lsz, es) := by
  have hlsz := counterLsz_le h
  refine counterSize_of_counterLsz h ?_ fun i hi => ?_
  · rw [getLsbD_counterEncode invert count hlsz (by omega), if_neg (by omega), if_pos le_rfl, decide_eq_true rfl]
  · rw [getLsbD_counterEncode invert count hlsz (by omega), if_neg (by omega), if_pos hi.le,
      decide_eq_false (by omega)]

/-- Settles O47: the size field is read back as the element size, and each of its elements by count and invert. -/
theorem counterReadsBack : Obligations.CounterReadsBack := by
  intro vl nvec lsz count es invert hes hcount
  rw [counterToBools_of_size vl nvec (counterSize_counterEncode invert count hes)]
  simp only [counterBit_counterEncode invert (counterLsz_le hes) hcount]

/-! The canonical counters. -/

theorem counterToBools_of_no_size {pn : BitVec 16} (vl : VecLen) (nvec : Nat) (es : ESize)
    (h : pn.setWidth 4 = 0#4) :
    counterToBools pn vl nvec es = some (List.replicate (nvec * vl.bits / es.bits) false) := by
  have hbits : ∀ i < 4, pn.getLsbD i = false := fun i hi => by
    have hbit := congrArg (fun x => x.getLsbD i) h
    simpa [hi] using hbit
  rw [counterToBools, counterSize_eq_none hbits]

/-- All TRUE is a count of zero, inverted. -/
theorem counterToBools_counterAllTrue (vl : VecLen) (nvec : Nat) {es : ESize} {lsz : Nat}
    (h : counterLsz es = some lsz) :
    counterToBools (counterAllTrue lsz) vl nvec es = some (List.replicate (nvec * vl.bits / es.bits) true) := by
  rw [counterAllTrue, counterReadsBack vl nvec lsz 0 es true h (Nat.two_pow_pos _)]
  simp

/-- Settles O48: the values are computed; the readings follow from the size field and from O47. -/
theorem canonicalCounters : Obligations.CanonicalCounters :=
  fun vl nvec => ⟨fun _ es h => counterToBools_of_no_size vl nvec es h, rfl, by decide, by decide, by decide,
    by decide, fun _ _ h => counterToBools_counterAllTrue vl nvec h⟩

/-! What a consumer ignores. -/

section Consumer

variable {a b : BitVec 16} {vl : VecLen} (h : ∀ i, i ≤ counterMaxBit vl ∨ i = 15 → a.getLsbD i = b.getLsbD i)

include h

theorem counterSize_congr : counterSize a = counterSize b := by
  have hmax := counterMaxBit_bounds vl
  rw [counterSize, counterSize, h 0 (.inl (by omega)), h 1 (.inl (by omega)), h 2 (.inl (by omega)),
    h 3 (.inl (by omega))]

theorem counterCount_congr (lsz : Nat) : counterCount a vl lsz = counterCount b vl lsz := by
  have hfield : a.extractLsb' (lsz + 1) (counterMaxBit vl - lsz)
      = b.extractLsb' (lsz + 1) (counterMaxBit vl - lsz) := by
    apply BitVec.eq_of_getLsbD_eq
    intro i hi
    rw [BitVec.getLsbD_extractLsb', BitVec.getLsbD_extractLsb', h (lsz + 1 + i) (.inl (by omega))]
  rw [counterCount, counterCount, hfield]

theorem counterBit_congr (lsz e : Nat) : counterBit a vl lsz e = counterBit b vl lsz e := by
  rw [counterBit, counterBit, counterCount_congr h, h 15 (.inr rfl)]

theorem counterToBools_congr (nvec : Nat) (es : ESize) : counterToBools a vl nvec es = counterToBools b vl nvec es := by
  rw [counterToBools, counterToBools, counterSize_congr h]
  simp only [counterBit_congr h]

end Consumer

theorem setWidth_lowBits_congr {W n k : Nat} {u v : BitVec W} (h : lowBits k u = lowBits k v) :
    (lowBits n u).setWidth k = (lowBits n v).setWidth k := by
  apply BitVec.eq_of_getLsbD_eq
  intro i hi
  have hbit := congrArg (fun x => x.getLsbD i) h
  simp only [getLsbD_lowBits, hi, decide_true, Bool.true_and] at hbit
  rw [BitVec.getLsbD_setWidth, BitVec.getLsbD_setWidth, getLsbD_lowBits, getLsbD_lowBits, hbit]

/-- Settles O49: every bit that is read of a counter is one of those in which the two agree. -/
theorem counterIgnoresHighCountBits : Obligations.CounterIgnoresHighCountBits := by
  refine ⟨fun a b vl nvec es h => counterToBools_congr h nvec es, fun s g v h => ?_⟩
  have hset : (s.p.set g v)[g] = v := Vector.getElem_set_self g.isLt
  change (lowBits s.plBits (s.p.set g v)[g]).setWidth 16 = (lowBits s.plBits s.p[g]).setWidth 16
  rw [hset]
  exact setWidth_lowBits_congr h

end Sys2Proof.Proofs
end

section
/-! PROOFS. Which instructions are illegal in which mode, and the reason reported (43_streaming_mode_and_za_enable.md
R165-R177; 60_exceptions.md R320, R321). Every instruction runs its effect behind the same checks, so what is illegal
is read off the table for the class of the instruction. -/

namespace Sys2Proof.Proofs

open Sys2Proof.Machine Sys2Proof.Safety Sys2Proof.Laws

/-! The rows of the table. -/

theorem illegalReason_k1 {sm : Bool} (za fa64 : Bool) (h : sm = false) :
    illegalReason .k1 sm za fa64 = some .smIsZero := by
  rw [h]
  rfl

theorem illegalReason_k2 (sm : Bool) {za : Bool} (fa64 : Bool) (h : za = false) :
    illegalReason .k2 sm za fa64 = some .zaIsZero := by
  rw [h]
  rfl

/-- PSTATE.SM is looked at first (D16). -/
theorem illegalReason_k3_of_sm {sm : Bool} (za fa64 : Bool) (h : sm = false) :
    illegalReason .k3 sm za fa64 = some .smIsZero := by
  rw [h]
  rfl

theorem illegalReason_k3_of_za {sm za : Bool} (fa64 : Bool) (hsm : sm = true) (hza : za = false) :
    illegalReason .k3 sm za fa64 = some .zaIsZero := by
  rw [hsm, hza]
  rfl

theorem illegalReason_k5 {sm fa64 : Bool} (za : Bool) (hsm : sm = true) (hfa : fa64 = false) :
    illegalReason .k5 sm za fa64 = some .smIsOne := by
  rw [hsm, hfa]
  rfl

/-! The checks before the effect of an instruction. -/

theorem exec_eq_checked (i : Instr) (s : State) :
    ∃ effect, exec i s = checked (featurePresent s.cfg i) (legalClass i) s effect := by
  cases i <;> exact ⟨_, rfl⟩

theorem checked_of_illegal {f : Bool} {k : LegalClass} {s : State} {effect : Out} {r : SmeReason} (hf : f = true)
    (ha : s.cfg.smeAccessEnabled.at s.el = true)
    (hr : illegalReason k s.pstateSM s.pstateZA s.fa64Active = some r) :
    checked f k s effect = .fault (.smeIllegal r s.pc) := by
  rw [checked, hf, ha, hr]
  rfl

/-- An instruction whose feature and access checks pass reports the reason that the table has for its class. -/
theorem exec_of_illegal {i : Instr} {s : State} {k : LegalClass} {r : SmeReason}
    (hf : featurePresent s.cfg i = true) (ha : s.cfg.smeAccessEnabled.at s.el = true) (hk : legalClass i = k)
    (hr : illegalReason k s.pstateSM s.pstateZA s.fa64Active = some r) :
    exec i s = .fault (.smeIllegal r s.pc) := by
  obtain ⟨effect, heffect⟩ := exec_eq_checked i s
  rw [heffect, hk]
  exact checked_of_illegal hf ha hr

/-! The statements. -/

/-- Settles O24, a class at a time. -/
theorem legalityTable : Obligations.LegalityTable := by
  intro sm za fa64
  refine ⟨?k1, ?k2, ?k3, rfl, ?k5, rfl, illegalReason_k1 za fa64, illegalReason_k2 sm fa64,
    illegalReason_k3_of_sm za fa64, illegalReason_k3_of_za fa64, illegalReason_k5 za⟩
  case k1 => cases sm <;> simp [illegalReason]
  case k2 => cases za <;> simp [illegalReason]
  case k3 => exact ⟨k3_legal, fun ⟨hsm, hza⟩ => by rw [hsm, hza]; rfl⟩
  case k5 => cases sm <;> simp [illegalReason]

/-- Settles O22, by the row of K2 and the two rows of K3 that need PSTATE.ZA. -/
theorem zaAccessIllegalWithoutZA : Obligations.ZaAccessIllegalWithoutZA := by
  intro i s hf ha hza
  exact ⟨fun hk => exec_of_illegal hf ha hk (illegalReason_k2 _ _ hza),
    fun hk hsm => exec_of_illegal hf ha hk (illegalReason_k3_of_za _ hsm hza),
    fun hk hsm => exec_of_illegal hf ha hk (illegalReason_k3_of_sm _ _ hsm)⟩

/-- Settles O23: the four families are of class K3. -/
theorem tileSliceIllegalOutsideStreamingMode : Obligations.TileSliceIllegalOutsideStreamingMode := by
  intro es s h hsm
  have hillegal : ∀ effect, checked s.cfg.haveSME .k3 s effect = .fault (.smeIllegal .smIsZero s.pc) :=
    fun _ => checked_of_illegal h.feature h.access (illegalReason_k3_of_sm _ _ hsm)
  exact ⟨fun a => (exec_tileLoad es a s).trans (hillegal _), fun a => (exec_tileStore es a s).trans (hillegal _),
    fun a => (exec_movaToVector es a s).trans (hillegal _), fun a => (exec_movaToTile es a s).trans (hillegal _)⟩

end Sys2Proof.Proofs
end

section
/-! PROOFS. Changes of PSTATE.SM and PSTATE.ZA, by whatever method, and what they leave
(43_streaming_mode_and_za_enable.md R162-R164, R173-R176). All methods, steps and events alike, are one update of the
state, pc apart. -/

namespace Sys2Proof.Proofs

open Sys2Proof.Machine Sys2Proof.Safety Sys2Proof.Laws

/-! What a move can do to the mode bits. -/

/-- PSTATE.SM became `sm` and PSTATE.ZA became `za`, with everything that this entails; pc may have moved. -/
def SetsModes (s t : State) (sm za : Bool) : Prop := ∃ pc, t = { (s.setSM sm).setZA za with pc := pc }

theorem setsModes_setSM (s : State) (v : Bool) : SetsModes s (s.setSM v) v s.pstateZA :=
  ⟨(s.setSM v).pc, by rw [setZA_same (setSM_pstateZA s v).symm]⟩

theorem setsModes_setZA (s : State) (v : Bool) : SetsModes s (s.setZA v) s.pstateSM v :=
  ⟨(s.setZA v).pc, by rw [setSM_same rfl]⟩

theorem modes_of_change {i : Instr} {s u : State} (h : Change i s u) :
    (u.pstateSM = s.pstateSM ∧ u.pstateZA = s.pstateZA) ∨ ∃ sm za, u = (s.setSM sm).setZA za := by
  cases h with
  | za f => exact .inl ⟨mapZA_pstateSM s f, mapZA_pstateZA s f⟩
  | zt0 v => exact .inl ⟨rfl, rfl⟩
  | mem m => exact .inl ⟨rfl, rfl⟩
  | z n v => exact .inl ⟨rfl, rfl⟩
  | mode sm za => exact .inr ⟨sm, za, rfl⟩
  | x rt => exact .inl ⟨writeXZ_pstateSM s rt _, writeXZ_pstateZA s rt _⟩

theorem modes_of_lengthEvent {e : Event} (he : isLengthEvent e = true) (s : State) :
    (applyEvent e s).pstateSM = s.pstateSM ∧ (applyEvent e s).pstateZA = s.pstateZA := by
  cases e with
  | writeSmcrLen lvl v =>
    rw [applyEvent, State.writeSmcrLen]
    split <;> simp
  | writeZcrLen lvl v =>
    rw [applyEvent, State.writeZcrLen]
    split <;> simp
  | exceptionEntry target => simp [applyEvent, State.enterLevel]
  | exceptionReturn target => simp [applyEvent, State.returnToLevel]
  | setSM v => cases he
  | setZA v => cases he

/-- A move leaves both mode bits as they are, or it is a write of the mode bits. -/
theorem modes_of_moves {s t : State} (h : Moves s t) :
    (t.pstateSM = s.pstateSM ∧ t.pstateZA = s.pstateZA) ∨ ∃ sm za, SetsModes s t sm za := by
  rcases h with hstep | ⟨e, rfl⟩
  · obtain ⟨-, i, hi⟩ := step_next hstep
    obtain ⟨u, hchange, -, rfl⟩ := exec_next hi
    rcases modes_of_change hchange with hkept | ⟨sm, za, rfl⟩
    · exact .inl hkept
    · exact .inr ⟨sm, za, s.pc + 4#64, rfl⟩
  · cases e with
    | setSM v => exact .inr ⟨v, s.pstateZA, setsModes_setSM s v⟩
    | setZA v => exact .inr ⟨s.pstateSM, v, setsModes_setZA s v⟩
    | _ => exact .inl (modes_of_lengthEvent rfl s)

/-- A move that changes PSTATE.SM is a write of the mode bits that changes it. -/
theorem setsModes_of_sm_ne {s t : State} (h : Moves s t) (hne : t.pstateSM ≠ s.pstateSM) :
    ∃ sm za, SetsModes s t sm za ∧ sm ≠ s.pstateSM := by
  rcases modes_of_moves h with ⟨hsm, -⟩ | ⟨sm, za, pc, rfl⟩
  · exact absurd hsm hne
  · exact ⟨sm, za, ⟨pc, rfl⟩, by simpa using hne⟩

/-- A move that changes PSTATE.ZA is a write of the mode bits that changes it. -/
theorem setsModes_of_za_ne {s t : State} (h : Moves s t) (hne : t.pstateZA ≠ s.pstateZA) :
    ∃ sm za, SetsModes s t sm za ∧ za ≠ s.pstateZA := by
  rcases modes_of_moves h with ⟨-, hza⟩ | ⟨sm, za, pc, rfl⟩
  · exact absurd hza hne
  · exact ⟨sm, za, ⟨pc, rfl⟩, by simpa using hne⟩

/-! ZA storage as it is read. -/

theorem zaVec_congr {s t : State} (hsvl : t.svl = s.svl) (hza : t.za = s.za) (k : Nat) : t.zaVec k = s.zaVec k := by
  rw [State.zaVec, State.zaVec, State.svlBits, State.svlBits, hsvl]
  simp only [hza]

theorem zaVec_of_za_zero {s : State} (h : ∀ k : Fin 256, s.za[k] = 0#2048) (k : Nat) : s.zaVec k = 0#2048 := by
  rw [State.zaVec]
  split
  · next hk =>
    have hzero : s.za[k] = 0#2048 := h ⟨k, hk⟩
    rw [hzero, lowBits_zero]
  · rfl

theorem tableEntry_zero (i : Nat) : tableEntry 0#512 i = 0#32 := by
  apply BitVec.eq_of_getLsbD_eq
  intro j _
  rw [tableEntry, getLsbD_elem, BitVec.getLsbD_zero, BitVec.getLsbD_zero, Bool.and_false]

/-! What an instruction keeps of ZA storage and ZT0 while PSTATE.ZA stays as it is. -/

theorem za_of_change {i : Instr} {s u : State} (h : Change i s u) (hza : u.pstateZA = s.pstateZA)
    (hi : writesZA i = false) : u.svl = s.svl ∧ u.za = s.za := by
  cases h with
  | za f hw => exact absurd (hw.symm.trans hi) Bool.false_ne_true.symm
  | zt0 v => exact ⟨rfl, rfl⟩
  | mem m => exact ⟨rfl, rfl⟩
  | z n v => exact ⟨rfl, rfl⟩
  | mode sm za =>
    rw [setZA_same (by simpa using hza)]
    exact ⟨setSM_svl s sm, setSM_za s sm⟩
  | x rt => exact ⟨writeXZ_svl s rt _, writeXZ_za s rt _⟩

theorem zt0_of_change {i : Instr} {s u : State} (h : Change i s u) (hza : u.pstateZA = s.pstateZA)
    (hi : writesZT0 i = false) : u.zt0 = s.zt0 := by
  cases h with
  | za f => exact mapZA_zt0 s f
  | zt0 v hw => exact absurd (hw.symm.trans hi) Bool.false_ne_true.symm
  | mem m => rfl
  | z n v => rfl
  | mode sm za =>
    rw [setZA_same (by simpa using hza)]
    exact setSM_zt0 s sm
  | x rt => exact writeXZ_zt0 s rt _

/-! The statements. -/

/-- Settles O33: a change of PSTATE.SM replaces the registers whole, and a write of PSTATE.ZA with it leaves them. -/
theorem anyChangeOfSMZeroesAndSetsFPSR : Obligations.AnyChangeOfSMZeroesAndSetsFPSR := by
  intro s t hmoves hne
  obtain ⟨sm, za, ⟨pc, rfl⟩, hsm⟩ := setsModes_of_sm_ne hmoves hne
  have hfpsr : ((s.setSM sm).setZA za).fpsr = fpsrAfterModeChange := by
    rw [setZA_fpsr, setSM_change hsm]
  refine ⟨fun n => ?z, fun n => ?p, fun _ => ?ffr, hfpsr, ?flags⟩
  case z => simp [setSM_change hsm]
  case p => simp [setSM_change hsm]
  case ffr => simp [setSM_change hsm]
  case flags =>
    simp only [hfpsr]
    decide

/-- Settles O34: PSTATE.ZA is written last, and from 0 to 1 it replaces ZA storage and ZT0 whole. -/
theorem anyEnableOfZAZeroesStorage : Obligations.AnyEnableOfZAZeroesStorage := by
  intro s t hmoves hs ht
  obtain ⟨sm, za, ⟨pc, rfl⟩, -⟩ := setsModes_of_za_ne hmoves (by rw [hs, ht]; exact Bool.false_ne_true.symm)
  obtain rfl : za = true := by simpa using ht
  have henable := setZA_enable (s := s.setSM sm) (by rw [setSM_pstateZA, hs])
  have hzero : ∀ k : Fin 256, ((s.setSM sm).setZA true).za[k] = 0#2048 := fun k => by simp [henable]
  refine ⟨hzero, fun k _ => zaVec_of_za_zero hzero k, fun hsme2 i _ => ?_⟩
  have hzt0 : ((s.setSM sm).setZA true).zt0 = 0#512 := by simp [henable, hsme2]
  simp only [hzt0]
  exact tableEntry_zero i

/-- Settles O35: PSTATE.SM is written with the value it has. -/
theorem changeOfZAAloneKeepsRegisters : Obligations.ChangeOfZAAloneKeepsRegisters := by
  intro s t hmoves hza hsm
  obtain ⟨sm, za, ⟨pc, rfl⟩, -⟩ := setsModes_of_za_ne hmoves hza
  have hsame : s.setSM sm = s := setSM_same (by simpa using hsm)
  simp [hsame]

/-- Settles O36: of the changes an instruction can make, only a change of ZA storage or ZT0 itself or of PSTATE.ZA
reaches them; a change of PSTATE.SM does not. -/
theorem zaStorageRetained : Obligations.ZaStorageRetained := by
  refine ⟨fun i s t h hs ht => ?_, fun s v _ => ?_⟩
  · obtain ⟨u, hchange, -, rfl⟩ := exec_next h
    have hza : u.pstateZA = s.pstateZA := Eq.trans ht hs.symm
    have hzt0 : writesZT0 i = false → u.zt0 = s.zt0 := zt0_of_change hchange hza
    refine ⟨fun hi k _ => ?_, hzt0⟩
    obtain ⟨hsvl, hstorage⟩ := za_of_change hchange hza hi
    exact zaVec_congr (t := { u with pc := s.pc + 4#64 }) hsvl hstorage k
  · exact ⟨fun k _ => zaVec_congr (setSM_svl s v) (setSM_za s v) k, setSM_zt0 s v⟩

end Sys2Proof.Proofs
end

section
/-! PROOFS. ZA storage and ZT0 while PSTATE.ZA is 0 (43_streaming_mode_and_za_enable.md R172, R175; 10_state.md R38): an
instruction that would access them stops before its effect, and one that enables them zeroes them first. -/

namespace Sys2Proof.Proofs

open Sys2Proof.Machine Sys2Proof.Safety Sys2Proof.Laws

/-- Two states that differ at most in ZA storage and ZT0, and there only while PSTATE.ZA is 0; ZT0 may differ at any
time where it is not implemented. -/
def SameApartFromDisabledZA (haveSME2 : Bool) (s u : State) : Prop :=
  u = { s with za := u.za, zt0 := u.zt0 } ∧ (s.pstateZA = true → u.za = s.za ∧ (haveSME2 = true → u.zt0 = s.zt0))

/-- The second state is the first with other contents of ZA storage and ZT0. -/
theorem eq_with_za {haveSME2 : Bool} {s u : State} (h : SameApartFromDisabledZA haveSME2 s u) :
    ∃ za zt0, u = { s with za := za, zt0 := zt0 } := by
  obtain ⟨hu, -⟩ := h
  exact ⟨u.za, u.zt0, hu⟩

/-! Outcomes behind the checks. -/

/-- The checks read the parameters, the level and the mode bits; the effects matter only where the class is legal. -/
theorem sameOutcome_checked_congr {R : State → State → Prop} {f f' : Bool} {k : LegalClass} {s u : State}
    {e e' : Out} (hf : f' = f) (hcfg : u.cfg = s.cfg) (hel : u.el = s.el) (hsm : u.pstateSM = s.pstateSM)
    (hza : u.pstateZA = s.pstateZA) (hpc : u.pc = s.pc)
    (he : illegalReason k s.pstateSM s.pstateZA s.fa64Active = none → SameOutcome R e e') :
    SameOutcome R (checked f k s e) (checked f' k u e') := by
  have hstop : ∀ x, SameOutcome R (takeException x s) (takeException x u) := by
    intro x
    cases x <;> simp [takeException, hpc, SameOutcome]
  rw [checked, checked, State.fa64Active, State.fa64Active, hf, hcfg, hel, hsm, hza]
  refine sameOutcome_ite (hstop _) (sameOutcome_ite (hstop _) ?_)
  rw [State.fa64Active] at he
  cases hr : illegalReason k s.pstateSM s.pstateZA (s.cfg.haveSMEFA64 && s.cfg.fa64Enabled.at s.el) with
  | some r => exact hstop _
  | none => exact he hr

/-- Every instruction but those that read or write the mode bits accesses ZA storage or ZT0. -/
theorem illegalReason_of_za_access {i : Instr} (h : legalClass i ≠ .k6) (sm fa64 : Bool) :
    illegalReason (legalClass i) sm false fa64 ≠ none := by
  have hclass : legalClass i = .k2 ∨ legalClass i = .k3 ∨ legalClass i = .k6 := by cases i <;> simp [legalClass]
  rcases hclass with hk | hk | hk
  · rw [hk, illegalReason_k2 sm fa64 rfl]
    exact Option.some_ne_none _
  · rw [hk]
    intro hlegal
    obtain ⟨-, hza⟩ := k3_legal hlegal
    cases hza
  · exact absurd hk h

section Updates

variable {haveSME2 : Bool} {s u : State} (h : SameApartFromDisabledZA haveSME2 s u)

include h

/-- An update that neither reads nor writes ZA storage, ZT0 and PSTATE.ZA. -/
theorem sameApartFromDisabledZA_map {g : State → State} (hmode : (g s).pstateZA = s.pstateZA)
    (hg : ∀ za zt0, g { s with za := za, zt0 := zt0 } = { g s with za := za, zt0 := zt0 }) :
    SameApartFromDisabledZA haveSME2 (g s) (g u) := by
  obtain ⟨za, zt0, rfl⟩ := eq_with_za h
  obtain ⟨-, hsame⟩ := h
  have hs : g s = { g s with za := s.za, zt0 := s.zt0 } := hg s.za s.zt0
  have hsza : (g s).za = s.za := by rw [hs]
  have hszt0 : (g s).zt0 = s.zt0 := by rw [hs]
  rw [hg za zt0]
  refine ⟨rfl, fun hz => ?_⟩
  rw [hsza, hszt0]
  exact hsame (hmode.symm.trans hz)

theorem sameApartFromDisabledZA_pc (v : DWord) :
    SameApartFromDisabledZA haveSME2 { s with pc := v } { u with pc := v } :=
  sameApartFromDisabledZA_map (g := fun s => { s with pc := v }) h rfl fun _ _ => rfl

theorem sameApartFromDisabledZA_writeXZ (r : XnZR) (v : DWord) :
    SameApartFromDisabledZA haveSME2 (s.writeXZ r v) (u.writeXZ r v) :=
  sameApartFromDisabledZA_map (g := fun s => s.writeXZ r v) h (writeXZ_pstateZA s r v)
    fun _ _ => by cases r <;> rfl

theorem sameApartFromDisabledZA_setSM (v : Bool) :
    SameApartFromDisabledZA haveSME2 (s.setSM v) (u.setSM v) :=
  sameApartFromDisabledZA_map (g := fun s => s.setSM v) h (setSM_pstateZA s v) fun za zt0 => by
    by_cases hv : v = s.pstateSM
    · rw [setSM_same hv, setSM_same (s := { s with za := za, zt0 := zt0 }) hv]
    · rw [setSM_change hv, setSM_change (s := { s with za := za, zt0 := zt0 }) hv]

/-- A change of PSTATE.ZA, in either direction, leaves nothing of what ZA storage held. -/
theorem sameApartFromDisabledZA_setZA (hsme2 : s.cfg.haveSME2 = haveSME2) (v : Bool) :
    SameApartFromDisabledZA haveSME2 (s.setZA v) (u.setZA v) := by
  obtain ⟨za, zt0, rfl⟩ := eq_with_za h
  by_cases hv : v = s.pstateZA
  · rwa [setZA_same hv, setZA_same (s := { s with za := za, zt0 := zt0 }) hv]
  · cases v with
    | false =>
      have hs : s.pstateZA = true := Bool.eq_true_of_not_eq_false (Ne.symm hv)
      rw [setZA_disable hs, setZA_disable (s := { s with za := za, zt0 := zt0 }) hs]
      exact ⟨rfl, fun _ => ⟨rfl, fun _ => rfl⟩⟩
    | true =>
      have hs : s.pstateZA = false := Bool.eq_false_of_not_eq_true (Ne.symm hv)
      rw [setZA_enable hs, setZA_enable (s := { s with za := za, zt0 := zt0 }) hs]
      exact ⟨rfl, fun _ => ⟨rfl, fun h2 => by simp [hsme2, h2]⟩⟩

end Updates

/-! Outcomes. -/

section Outcomes

variable {haveSME2 : Bool} {s u : State} (h : SameApartFromDisabledZA haveSME2 s u)

include h

theorem sameOutcome_complete_disabledZA :
    SameOutcome (SameApartFromDisabledZA haveSME2) (complete s) (complete u) := by
  have hnext := fun v => sameApartFromDisabledZA_pc h v
  obtain ⟨za, zt0, rfl⟩ := eq_with_za h
  exact sameOutcome_ite (hnext _) rfl

theorem sameOutcome_checked_disabledZA {f f' : Bool} (hf : f' = f) (k : LegalClass) {e e' : Out}
    (he : illegalReason k s.pstateSM s.pstateZA s.fa64Active = none →
      SameOutcome (SameApartFromDisabledZA haveSME2) e e') :
    SameOutcome (SameApartFromDisabledZA haveSME2) (checked f k s e) (checked f' k u e') := by
  obtain ⟨za, zt0, rfl⟩ := eq_with_za h
  exact sameOutcome_checked_congr hf rfl rfl rfl rfl rfl he

/-- What accesses ZA storage or ZT0 stops before its effect. -/
theorem sameOutcome_exec_of_za_access (hza : s.pstateZA = false) {i : Instr} (hi : legalClass i ≠ .k6) :
    SameOutcome (SameApartFromDisabledZA haveSME2) (exec i s) (exec i u) := by
  have hfeature : featurePresent u.cfg i = featurePresent s.cfg i := by
    obtain ⟨za, zt0, rfl⟩ := eq_with_za h
    rfl
  obtain ⟨e, hs⟩ := exec_eq_checked i s
  obtain ⟨e', hu⟩ := exec_eq_checked i u
  rw [hs, hu]
  refine sameOutcome_checked_disabledZA h hfeature _ fun hlegal => ?_
  rw [hza] at hlegal
  exact absurd hlegal (illegalReason_of_za_access hi _ _)

/-- A write of the mode bits. -/
theorem sameOutcome_setModes_disabledZA (hsme2 : s.cfg.haveSME2 = haveSME2) (sm za : Bool) :
    SameOutcome (SameApartFromDisabledZA haveSME2) (complete ((s.setSM sm).setZA za))
      (complete ((u.setSM sm).setZA za)) :=
  sameOutcome_complete_disabledZA
    (sameApartFromDisabledZA_setZA (sameApartFromDisabledZA_setSM h sm) (by rw [setSM_cfg, hsme2]) za)

/-- By the instruction: those of class K6 read and write the mode bits and a general-purpose register, all others
access ZA storage or ZT0. -/
theorem sameOutcome_exec_disabledZA (hza : s.pstateZA = false) (hsme2 : s.cfg.haveSME2 = haveSME2) (i : Instr) :
    SameOutcome (SameApartFromDisabledZA haveSME2) (exec i s) (exec i u) := by
  obtain ⟨za, zt0, hu⟩ := eq_with_za h
  have hsme : u.cfg.haveSME = s.cfg.haveSME := by rw [hu]
  have hsetSM := fun v => sameOutcome_complete_disabledZA (sameApartFromDisabledZA_setSM h v)
  have hsetZA := fun v => sameOutcome_complete_disabledZA (sameApartFromDisabledZA_setZA h hsme2 v)
  have hmodes := sameOutcome_setModes_disabledZA h hsme2
  cases i with
  | smstartSM => exact sameOutcome_checked_disabledZA h hsme .k6 fun _ => hsetSM true
  | smstopSM => exact sameOutcome_checked_disabledZA h hsme .k6 fun _ => hsetSM false
  | smstartZA => exact sameOutcome_checked_disabledZA h hsme .k6 fun _ => hsetZA true
  | smstopZA => exact sameOutcome_checked_disabledZA h hsme .k6 fun _ => hsetZA false
  | smstart => exact sameOutcome_checked_disabledZA h hsme .k6 fun _ => hmodes true true
  | smstop => exact sameOutcome_checked_disabledZA h hsme .k6 fun _ => hmodes false false
  | msrSVCR rt =>
    have hread : u.readXZ rt = s.readXZ rt := by
      rw [hu]
      cases rt <;> rfl
    refine sameOutcome_checked_disabledZA h hsme .k6 fun _ => ?_
    rw [hread]
    exact hmodes _ _
  | mrsSVCR rt =>
    have hsvcr : u.svcr = s.svcr := by rw [hu]; rfl
    refine sameOutcome_checked_disabledZA h hsme .k6 fun _ => ?_
    rw [hsvcr]
    exact sameOutcome_complete_disabledZA (sameApartFromDisabledZA_writeXZ h rt _)
  | _ => exact sameOutcome_exec_of_za_access h hza (by simp [legalClass])

end Outcomes

/-- Settles O37: any two contents of ZA storage and ZT0 are alike while PSTATE.ZA is 0, and stay so until it is 1, when
they are equal. -/
theorem disabledZAIsNotObservable : Obligations.DisabledZAIsNotObservable := by
  intro i s za zt0 hza
  have hstart : SameApartFromDisabledZA s.cfg.haveSME2 s { s with za := za, zt0 := zt0 } :=
    ⟨rfl, fun hz => absurd (hza.symm.trans hz) Bool.false_ne_true⟩
  exact sameOutcome_exec_disabledZA hstart hza rfl i

end Sys2Proof.Proofs
end

section
/-! PROOFS. Tiles and their slices in ZA storage (44_za_storage_and_tiles.md R203-R208): what the element accesses of a
tile read back, in a horizontal and in a vertical slice, and which array vectors a tile is made of. -/

namespace Sys2Proof.Proofs

open Sys2Proof.Machine Sys2Proof.Laws

/-! Elements of a container. -/

/-- The element that was written. -/
theorem elem_setElem_same {W w e : Nat} (v : BitVec W) (x : BitVec w) (h : (e + 1) * w ≤ W) :
    elem (setElem v e w x) e w = x := by
  rw [Nat.succ_mul] at h
  apply BitVec.eq_of_getLsbD_eq
  intro i hi
  rw [getLsbD_elem, getLsbD_setElem, if_pos (by omega), Nat.add_sub_cancel_left]
  simp only [hi, show e * w + i < W by omega, decide_true, Bool.true_and]

/-- Every other element is as it was: two elements of one size have no bit in common. -/
theorem elem_setElem_of_ne {W w e e' : Nat} (v : BitVec W) (x : BitVec w) (h : e' ≠ e) :
    elem (setElem v e w x) e' w = elem v e' w := by
  apply BitVec.eq_of_getLsbD_eq
  intro i hi
  have hout : ¬ (e * w ≤ e' * w + i ∧ e' * w + i < e * w + w) := by
    rcases Nat.lt_or_gt_of_ne h with hlt | hgt
    · have := Nat.mul_le_mul_right w hlt
      rw [Nat.succ_mul] at this
      omega
    · have := Nat.mul_le_mul_right w hgt
      rw [Nat.succ_mul] at this
      omega
  rw [getLsbD_elem, getLsbD_elem, getLsbD_setElem, if_neg hout]

/-- Every element of a slice lies in the bits of an array vector. -/
theorem elem_end_le_svlBits (s : State) {es : ESize} {e : Nat} (he : e < s.tileDim es) :
    (e + 1) * es.bits ≤ s.svlBits :=
  calc (e + 1) * es.bits ≤ s.tileDim es * es.bits := Nat.mul_le_mul_right _ he
    _ = s.svlBits := tileDim_mul_bits s es

theorem svlBits_le (s : State) : s.svlBits ≤ 2048 := by
  have := svlBits_eq s
  have := svlB_le s
  omega

/-! Array vectors and horizontal slices. -/

theorem hSliceVector_mod {t : Nat} (n : Nat) {es : ESize} (ht : t < es.bytes) : hSliceVector t n es % es.bytes = t := by
  rw [hSliceVector, Nat.add_mul_mod_self_left, Nat.mod_eq_of_lt ht]

theorem hSliceVector_sub (t n : Nat) (es : ESize) : hSliceVector t n es - t = es.bytes * n :=
  Nat.add_sub_cancel_left t _

/-- Array vector k is horizontal slice k div b of tile k mod b. -/
theorem hSliceVector_vectorAsSlice (k : Nat) (es : ESize) :
    hSliceVector (vectorAsSlice k es).1 (vectorAsSlice k es).2 es = k := Nat.mod_add_div k es.bytes

/-- The array vectors of a tile are its horizontal slices. -/
theorem tileHasVector_iff {s : State} {t k : Nat} {es : ESize} (ht : t < es.bytes) (hk : k < s.svlB) :
    tileHasVector t es k = true ↔ ∃ n < s.tileDim es, k = hSliceVector t n es := by
  rw [tileHasVector, decide_eq_true_iff]
  constructor
  · rintro rfl
    refine ⟨k / es.bytes, ?_, (hSliceVector_vectorAsSlice k es).symm⟩
    rwa [Nat.div_lt_iff_lt_mul (esize_bytes_pos es), tileDim_mul]
  · rintro ⟨n, -, rfl⟩
    exact hSliceVector_mod n ht

/-- A horizontal slice reads back the vector written to it. -/
theorem readHSlice_writeHSlice {s : State} {t n : Nat} {es : ESize} {v : VecReg} (ht : t < es.bytes)
    (hn : n < s.tileDim es) (hv : lowBits s.svlBits v = v) : (s.writeHSlice t n es v).readHSlice t n es = v := by
  have hk : hSliceVector t n es < 256 := Nat.lt_of_lt_of_le (hSliceVector_lt s ht hn) (svlB_le s)
  rw [State.readHSlice, State.writeHSlice, zaVec_writeZAVec s hv _ hk, if_pos rfl]

/-! Vertical slices. -/

section VerticalSlice

variable {s : State} {es : ESize} {t n i : Nat} (v : VecReg)

/-- An element of a vertical slice lies in the horizontal slice of its number. -/
theorem elem_readVSlice (s : State) (t n : Nat) (hi : i < s.tileDim es) :
    elem (s.readVSlice t n es) i es.bits = elem (s.readHSlice t i es) n es.bits :=
  elem_buildElems _ hi (Nat.le_trans (Nat.le_of_eq (tileDim_mul_bits s es)) (svlBits_le s))

/-- A horizontal slice after a write of a vertical slice of its tile: one element is replaced. -/
theorem readHSlice_writeVSlice (ht : t < es.bytes) (hi : i < s.tileDim es) :
    (s.writeVSlice t n es v).readHSlice t i es
      = lowBits s.svlBits (setElem (s.readHSlice t i es) n es.bits (elem v i es.bits)) := by
  have hk : hSliceVector t i es < 256 := Nat.lt_of_lt_of_le (hSliceVector_lt s ht hi) (svlB_le s)
  have hslice : (hSliceVector t i es - t) / es.bytes = i := by
    rw [hSliceVector_sub, Nat.mul_div_cancel_left i (esize_bytes_pos es)]
  have hin : t ≤ hSliceVector t i es ∧ (hSliceVector t i es - t) % es.bytes = 0
      ∧ (hSliceVector t i es - t) / es.bytes < s.tileDim es :=
    ⟨Nat.le_add_right t _, by rw [hSliceVector_sub, Nat.mul_mod_right], hslice.symm ▸ hi⟩
  rw [State.readHSlice, State.writeVSlice, zaVec_mapZA s _ hk, if_pos hin, hslice]
  rfl

/-- The write of a vertical slice puts element i of the vector into horizontal slice i. -/
theorem elem_readHSlice_writeVSlice_same (ht : t < es.bytes) (hn : n < s.tileDim es) (hi : i < s.tileDim es) :
    elem ((s.writeVSlice t n es v).readHSlice t i es) n es.bits = elem v i es.bits := by
  have hend := elem_end_le_svlBits s hn
  rw [readHSlice_writeVSlice v ht hi, elem_lowBits _ hend, elem_setElem_same _ _ (Nat.le_trans hend (svlBits_le s))]

/-- It keeps the elements of every other vertical slice of the tile. -/
theorem elem_readHSlice_writeVSlice_of_ne {m : Nat} (ht : t < es.bytes) (hi : i < s.tileDim es)
    (hm : m < s.tileDim es) (hne : m ≠ n) :
    elem ((s.writeVSlice t n es v).readHSlice t i es) m es.bits = elem (s.readHSlice t i es) m es.bits := by
  rw [readHSlice_writeVSlice v ht hi, elem_lowBits _ (elem_end_le_svlBits s hm), elem_setElem_of_ne _ _ hne]

/-- A vertical slice reads back the vector written to it, element by element. -/
theorem readVSlice_writeVSlice {v : VecReg} (ht : t < es.bytes) (hn : n < s.tileDim es)
    (hv : lowBits s.svlBits v = v) : (s.writeVSlice t n es v).readVSlice t n es = v := by
  have hsvl : (s.writeVSlice t n es v).svlBits = s.svlBits := congrArg VecLen.bits (writeSlice_svl s .vertical t n es v)
  have hdim : (s.writeVSlice t n es v).tileDim es = s.tileDim es := writeSlice_tileDim s .vertical t n es es v
  have hread := lowBits_readSlice (s.writeVSlice t n es v) .vertical t n es
  rw [hsvl, ← tileDim_mul_bits s es] at hread
  rw [← tileDim_mul_bits s es] at hv
  refine eq_of_elems (Nat.mul_pos (by decide) (esize_bytes_pos es)) hread hv fun i hi => ?_
  rw [elem_readVSlice _ t n (hdim.symm ▸ hi), elem_readHSlice_writeVSlice_same v ht hn hi]

end VerticalSlice

/-! Tiles of two element sizes. -/

theorem esize_bytes_eq_two_pow (es : ESize) : ∃ k, es.bytes = 2 ^ k := by
  cases es
  · exact ⟨0, rfl⟩
  · exact ⟨1, rfl⟩
  · exact ⟨2, rfl⟩
  · exact ⟨3, rfl⟩
  · exact ⟨4, rfl⟩

theorem esize_bytes_dvd_of_le {x y : ESize} (h : x.bytes ≤ y.bytes) : x.bytes ∣ y.bytes := by
  obtain ⟨k, hx⟩ := esize_bytes_eq_two_pow x
  obtain ⟨l, hy⟩ := esize_bytes_eq_two_pow y
  rw [hx, hy] at h ⊢
  exact Nat.pow_dvd_pow 2 ((Nat.pow_le_pow_iff_right (by decide)).mp h)

/-- The number of a tile is also that of one of its array vectors, its first horizontal slice. -/
theorem tile_lt_svlB (s : State) {t : Nat} {es : ESize} (ht : t < es.bytes) : t < s.svlB :=
  hSliceVector_lt s (n := 0) ht (tileDim_pos s es)

/-- A tile of the larger element size has its array vectors all in one tile of the smaller, or none of them. -/
theorem vectorShared_iff_of_le (s : State) {x y : ESize} {a b : Nat} (hle : x.bytes ≤ y.bytes) (hb : b < y.bytes) :
    (∃ k < s.svlB, tileHasVector a x k = true ∧ tileHasVector b y k = true) ↔ b % x.bytes = a := by
  simp only [tileHasVector, decide_eq_true_eq]
  constructor
  · rintro ⟨k, -, rfl, rfl⟩
    exact Nat.mod_mod_of_dvd k (esize_bytes_dvd_of_le hle)
  · intro h
    exact ⟨b, tile_lt_svlB s hb, h, Nat.mod_eq_of_lt hb⟩

/-- The overlap formula, which puts the smaller element size first, says when two tiles share an array vector. -/
theorem tilesOverlap_iff_vectorShared (s : State) {x y : ESize} {a b : Nat} (ha : a < x.bytes) (hb : b < y.bytes) :
    tilesOverlap a x b y = true ↔ ∃ k < s.svlB, tileHasVector a x k = true ∧ tileHasVector b y k = true := by
  by_cases hle : x.bytes ≤ y.bytes
  · rw [tilesOverlap, if_pos hle, decide_eq_true_iff, vectorShared_iff_of_le s hle hb]
  · rw [tilesOverlap, if_neg hle, decide_eq_true_iff, ← vectorShared_iff_of_le s (Nat.le_of_not_le hle) ha]
    simp only [and_comm]

/-! The statements. -/

/-- Settles O41, by direction: a horizontal slice is an array vector, a vertical one is compared by elements. -/
theorem sliceReadsBackWhatWasWritten : Obligations.SliceReadsBackWhatWasWritten := by
  intro s es dir t n v ht hn hv
  refine ⟨?_, fun k _ => congrArg s.zaVec (hSliceVector_vectorAsSlice k es)⟩
  cases dir with
  | horizontal => exact readHSlice_writeHSlice ht hn hv
  | vertical => exact readVSlice_writeVSlice ht hn hv

/-- Settles O42: a write of a vertical slice replaces one element in each horizontal slice of the tile. -/
theorem verticalSliceIsElementOfEachHorizontal : Obligations.VerticalSliceIsElementOfEachHorizontal :=
  fun s _ t n _ v ht hn hi _ =>
    ⟨elem_readVSlice s t n hi, elem_readHSlice_writeVSlice_same v ht hn hi,
      fun _ hm hne => elem_readHSlice_writeVSlice_of_ne v ht hi hm hne⟩

/-- Settles O43: the size of the smaller elements divides that of the larger, and a tile number is one of the array
vectors of its tile at every SVL. -/
theorem tilesOverlapIffVectorShared : Obligations.TilesOverlapIffVectorShared :=
  fun s _ _ _ _ ha hb => ⟨tilesOverlap_iff_vectorShared s ha hb, fun _ hk => tileHasVector_iff ha hk⟩

end Sys2Proof.Proofs
end

section
/-! PROOFS. Multi-vector operands (45_multi_vector_operands.md): the slices of a tile, the groups of array vectors and
the vector registers that one operand names. The numbers of slices, groups and vectors are powers of two, as are the
sizes of a tile and of ZA storage, so what is rounded down to a multiple of one of them leaves room for that many up to
the end of its range. -/

namespace Sys2Proof.Proofs

open Sys2Proof.Machine Sys2Proof.Laws

/-! Rounding down. -/

theorem roundDown_eq_div_mul (a m : Nat) : roundDown a m = a / m * m := Nat.div_mul_self_eq_mod_sub_self.symm

theorem dvd_roundDown (a m : Nat) : m ∣ roundDown a m := Nat.dvd_sub_mod a

/-- Between a multiple of `m` and a larger one there is room for `m` numbers. -/
theorem add_le_of_dvd_of_lt {m a d : Nat} (ha : m ∣ a) (hd : m ∣ d) (hlt : a < d) : a + m ≤ d :=
  Nat.le_of_lt_add_of_dvd (Nat.add_lt_add_right hlt m) (Nat.dvd_add ha (dvd_refl m)) hd

/-! Sizes. -/

theorem sixteen_dvd_svlB (s : State) : 16 ∣ s.svlB := by unfold State.svlB; cases s.svl <;> decide

theorem sixteen_le_svlB (s : State) : 16 ≤ s.svlB := Nat.le_of_dvd (svlB_pos s) (sixteen_dvd_svlB s)

theorem svlB_lt_thirtyTwo_iff (s : State) : s.svlB < 32 ↔ s.svl = .v128 := by
  unfold State.svlB; cases s.svl <;> decide

theorem svlB_lt_sixtyFour_iff (s : State) : s.svlB < 64 ↔ s.svl = .v128 ∨ s.svl = .v256 := by
  unfold State.svlB; cases s.svl <;> decide

theorem svlB_eq_two_pow (s : State) : ∃ e, s.svlB = 2 ^ e := by
  unfold State.svlB
  cases s.svl
  · exact ⟨4, rfl⟩
  · exact ⟨5, rfl⟩
  · exact ⟨6, rfl⟩
  · exact ⟨7, rfl⟩
  · exact ⟨8, rfl⟩

theorem tileDim_eq_two_pow (s : State) (es : ESize) : ∃ e, s.tileDim es = 2 ^ e := by
  obtain ⟨e, he⟩ := svlB_eq_two_pow s
  have hdvd : s.tileDim es ∣ 2 ^ e := he ▸ Dvd.intro _ (tileDim_mul s es)
  obtain ⟨d, -, hd⟩ := (Nat.dvd_prime_pow Nat.prime_two).mp hdvd
  exact ⟨d, hd⟩

theorem groupNum_val_pos (k : GroupNum) : 0 < k.val := by cases k <;> decide

theorem groupNum_val_eq_two_pow (k : GroupNum) : ∃ e, k.val = 2 ^ e := by
  cases k
  · exact ⟨0, rfl⟩
  · exact ⟨1, rfl⟩
  · exact ⟨2, rfl⟩

theorem groupNum_mul_dvd_sixteen (ng gs : GroupNum) : ng.val * gs.val ∣ 16 := by
  cases ng <;> cases gs <;> decide

/-- A tile with enough slices for the operand is made of whole operands. -/
theorem groupNum_dvd_tileDim_of_le {s : State} {es : ESize} {k : GroupNum} (h : k.val ≤ s.tileDim es) :
    k.val ∣ s.tileDim es := by
  obtain ⟨i, hk⟩ := groupNum_val_eq_two_pow k
  obtain ⟨e, hd⟩ := tileDim_eq_two_pow s es
  rw [hk, hd] at h ⊢
  exact Nat.pow_dvd_pow 2 ((Nat.pow_le_pow_iff_right (by decide)).mp h)

/-! ZA multi-slice operands. -/

theorem multiSliceOperand_of_lt {s : State} {es : ESize} {k : GroupNum} (ws : SelReg) (offs : Nat)
    (h : s.tileDim es < k.val) : s.multiSliceOperand ws offs es k = .error .undefinedInstr := if_pos h

theorem multiSliceOperand_of_le {s : State} {es : ESize} {k : GroupNum} (ws : SelReg) (offs : Nat)
    (h : k.val ≤ s.tileDim es) :
    s.multiSliceOperand ws offs es k =
      .ok ((List.range k.val).map (fun j => roundDown (s.sel ws + offs) k.val % s.tileDim es + j)) :=
  if_neg (Nat.not_lt.mpr h)

/-- A slice has as many elements as its tile has slices: too many slices are too many elements for an array vector. -/
theorem tileDim_lt_iff (s : State) (es : ESize) (m : Nat) : s.tileDim es < m ↔ s.svlB < m * es.bytes := by
  rw [← tileDim_mul s es, Nat.mul_lt_mul_right (esize_bytes_pos es)]

/-- The cases of R244: four .D elements or two .Q elements are 32 bytes, four .Q elements are 64, and every other
operand fits the shortest array vector, 16 bytes. -/
theorem tileDim_lt_groupNum_iff (s : State) (es : ESize) {k : GroupNum} (hk : k ≠ .one) :
    s.tileDim es < k.val ↔
      (es = .d ∧ k = .four ∧ s.svl = .v128) ∨ (es = .q ∧ k = .two ∧ s.svl = .v128)
        ∨ (es = .q ∧ k = .four ∧ (s.svl = .v128 ∨ s.svl = .v256)) := by
  have hmin := sixteen_le_svlB s
  rw [tileDim_lt_iff, ← svlB_lt_sixtyFour_iff, ← svlB_lt_thirtyTwo_iff]
  cases k with
  | one => exact absurd rfl hk
  | two => cases es <;> simp [GroupNum.val, ESize.bytes] <;> omega
  | four => cases es <;> simp [GroupNum.val, ESize.bytes] <;> omega

/-! ZA multi-vector operands. -/

theorem groupNum_dvd_svlB (s : State) (ng : GroupNum) : ng.val ∣ s.svlB :=
  (Dvd.intro _ rfl).trans ((groupNum_mul_dvd_sixteen ng .one).trans (sixteen_dvd_svlB s))

/-- A part of ZA storage is made of whole groups. -/
theorem groupNum_dvd_part (s : State) (ng gs : GroupNum) : gs.val ∣ s.svlB / ng.val :=
  Nat.dvd_div_of_mul_dvd ((groupNum_mul_dvd_sixteen ng gs).trans (sixteen_dvd_svlB s))

theorem part_pos (s : State) (ng : GroupNum) : 0 < s.svlB / ng.val :=
  Nat.div_pos (Nat.le_of_dvd (svlB_pos s) (groupNum_dvd_svlB s ng)) (groupNum_val_pos ng)

theorem dvd_multiVectorFirst (svlB sum : Nat) (ng gs : GroupNum) : gs.val ∣ multiVectorFirst svlB sum ng gs :=
  dvd_roundDown _ _

/-- The group that starts at the lowest-numbered vector ends inside the first part. -/
theorem multiVectorFirst_add_le (s : State) (sum : Nat) (ng gs : GroupNum) :
    multiVectorFirst s.svlB sum ng gs + gs.val ≤ s.svlB / ng.val :=
  add_le_of_dvd_of_lt (dvd_multiVectorFirst _ _ _ _) (groupNum_dvd_part s ng gs)
    (Nat.lt_of_le_of_lt (Nat.sub_le _ _) (Nat.mod_lt _ (part_pos s ng)))

/-- Where a part starts, as the statement writes it: the number of parts divides the number of array vectors. -/
theorem part_start_eq (s : State) (ng : GroupNum) (g : Nat) : s.svlB * g / ng.val = g * (s.svlB / ng.val) := by
  rw [Nat.mul_comm, Nat.mul_div_assoc _ (groupNum_dvd_svlB s ng)]

/-- A number inside part `g` names that part. -/
theorem part_div_eq {part g i : Nat} (hi : i < part) : (g * part + i) / part = g := by
  rw [Nat.mul_comm, Nat.mul_add_div (Nat.zero_lt_of_lt hi), Nat.div_eq_of_lt hi, Nat.add_zero]

/-- Groups of consecutive vectors, each inside its own part, have no vector in common. -/
theorem groups_flatten_nodup {ng gs n part : Nat} (h : n + gs ≤ part) :
    ((List.range ng).map (fun g => (List.range gs).map (fun j => g * part + n + j))).flatten.Nodup := by
  rw [← List.flatMap_def, List.nodup_flatMap]
  constructor
  · intro g _
    exact List.nodup_range.map (fun _ _ heq => Nat.add_left_cancel heq)
  · refine List.nodup_range.imp fun {g g'} hne x hx hx' => hne ?_
    obtain ⟨j, hj, rfl⟩ := List.mem_map.mp hx
    obtain ⟨j', hj', heq⟩ := List.mem_map.mp hx'
    have hin : n + j < part := by have := List.mem_range.mp hj; omega
    have hin' : n + j' < part := by have := List.mem_range.mp hj'; omega
    rw [Nat.add_assoc, Nat.add_assoc] at heq
    calc g = (g * part + (n + j)) / part := (part_div_eq hin).symm
      _ = (g' * part + (n + j')) / part := by rw [heq]
      _ = g' := part_div_eq hin'

/-- A vector in one of the first `ng` parts is one of the first `ng * part`. -/
theorem mem_groups_flatten_lt {ng gs n part k : Nat} (h : n + gs ≤ part)
    (hk : k ∈ ((List.range ng).map (fun g => (List.range gs).map (fun j => g * part + n + j))).flatten) :
    k < ng * part := by
  simp only [List.mem_flatten, List.mem_map, List.mem_range] at hk
  obtain ⟨_, ⟨g, hg, rfl⟩, hk⟩ := hk
  obtain ⟨j, hj, rfl⟩ := List.mem_map.mp hk
  rw [List.mem_range] at hj
  calc g * part + n + j < (g + 1) * part := by rw [Nat.succ_mul]; omega
    _ ≤ ng * part := Nat.mul_le_mul_right _ hg

/-! Z multi-vector operands. -/

theorem zConsecutive_val (k : Nat) (n : Fin 32) :
    (zConsecutive k n).map (fun r => r.val) = (List.range k).map (fun j => (n.val + j) % 32) := List.map_map

theorem zReg_val_of_lt {r : Nat} (h : r < 32) : (zReg r).val = r := Nat.mod_eq_of_lt h

theorem zStrided2_eq_some {n : Fin 32} {l : List (Fin 32)} :
    zStrided2 n = some l ↔ (n.val < 8 ∨ (16 ≤ n.val ∧ n.val < 24)) ∧ [n, zReg (n.val + 8)] = l :=
  Option.ite_none_right_eq_some.trans (and_congr_right fun _ => Option.some_inj)

theorem zStrided4_eq_some {n : Fin 32} {l : List (Fin 32)} :
    zStrided4 n = some l ↔ (n.val < 4 ∨ (16 ≤ n.val ∧ n.val < 20))
      ∧ [n, zReg (n.val + 4), zReg (n.val + 8), zReg (n.val + 12)] = l :=
  Option.ite_none_right_eq_some.trans (and_congr_right fun _ => Option.some_inj)

/-! The statements. -/

/-- Settles O57: the number of slices divides that of the tile when it is no larger, so the first slice is still a
multiple of it after the modulo and the last slice is inside the tile. -/
theorem multiSliceOperand : Obligations.MultiSliceOperand := by
  intro s ws offs es k hk
  refine ⟨multiSliceOperand_of_lt ws offs, fun hle => ?_, tileDim_lt_groupNum_iff s es hk⟩
  have hdim := groupNum_dvd_tileDim_of_le hle
  have hfirst := (Nat.dvd_mod_iff hdim).mpr (dvd_roundDown (s.sel ws + offs) k.val)
  refine ⟨_, multiSliceOperand_of_le ws offs hle, ?_, Nat.mod_eq_zero_of_dvd hfirst,
    add_le_of_dvd_of_lt hfirst hdim (Nat.mod_lt _ (tileDim_pos s es))⟩
  rw [roundDown_eq_div_mul]

/-- Settles O58: the groups are disjoint since each lies in a part of its own, where the rounding of the lowest-numbered
vector leaves room for it. -/
theorem multiVectorOperand : Obligations.MultiVectorOperand := by
  intro s wv offs ng gs
  have hroom := multiVectorFirst_add_le s (s.groupSel wv + offs) ng gs
  refine ⟨multiVectorFirst s.svlB (s.groupSel wv + offs) ng gs, Nat.mod_eq_zero_of_dvd (dvd_multiVectorFirst _ _ _ _),
    hroom, roundDown_eq_div_mul _ _, ?_, ?_, groups_flatten_nodup hroom, fun k hk => ?_⟩
  · rintro rfl
    rw [multiVectorFirst, roundDown_eq_div_mul, GroupNum.val, Nat.div_one, Nat.mul_one]
  · simp only [State.multiVectorOperand, zaMultiVector, part_start_eq, Nat.add_assoc]
  · calc k < ng.val * (s.svlB / ng.val) := mem_groups_flatten_lt hroom hk
      _ = s.svlB := Nat.mul_div_cancel' (groupNum_dvd_svlB s ng)

/-- Settles O59: only consecutive numbering wraps, since every strided register number is below 32. -/
theorem zMultiVectorRegisters : Obligations.ZMultiVectorRegisters := by
  refine ⟨zConsecutive_val, fun n => ⟨?_, fun l hl => ?_⟩, fun n => ⟨?_, fun l hl => ?_⟩⟩
  · simp only [Option.isSome_iff_exists, zStrided2_eq_some, exists_and_left, exists_eq', and_true]
  · obtain ⟨hn, rfl⟩ := zStrided2_eq_some.mp hl
    simp only [List.map_cons, List.map_nil, zReg_val_of_lt (show n.val + 8 < 32 by omega)]
  · simp only [Option.isSome_iff_exists, zStrided4_eq_some, exists_and_left, exists_eq', and_true]
  · obtain ⟨hn, rfl⟩ := zStrided4_eq_some.mp hl
    simp only [List.map_cons, List.map_nil, zReg_val_of_lt (show n.val + 4 < 32 by omega),
      zReg_val_of_lt (show n.val + 8 < 32 by omega), zReg_val_of_lt (show n.val + 12 < 32 by omega)]

end Sys2Proof.Proofs
end

section
/-! PROOFS. The ZT0 lookup (46_zt0.md R270-R275; 43_streaming_mode_and_za_enable.md R177): what it leaves in the
elements of its destinations and in every other bit, and where an instruction that performs it is legal. -/

namespace Sys2Proof.Proofs

open Sys2Proof.Machine Sys2Proof.Safety Sys2Proof.Laws

/-- An element that lies whole in the bits written is one of the new value. -/
theorem elem_mergeLow {W : Nat} (old new : BitVec W) {n e w : Nat} (h : (e + 1) * w ≤ n) :
    elem (mergeLow n old new) e w = elem new e w := by
  rw [← elem_lowBits _ h, lowBits_mergeLow, elem_lowBits _ h]

/-- An index names one of the entries that its bits can count. -/
theorem packedIndex_lt (src : VecReg) (k : Nat) (isz : IndexSize) : packedIndex src k isz < 2 ^ isz.bits :=
  BitVec.isLt _

theorem elem_lookupResult (t : TableReg) (src : VecReg) (s : State) (es : TableESize) (isz : IndexSize)
    (nreg imm r : Nat) {e : Nat} (he : e < s.vlBits / es.bits) :
    elem (lookupResult t src s.vl es isz nreg imm r) e es.bits =
      tableElement t (packedIndex src (imm * (nreg * (s.vlBits / es.bits)) + r * (s.vlBits / es.bits) + e) isz) es :=
  elem_buildElems _ he (Nat.le_trans (Nat.div_mul_le_self _ _) (vlBits_le s))

/-! Registers written in a list of distinct registers. -/

section RegisterList

variable {s : State} {ds : List (Fin 32)} {f : Nat → VecReg}

/-- A register of the list takes the elements of its value that lie in the accessible bits. -/
theorem elem_writeZList (hd : ds.Nodup) {r e w : Nat} {d : Fin 32} (hr : ds[r]? = some d)
    (h : (e + 1) * w ≤ s.vlBits) :
    elem (s.writeZList ds 0 f).z[d] e w = elem (f r) e w := by
  rw [writeZList_getElem hd s 0 f hr, Nat.zero_add, elem_mergeLow _ _ h]

/-- A register outside the list, and the inaccessible bits of any register, keep what they held. -/
theorem getLsbD_writeZList_of_kept (hd : ds.Nodup) {m : Fin 32} {b : Nat} (h : m ∉ ds ∨ s.vlBits ≤ b) :
    (s.writeZList ds 0 f).z[m].getLsbD b = s.z[m].getLsbD b := by
  by_cases hm : m ∈ ds
  · obtain ⟨r, hr⟩ := List.mem_iff_getElem?.mp hm
    have hb : s.vlBits ≤ b := h.resolve_left (not_not_intro hm)
    rw [writeZList_getElem hd s 0 f hr, getLsbD_mergeLow, if_neg (Nat.not_lt.mpr hb)]
  · rw [writeZList_of_not_mem hm]

end RegisterList

/-! The lookup and the instruction that performs it. -/

section Lookup

variable {s : State} {dlist : List (Fin 32)} {es : TableESize} {isz : IndexSize} {n : Fin 32} {imm : Nat}

theorem zt0Lookup_rest : s.zt0Lookup dlist es isz n imm = { s with z := (s.zt0Lookup dlist es isz n imm).z } :=
  writeZList_rest _ _ _ _

theorem zt0Lookup_pc : (s.zt0Lookup dlist es isz n imm).pc = s.pc := by rw [zt0Lookup_rest]

theorem elem_zt0Lookup (hd : dlist.Nodup) {r e : Nat} {d : Fin 32} (hr : dlist[r]? = some d)
    (he : e < s.vlBits / es.bits) :
    elem (s.zt0Lookup dlist es isz n imm).z[d] e es.bits =
      tableElement s.zt0 (packedIndex (s.readZ n)
        (imm * (dlist.length * (s.vlBits / es.bits)) + r * (s.vlBits / es.bits) + e) isz) es := by
  have hinside : (e + 1) * es.bits ≤ s.vlBits :=
    Nat.le_trans (Nat.mul_le_mul_right _ he) (Nat.div_mul_le_self _ _)
  rw [State.zt0Lookup, elem_writeZList hd hr hinside, elem_lookupResult _ _ s _ _ _ _ _ he]

theorem lookupInstruction_of_legal (h : Sme2Ready s) (hsm : s.pstateSM = true) (hza : s.pstateZA = true) :
    lookupInstruction dlist es isz n imm s = .next { s.zt0Lookup dlist es isz n imm with pc := s.pc + 4#64 } := by
  have hlegal : illegalReason .k3 s.pstateSM s.pstateZA s.fa64Active = none := by rw [hsm, hza]; rfl
  have hpc : (s.zt0Lookup dlist es isz n imm).pc.toNat + 4 < 2 ^ 64 := by rw [zt0Lookup_pc]; exact h.pc
  rw [lookupInstruction, checked_pass h.feature h.access hlegal, complete_of_lt hpc, zt0Lookup_pc]

theorem lookupInstruction_of_illegal (h : Sme2Ready s) {reason : SmeReason}
    (hr : illegalReason .k3 s.pstateSM s.pstateZA s.fa64Active = some reason) :
    lookupInstruction dlist es isz n imm s = .fault (.smeIllegal reason s.pc) :=
  checked_of_illegal h.feature h.access hr

end Lookup

/-- Settles O60: distinct destinations are written independently of each other, each by the merge of its own result into
the accessible bits; the legality is that of class K3. -/
theorem zt0LookupByElement : Obligations.Zt0LookupByElement := by
  intro s dlist n es isz imm hd
  refine ⟨zt0Lookup_rest, fun r e d hr he => elem_zt0Lookup hd hr he, fun k => ?indices,
    fun m b h => getLsbD_writeZList_of_kept hd h, fun h => ⟨lookupInstruction_of_legal h, fun hsm => ?smIsZero,
      fun hsm hza => ?zaIsZero⟩⟩
  case indices =>
    have hlt := packedIndex_lt (s.readZ n) k isz
    cases isz with
    | two => exact hlt
    | four => exact hlt
  case smIsZero => exact lookupInstruction_of_illegal h (illegalReason_k3_of_sm _ _ hsm)
  case zaIsZero => exact lookupInstruction_of_illegal h (illegalReason_k3_of_za _ hsm hza)

end Sys2Proof.Proofs
end

section
/-! PROOFS. What the instructions on array vectors, on whole tiles and on ZT0 do, and what they leave unchanged
(47_named_instructions.md R284-R289). A transfer is compared byte by byte, and a tile by its horizontal slices. -/

namespace Sys2Proof.Proofs

open Sys2Proof.Machine Sys2Proof.Safety Sys2Proof.Laws

/-! Bytes between memory and a container. -/

/-- A container filled from mapped memory holds at byte j the byte of memory at that offset. -/
theorem byteAt_eq_elem_buildElems {m : Memory} {a n W j : Nat} (hm : Mapped m a n) (hW : n * 8 ≤ W) (hj : j < n) :
    m.byteAt (a + j) = some (elem (buildElems W 8 n fun k => m.byteD (a + k)) j 8) := by
  obtain ⟨-, hsome⟩ := hm
  rw [byteAt_eq_byteD (hsome j hj), elem_buildElems _ hj hW]

/-- A store of the bytes of a value that completes: what it writes and what it leaves unchanged. -/
theorem storeBytes_leBytes {W : Nat} {s : State} {a n : Nat} (v : BitVec W) (hm : Mapped s.mem a n)
    (ht : NoText s.text a n) (hp : s.pc.toNat + 4 < 2 ^ 64) :
    ∃ t, storeBytes s a (leBytes v n) = .next t
      ∧ t = { s with mem := t.mem, pc := s.pc + 4#64 }
      ∧ (∀ j < n, t.mem.byteAt (a + j) = some (elem v j 8))
      ∧ ∀ x, ¬ InRange a n x → t.mem.byteAt x = s.mem.byteAt x := by
  have hnext := storeBytes_eq_next.mpr
    ⟨(leBytes_length v n).symm ▸ ht, (leBytes_length v n).symm ▸ hm, hp, rfl⟩
  refine ⟨_, hnext, rfl, fun j hj => ?stored, fun x hx => ?frame⟩
  case stored => rw [byteAt_writeBytes_leBytes, if_pos (by omega), Nat.add_sub_cancel_left]
  case frame => exact (byteAt_writeBytes_leBytes s.mem a n v x).trans (if_neg hx)

/-! ZA storage as the only destination. -/

theorem mapZA_rest (s : State) (f : Nat → VecReg → VecReg) : s.mapZA f = { s with za := (s.mapZA f).za } := by
  simp only [State.mapZA]

theorem writeZAVec_rest (s : State) (k : Nat) (v : VecReg) :
    s.writeZAVec k v = { s with za := (s.writeZAVec k v).za } := mapZA_rest s _

/-- An update of ZA storage alone is one still when pc moves. -/
theorem za_rest_of_pc {s u : State} (h : u = { s with za := u.za }) (pc : DWord) :
    { u with pc := pc } = { s with za := u.za, pc := pc } := congrArg (fun w : State => { w with pc := pc }) h

theorem zaVec_of_pc (s : State) (pc : DWord) (k : Nat) : ({ s with pc := pc } : State).zaVec k = s.zaVec k :=
  zaVec_congr rfl rfl k

theorem zaByte_of_pc (s : State) (pc : DWord) (row col : Nat) :
    zaByte { s with pc := pc } row col = zaByte s row col := congrArg (elem · col 8) (zaVec_of_pc s pc row)

/-! LDR and STR (array vector). -/

/-- Settles O7: the vector built from the bytes of memory has no bit at or above SVL, so it is written whole. -/
theorem ldrArrayLoadsSelectedVector : Obligations.LdrArrayLoadsSelectedVector := by
  intro a s hs hz hb hm
  have hbits : s.svlB * 8 = s.svlBits := by rw [svlBits_eq, Nat.mul_comm]
  have hwritten := fun k (hk : k < s.svlB) => zaVec_writeZAVec s
    (lowBits_buildElems (W := 2048) (fun k => s.mem.byteD (s.arrayAddr a + k)) hbits.le)
    (s.selectVector a.wv a.offs.val) (Nat.lt_of_lt_of_le hk (svlB_le s))
  have hnext := (exec_ldrArray_of_ready hs hz).trans (loadArrayVector_eq_next.mpr ⟨hb, hm, hs.pc, rfl⟩)
  refine ⟨_, hnext, za_rest_of_pc (writeZAVec_rest s _ _) _, fun j hj => ?loaded, fun k hk hne => ?frame⟩
  case loaded =>
    have hvec := hwritten _ (selectVector_lt s a.wv a.offs.val)
    rw [if_pos rfl] at hvec
    rw [byteAt_eq_elem_buildElems hm (hbits.trans_le (svlBits_le s)) hj, zaByte_of_pc, zaByte, hvec]
  case frame => rw [zaVec_of_pc, hwritten k hk, if_neg hne]

/-- Settles O8: a store of the bytes of the selected array vector. -/
theorem strArrayStoresSelectedVector : Obligations.StrArrayStoresSelectedVector := by
  intro a s hs hz hb hm ht
  rw [exec_strArray_of_ready hs hz, storeArrayVector_of_aligned hb]
  exact storeBytes_leBytes _ hm ht hs.pc

/-! ZERO (tiles). -/

theorem exec_zeroTiles_of_ready {s : State} {mask : BitVec 8} (h : SmeReady s) (hz : s.pstateZA = true) :
    exec (.zeroTiles mask) s = zeroTilesEffect mask s := checked_k2 h.feature h.access hz

/-- Settles O9: an array vector is zeroed or written back, by its bit of the mask. -/
theorem zeroTilesZeroesMaskedVectors : Obligations.ZeroTilesZeroesMaskedVectors := by
  intro mask s hs hz
  have hnext := (exec_zeroTiles_of_ready (mask := mask) hs hz).trans (zeroTilesEffect_eq_next.mpr ⟨hs.pc, rfl⟩)
  refine ⟨_, hnext, za_rest_of_pc (mapZA_rest s _) _, fun k hk => ?_⟩
  rw [zaVec_of_pc, zaVec_mapZA s _ (Nat.lt_of_lt_of_le hk (svlB_le s)), decide_eq_true hk, Bool.true_and]
  split
  · exact lowBits_zero _
  · exact lowBits_zaVec s k

/-- A tile with the same horizontal slices has the same vertical slices. -/
theorem readSlice_congr {s u : State} {t n : Nat} {es : ESize} (dir : SliceDir) (hsvl : u.svl = s.svl)
    (hn : n < s.tileDim es) (h : ∀ i < s.tileDim es, u.readHSlice t i es = s.readHSlice t i es) :
    u.readSlice dir t n es = s.readSlice dir t n es := by
  cases dir with
  | horizontal => exact h n hn
  | vertical =>
    have hdim : u.tileDim es = s.tileDim es := by rw [State.tileDim, State.tileDim, hsvl]
    rw [State.readSlice, State.readSlice, State.readVSlice, State.readVSlice, hdim]
    exact buildElems_congr fun i hi => congrArg (elem · n es.bits) (h i hi)

/-- A tile whose horizontal slices are zero is zero in its vertical slices. -/
theorem readSlice_eq_zero {u : State} {t n : Nat} {es : ESize} (dir : SliceDir) (hn : n < u.tileDim es)
    (h : ∀ i < u.tileDim es, u.readHSlice t i es = 0#2048) : u.readSlice dir t n es = 0#2048 := by
  cases dir with
  | horizontal => exact h n hn
  | vertical =>
    apply BitVec.eq_of_getLsbD_eq
    intro b _
    rw [State.readSlice, State.readVSlice, getLsbD_buildElems]
    by_cases hb : b < u.tileDim es * es.bits
    · have hi : b / es.bits < u.tileDim es := Nat.div_lt_of_lt_mul (by rwa [Nat.mul_comm])
      have hzero : u.zaVec (hSliceVector t (b / es.bits) es) = 0#2048 := h _ hi
      simp [hzero]
    · simp [hb]

/-- Every element size but 128 bits divides the eight tiles that the mask counts. -/
theorem esize_bytes_dvd_eight {es : ESize} (h : es ≠ .q) : es.bytes ∣ 8 := by
  cases es with
  | q => exact absurd rfl h
  | _ => decide

/-- The bit of the mask of one tile at a horizontal slice of any tile of that element size. -/
theorem tileMask_hSliceVector {mask : BitVec 8} {es : ESize} {t t' : Nat} (hes : es ≠ .q) (ht' : t' < es.bytes)
    (hmask : ∀ i < 8, mask.getLsbD i = decide (i % es.bytes = t)) (i : Nat) :
    mask.getLsbD (hSliceVector t' i es % 8) = decide (t' = t) := by
  rw [hmask _ (Nat.mod_lt _ (by decide)), Nat.mod_mod_of_dvd _ (esize_bytes_dvd_eight hes), hSliceVector_mod i ht']

/-- Settles O10: the mask covers the array vectors of the tile and none of another tile of its size. -/
theorem zeroTilesAliasZeroesTile : Obligations.ZeroTilesAliasZeroesTile := by
  intro mask s es t hs hz hes ht hmask
  obtain ⟨u, hexec, hrest, hvec⟩ := zeroTilesZeroesMaskedVectors mask s hs hz
  have hsvl : u.svl = s.svl := by rw [hrest]; rfl
  have hdim : u.tileDim es = s.tileDim es := by rw [State.tileDim, State.tileDim, hsvl]
  have hslice : ∀ t' < es.bytes, ∀ i < s.tileDim es,
      u.readHSlice t' i es = if t' = t then 0#2048 else s.readHSlice t' i es := by
    intro t' ht' i hi
    simp only [State.readHSlice, hvec _ (hSliceVector_lt s ht' hi), tileMask_hSliceVector hes ht' hmask,
      decide_eq_true_eq]
  refine ⟨u, hexec, fun dir n hn => ?zeroed, fun dir t' ht' hne n hn => ?kept⟩
  case zeroed =>
    rw [← hdim] at hn
    exact readSlice_eq_zero dir hn fun i hi => (hslice t ht i (hdim ▸ hi)).trans (if_pos rfl)
  case kept => exact readSlice_congr dir hsvl hn fun i hi => (hslice t' ht' i hi).trans (if_neg hne)

/-! The instructions on ZT0. -/

/-- An entry of a table filled from memory is the little-endian word of its four bytes. -/
theorem tableEntry_buildElems (m : Memory) (a : Nat) {i : Nat} (hi : i < 16) :
    tableEntry (buildElems 512 8 64 fun k => m.byteD (a + k)) i = m.readLE (a + 4 * i) 4 := by
  have hwhole : ∀ v : BitVec 32, lowBits (4 * 8) v = v := fun v => by simp [lowBits]
  refine eq_of_elems (n := 4) (w := 8) (by decide) (hwhole _) (hwhole _) fun j hj => ?_
  calc elem (tableEntry (buildElems 512 8 64 fun k => m.byteD (a + k)) i) j 8
      = elem (buildElems 512 8 64 fun k => m.byteD (a + k)) (i * 4 + j) 8 := byte_elem (b := 4) _ hj
    _ = m.byteD (a + (i * 4 + j)) := elem_buildElems _ (by omega) (by decide)
    _ = m.byteD (a + 4 * i + j) := by rw [Nat.add_assoc, Nat.mul_comm 4 i]
    _ = elem (m.readLE (a + 4 * i) 4) j 8 := (elem_readLE m (a + 4 * i) hj).symm

/-- Settles O11: byte by byte, and the four bytes of an entry together. -/
theorem ldrTableLoadsZT0 : Obligations.LdrTableLoadsZT0 := by
  intro r s hs hz hb hm
  have hnext := (exec_ldrTable_of_ready hs hz).trans (loadTable_eq_next.mpr ⟨hb, hm, hs.pc, rfl⟩)
  refine ⟨_, hnext, rfl, fun k hk => ?bytes, fun i hi => ?entries⟩
  case bytes => exact byteAt_eq_elem_buildElems hm (by decide) hk
  case entries => exact tableEntry_buildElems _ _ hi

/-- Settles O12: a store of the 64 bytes of ZT0. -/
theorem strTableStoresZT0 : Obligations.StrTableStoresZT0 := by
  intro r s hs hz hb hm ht
  rw [exec_strTable_of_ready hs hz, storeTable_of_aligned hb]
  exact storeBytes_leBytes _ hm ht hs.pc

/-- Settles O13: every entry of a table of zeros is zero. -/
theorem zeroTableClearsZT0 : Obligations.ZeroTableClearsZT0 := by
  intro s hs hz
  exact ⟨_, (checked_k2 hs.feature hs.access hz).trans (complete_of_lt hs.pc), rfl, fun i _ => tableEntry_zero i⟩

end Sys2Proof.Proofs
end

section
/-! PROOFS. What the tile slice instructions do, and what they leave unchanged: LD1, ST1 and MOVA in every element size
and both directions (47_named_instructions.md R304-R316). A byte of ZA storage in the slice is matched with the byte of
the slice vector at the same element and offset. -/

namespace Sys2Proof.Proofs

open Sys2Proof.Machine Sys2Proof.Safety Sys2Proof.Laws

/-! The place of a byte in a slice vector. -/

section Place

variable {s : State} {es : ESize} {row col : Nat}

theorem byteIndex_div {e j : Nat} (hj : j < es.bytes) : (e * es.bytes + j) / es.bytes = e := by
  rw [Nat.mul_comm, Nat.mul_add_div (esize_bytes_pos es), Nat.div_eq_of_lt hj, Nat.add_zero]

theorem byteIndex_mod {e j : Nat} (hj : j < es.bytes) : (e * es.bytes + j) % es.bytes = j := by
  rw [Nat.mul_comm, Nat.mul_add_mod, Nat.mod_eq_of_lt hj]

/-- Byte j of an element lies in the bytes of an array vector. -/
theorem byteIndex_lt {e j : Nat} (he : e < s.tileDim es) (hj : j < es.bytes) : e * es.bytes + j < s.svlB :=
  calc e * es.bytes + j < e * es.bytes + es.bytes := Nat.add_lt_add_left hj _
    _ = (e + 1) * es.bytes := (Nat.succ_mul e es.bytes).symm
    _ ≤ s.tileDim es * es.bytes := Nat.mul_le_mul_right _ he
    _ = s.svlB := tileDim_mul s es

theorem div_bytes_lt_tileDim {c : Nat} (hc : c < s.svlB) : c / es.bytes < s.tileDim es := by
  rwa [Nat.div_lt_iff_lt_mul (esize_bytes_pos es), tileDim_mul]

theorem sliceElement_lt (dir : SliceDir) (hr : row < s.svlB) (hc : col < s.svlB) :
    sliceElement es dir row col < s.tileDim es := by
  cases dir with
  | horizontal => exact div_bytes_lt_tileDim hc
  | vertical => exact div_bytes_lt_tileDim hr

/-- A byte of ZA storage that belongs to a slice is where the slice has byte `col % b` of its element. -/
theorem slicePlace_sliceElement {dir : SliceDir} {t n : Nat} (h : sliceHasByte es dir t n row col = true) :
    slicePlace es dir t n (sliceElement es dir row col) (col % es.bytes) = (row, col) := by
  cases dir with
  | horizontal =>
    obtain rfl : row = t + es.bytes * n := of_decide_eq_true h
    exact Prod.ext rfl (Nat.div_add_mod col es.bytes)
  | vertical =>
    obtain ⟨rfl, rfl⟩ := of_decide_eq_true h
    exact Prod.ext (Nat.mod_add_div row es.bytes) (Nat.div_add_mod col es.bytes)

end Place

/-! Tile slices in ZA storage. -/

theorem writeSlice_rest (s : State) (dir : SliceDir) (t n : Nat) (es : ESize) (v : VecReg) :
    s.writeSlice dir t n es v = { s with za := (s.writeSlice dir t n es v).za } := by
  obtain ⟨f, hf, -⟩ := writeSlice_eq_mapZA s dir t n es v
  rw [hf]
  exact mapZA_rest s f

/-- Settles O17: every byte of the slice is written from the loaded vector, whose bytes are those of memory in the
Active elements and zero in the others. -/
theorem tileLoadWritesSlice : Obligations.TileLoadWritesSlice := by
  intro es a s hs hwf halign hmapped
  have hgoverns := fun e (he : e < s.tileDim es) => active_eq_governs hs.sm a.pg he
  have hmap : ∀ e < s.tileDim es, s.active a.pg es e = true →
      Mapped s.mem (s.sliceStart es a + e * es.bytes) es.bytes :=
    fun e he ha => hmapped e he ((hgoverns e he).symm.trans ha)
  have hnext := (exec_tileLoad_of_ready hs).trans (tileLoad_eq_next.mpr ⟨halign, hmap, hs.sme.pc, rfl⟩)
  refine ⟨_, hnext, za_rest_of_pc (writeSlice_rest s _ _ _ _ _) _, fun row hr col hc => ?_⟩
  obtain ⟨htile, -⟩ := slice_in_range hwf s
  have he := sliceElement_lt (es := es) a.slice.dir hr hc
  have hj := Nat.mod_lt col (esize_bytes_pos es)
  rw [zaByte_of_pc, zaByte_writeSlice s _ htile (lowBits_loadedSlice es a s) hr hc,
    byte_loadedSlice es a s (byteIndex_lt he hj), byteIndex_div hj, hgoverns _ he]
  refine ⟨fun hout => ?outside, fun hin => ⟨fun hg => ?active, fun hg => ?inactive⟩⟩
  case outside => rw [hout]; rfl
  case active =>
    obtain ⟨-, hsome⟩ := hmapped _ he hg
    rw [if_pos hin, if_pos hg, byteAt_eq_byteD (hsome _ hj), Nat.add_assoc]
  case inactive => rw [if_pos hin, hg]; rfl

/-- Settles O18: an address is written exactly when it is that of a byte of an Active element. -/
theorem tileStoreWritesActiveElements : Obligations.TileStoreWritesActiveElements := by
  intro es a s hs _ halign hallowed
  have hb := esize_bytes_pos es
  have hgoverns := fun e (he : e < s.tileDim es) => active_eq_governs hs.sm a.pg he
  have hboth := fun e he (ha : s.active a.pg es e = true) => hallowed e he ((hgoverns e he).symm.trans ha)
  have hnext := (exec_tileStore_of_ready hs).trans (tileStore_eq_next.mpr
    ⟨halign, fun e he ha => (hboth e he ha).2, fun e he ha => (hboth e he ha).1, hs.sme.pc, rfl⟩)
  refine ⟨_, hnext, rfl, fun e he hg j hj => ?stored, fun x hx => ?frame⟩
  case stored =>
    have hlt := byteIndex_lt he hj
    have hsub : s.sliceStart es a + e * es.bytes + j - s.sliceStart es a = e * es.bytes + j := by omega
    rw [State.memAfterTileStore, byteAt_storeElems _ _ hb, hsub, byteIndex_div hj, byteIndex_mod hj,
      if_pos ⟨by omega, by rw [tileDim_mul]; omega, (hgoverns e he).trans hg⟩, byte_elem_readSlice s _ he hj]
  case frame =>
    rw [State.memAfterTileStore, byteAt_storeElems _ _ hb, if_neg]
    rintro ⟨hge, hlt, hactive⟩
    have he : (x - s.sliceStart es a) / es.bytes < s.tileDim es := by
      rw [Nat.div_lt_iff_lt_mul hb]
      omega
    have hsplit := Nat.div_add_mod' (x - s.sliceStart es a) es.bytes
    have hoffset := Nat.mod_lt (x - s.sliceStart es a) hb
    exact hx _ he ((hgoverns _ he).symm.trans hactive) ⟨by omega, by omega⟩

/-! MOVA. -/

theorem exec_movaToVector_of_ready {s : State} (h : TileReady s) (es : ESize) (a : MovaOperands) :
    exec (Instr.movaToVector es a) s = moveToVector es a s := (exec_movaToVector es a s).trans (checked_k3 h)

theorem exec_movaToTile_of_ready {s : State} (h : TileReady s) (es : ESize) (a : MovaOperands) :
    exec (Instr.movaToTile es a) s = moveToTile es a s := (exec_movaToTile es a s).trans (checked_k3 h)

/-- Settles O19: in Streaming SVE mode the accessible bits are those of SVL, and the write merges byte by byte. -/
theorem movaToVectorMergesSlice : Obligations.MovaToVectorMergesSlice := by
  intro es a s hs _
  have hvl : s.vlBits = s.svlBits := congrArg VecLen.bits (vl_streaming hs.sm)
  have hnext := (exec_movaToVector_of_ready hs es a).trans (moveToVector_eq_next.mpr ⟨hs.sme.pc, rfl⟩)
  refine ⟨_, hnext, rfl, fun m hm => ?others, fun i hi => ?inaccessible, fun c hc => ?bytes⟩
  case others => exact (writeZ_getElem s a.z m _).trans (if_neg hm.symm)
  case inaccessible => exact getLsbD_writeZ_of_le s a.z a.z _ (hvl.trans_le hi)
  case bytes =>
    have hend : (c + 1) * 8 ≤ s.vlBits := by
      have := svlBits_eq s
      omega
    have hwritten := writeZ_getElem s a.z a.z
    simp only [if_pos] at hwritten
    simp only [hwritten, elem_mergeLow _ _ hend, byte_predicatedWrite _ _ _ s es hc,
      active_eq_governs hs.sm a.pg (div_bytes_lt_tileDim hc), byte_readSlice s _ hc, byte_readZ hs.sm a.z hc]

/-- Settles O20: a byte of an Inactive element is written back with the value read from its own place. -/
theorem movaToTileMergesVector : Obligations.MovaToTileMergesVector := by
  intro es a s hs hwf
  have hnext := (exec_movaToTile_of_ready hs es a).trans (moveToTile_eq_next.mpr ⟨hs.sme.pc, rfl⟩)
  refine ⟨_, hnext, za_rest_of_pc (writeSlice_rest s _ _ _ _ _) _, fun row hr col hc => ?_⟩
  obtain ⟨htile, -⟩ := slice_in_range hwf s
  have he := sliceElement_lt (es := es) a.slice.dir hr hc
  have hj := Nat.mod_lt col (esize_bytes_pos es)
  have hindex := byteIndex_lt he hj
  rw [zaByte_of_pc, zaByte_writeSlice s _ htile (lowBits_predicatedWrite _ _ _ s es _) hr hc,
    byte_predicatedWrite _ _ _ s es hindex, byte_readZ hs.sm a.z hindex, byte_readSlice s _ hindex, byteIndex_div hj,
    byteIndex_mod hj, active_eq_governs hs.sm a.pg he]
  by_cases hin : sliceHasByte es a.slice.dir a.slice.tile (s.sliceIndex es a.slice) row col = true
  · rw [if_pos hin, slicePlace_sliceElement hin]
    simp only [hin, true_and]
  · rw [if_neg hin, if_neg fun h => hin h.1]

end Sys2Proof.Proofs
end

section
/-! PROOFS. What the instructions that write and read PSTATE.SM and PSTATE.ZA do, and what they leave unchanged
(47_named_instructions.md R300-R302). All the writers are one write of both mode bits, a bit that a form does not name
being written with the value it has. -/

namespace Sys2Proof.Proofs

open Sys2Proof.Machine Sys2Proof.Safety Sys2Proof.Laws

/-! A write of both mode bits. -/

section SetModes

variable (s : State) (sm za : Bool)

/-- PSTATE.ZA is written last and leaves what PSTATE.SM governs. -/
theorem setModes_registers :
    ((s.setSM sm).setZA za).z = (s.setSM sm).z ∧ ((s.setSM sm).setZA za).p = (s.setSM sm).p
      ∧ ((s.setSM sm).setZA za).ffr = (s.setSM sm).ffr ∧ ((s.setSM sm).setZA za).fpsr = (s.setSM sm).fpsr :=
  ⟨setZA_z _ za, setZA_p _ za, setZA_ffr _ za, setZA_fpsr _ za⟩

theorem setModes_registers_same (h : sm = s.pstateSM) :
    ((s.setSM sm).setZA za).z = s.z ∧ ((s.setSM sm).setZA za).p = s.p
      ∧ ((s.setSM sm).setZA za).ffr = s.ffr ∧ ((s.setSM sm).setZA za).fpsr = s.fpsr := by
  have hkept := setModes_registers s sm za
  rwa [setSM_same h] at hkept ⊢

theorem setModes_storage_same (h : za = s.pstateZA) :
    ((s.setSM sm).setZA za).za = s.za ∧ ((s.setSM sm).setZA za).zt0 = s.zt0 := by
  rw [setZA_same (h.trans (setSM_pstateZA s sm).symm)]
  exact ⟨setSM_za s sm, setSM_zt0 s sm⟩

theorem setSM_rest : s.setSM sm = { s with
    pstateSM := (s.setSM sm).pstateSM, z := (s.setSM sm).z, p := (s.setSM sm).p, ffr := (s.setSM sm).ffr,
    fpsr := (s.setSM sm).fpsr } := by
  unfold State.setSM
  split <;> rfl

theorem setZA_rest : s.setZA za = { s with
    pstateZA := (s.setZA za).pstateZA, za := (s.setZA za).za, zt0 := (s.setZA za).zt0 } := by
  unfold State.setZA
  split
  · rfl
  · split <;> rfl

end SetModes

/-- A write of both mode bits has the effects that the statements list, wherever pc goes. -/
theorem modeChanged_setModes (s : State) (sm za : Bool) (pc : DWord) :
    ModeChanged s { (s.setSM sm).setZA za with pc := pc } sm za where
  smValue := by simp
  zaValue := by simp
  smSame := setModes_registers_same s sm za
  smChanged h := by simp [setSM_change h, fpsrAfterModeChange]
  zaSame := setModes_storage_same s sm za
  zaDisabled hs hza := by
    subst hza
    simp [setZA_disable (s := s.setSM sm) ((setSM_pstateZA s sm).trans hs)]
  zaEnabled hs hza := by
    subst hza
    rw [setZA_enable (s := s.setSM sm) ((setSM_pstateZA s sm).trans hs)]
    exact ⟨fun k => by simp, fun h2 => by simp [h2], fun h2 => by simp [h2]⟩
  rest := by
    rw [setZA_rest, setSM_rest]

/-- An instruction that is a write of both mode bits completes in every state of them. -/
theorem modeChanged_of_exec {i : Instr} {s : State} {sm za : Bool} (h : SmeReady s)
    (hi : exec i s = checked s.cfg.haveSME .k6 s (complete ((s.setSM sm).setZA za))) :
    ∃ t, exec i s = .next t ∧ ModeChanged s t sm za ∧ t.pc = s.pc + 4#64 := by
  have hpc : ((s.setSM sm).setZA za).pc = s.pc := by rw [setZA_pc, setSM_pc]
  refine ⟨{ (s.setSM sm).setZA za with pc := s.pc + 4#64 }, ?_, modeChanged_setModes s sm za _, rfl⟩
  rw [hi, checked_k6 h.feature h.access, complete_of_lt (hpc ▸ h.pc), hpc]

theorem setModes_smOnly (s : State) (v : Bool) : (s.setSM v).setZA s.pstateZA = s.setSM v :=
  setZA_same (setSM_pstateZA s v).symm

theorem setModes_zaOnly (s : State) (v : Bool) : (s.setSM s.pstateSM).setZA v = s.setZA v := by
  rw [setSM_same rfl]

/-- Settles O14: the forms for one mode bit write the other with the value it has. -/
theorem smstartSmstopChangeModes : Obligations.SmstartSmstopChangeModes := by
  intro s h
  refine ⟨modeChanged_of_exec h ?startSM, modeChanged_of_exec h ?stopSM, modeChanged_of_exec h ?startZA,
    modeChanged_of_exec h ?stopZA, modeChanged_of_exec h rfl, modeChanged_of_exec h rfl⟩
  case startSM => rw [setModes_smOnly]; rfl
  case stopSM => rw [setModes_smOnly]; rfl
  case startZA => rw [setModes_zaOnly]; rfl
  case stopZA => rw [setModes_zaOnly]; rfl

/-- Settles O15: MSR SVCR is a write of both mode bits with two bits of the source. -/
theorem msrSvcrWritesModes : Obligations.MsrSvcrWritesModes := by
  intro rt s h
  obtain ⟨t, hexec, hmodes, hpc⟩ := modeChanged_of_exec (i := .msrSVCR rt)
    (sm := (s.readXZ rt).getLsbD 0) (za := (s.readXZ rt).getLsbD 1) h rfl
  refine ⟨t, hexec, hpc, fun n hn => ?register, fun hzr => ?zero⟩
  case register => subst hn; exact hmodes
  case zero =>
    subst hzr
    have hbit : ∀ i, (s.readXZ .zr).getLsbD i = false := fun _ => BitVec.getLsbD_zero
    rwa [hbit, hbit] at hmodes

/-! MRS SVCR. -/

theorem getLsbD_svcr (s : State) {i : Nat} (hi : i < 64) :
    s.svcr.getLsbD i = ((i == 0 && s.pstateSM) || (i == 1 && s.pstateZA)) := by
  rw [State.svcr, getLsbD_setWidth_of_lt _ hi, BitVec.getLsbD_append]
  rcases i with _ | _ | i
  · simp
  · simp
  · simp

/-- The other general-purpose registers after one is written. -/
theorem writeX_getElem_of_ne (s : State) {d m : Fin 31} (v : DWord) (h : m ≠ d) : (s.writeX d v).x[m] = s.x[m] :=
  Vector.getElem_set_ne d.isLt m.isLt (fun heq => h (Fin.ext heq.symm))

theorem writeXZ_rest (s : State) (rt : XnZR) (v : DWord) : s.writeXZ rt v = { s with x := (s.writeXZ rt v).x } := by
  cases rt <;> rfl

/-- Settles O16: the destination takes SVCR whole; register 31 takes nothing. -/
theorem mrsSvcrReadsModes : Obligations.MrsSvcrReadsModes := by
  intro rt s h
  have hpc := writeXZ_pc s rt s.svcr
  have hnext : exec (.mrsSVCR rt) s = .next { s.writeXZ rt s.svcr with pc := s.pc + 4#64 } :=
    (checked_k6 h.feature h.access).trans (by rw [complete_of_lt (hpc ▸ h.pc), hpc])
  refine ⟨_, hnext, by rw [writeXZ_rest], fun hzr => ?discarded,
    fun n hn => ⟨fun i hi => ?bits, fun m hm => ?others⟩⟩
  case discarded => subst hzr; rfl
  case bits =>
    subst hn
    exact (congrArg (BitVec.getLsbD · i) (writeX_getElem_self s n s.svcr)).trans (getLsbD_svcr s hi)
  case others =>
    subst hn
    exact writeX_getElem_of_ne s s.svcr hm

end Sys2Proof.Proofs
end

section
/-! PROOFS. What no instruction changes beside the destinations it names (47_named_instructions.md R284-R316;
20_memory.md R60), and what comes before the effect of every instruction (R281; 60_exceptions.md R322, R325). -/

namespace Sys2Proof.Proofs

open Sys2Proof.Machine Sys2Proof.Safety Sys2Proof.Laws

/-! The fields that a change can reach. -/

section Change

variable {i : Instr} {s u : State}

/-- Each kind of change reaches its own destination; only a change of the mode bits reaches several. -/
theorem registers_of_change (h : Change i s u) (hi : changesModes i = false) :
    u.pstateSM = s.pstateSM ∧ u.pstateZA = s.pstateZA ∧ u.fpsr = s.fpsr ∧ u.p = s.p ∧ u.ffr = s.ffr := by
  cases h with
  | za f => simp
  | zt0 v => simp
  | mem m => simp
  | z n v => simp
  | mode sm za hm => exact absurd (hm.symm.trans hi) Bool.false_ne_true.symm
  | x rt => simp

theorem z_of_change (h : Change i s u) (hi : changesModes i = false) (hz : writesZ i = false) : u.z = s.z := by
  cases h with
  | za f => exact mapZA_z s f
  | zt0 v => rfl
  | mem m => rfl
  | z n v hv =>
    obtain ⟨es, a, rfl⟩ := hv
    cases es <;> cases hz
  | mode sm za hm => exact absurd (hm.symm.trans hi) Bool.false_ne_true.symm
  | x rt => exact writeXZ_z s rt _

theorem mem_of_change (h : Change i s u) (hi : storesMemory i = false) : u.mem = s.mem := by
  cases h with
  | mem m hm => exact absurd (hm.symm.trans hi) Bool.false_ne_true.symm
  | _ => simp

theorem x_of_change (h : Change i s u) (hi : ∀ rt, i ≠ .mrsSVCR rt) : u.x = s.x := by
  cases h with
  | x rt hrt => exact absurd hrt (hi rt)
  | _ => simp

/-- A change of memory replaces mapped bytes only. -/
theorem mapped_of_change (h : Change i s u) (x : Nat) : (u.mem.byteAt x).isSome = (s.mem.byteAt x).isSome := by
  cases h with
  | mem m hm hmapped => exact hmapped x
  | _ => simp

theorem rest_of_change (h : Change i s u) : u = { s with
    x := u.x, z := u.z, p := u.p, ffr := u.ffr, fpsr := u.fpsr, pstateSM := u.pstateSM, pstateZA := u.pstateZA,
    za := u.za, zt0 := u.zt0, mem := u.mem } := by
  cases h with
  | za f => rw [mapZA_rest]
  | zt0 v => rfl
  | mem m => rfl
  | z n v => rfl
  | mode sm za => rw [setZA_rest, setSM_rest]
  | x rt => rw [writeXZ_rest]

end Change

/-- Settles O40: an instruction that completes makes one change and moves pc. -/
theorem onlyNamedDestinationsChange : Obligations.OnlyNamedDestinationsChange := by
  intro i s t h
  obtain ⟨u, hchange, -, rfl⟩ := exec_next h
  have hmem : storesMemory i = false → u.mem = s.mem := mem_of_change hchange
  have hx : (∀ rt, i ≠ .mrsSVCR rt) → u.x = s.x := x_of_change hchange
  have hmapped := mapped_of_change hchange
  refine ⟨fun hi => ?named, hmem, hx, hmapped,
    congrArg (fun w : State => { w with pc := s.pc + 4#64 }) (rest_of_change hchange)⟩
  obtain ⟨hsm, hza, hfpsr, hp, hffr⟩ := registers_of_change hchange hi
  have hz : writesZ i = false → u.z = s.z := z_of_change hchange hi
  have hstorage : writesZA i = false → u.za = s.za := fun hw => (za_of_change hchange hza hw).2
  have hzt0 : writesZT0 i = false → u.zt0 = s.zt0 := zt0_of_change hchange hza
  exact ⟨hsm, hza, hfpsr, hp, hffr, hz, hstorage, hzt0⟩

/-! The checks before the effect. -/

theorem checked_of_no_feature {k : LegalClass} {s : State} {effect : Out} :
    checked false k s effect = .fault (.undefinedInstruction s.pc) := rfl

theorem checked_of_no_access {k : LegalClass} {s : State} {effect : Out}
    (ha : s.cfg.smeAccessEnabled.at s.el = false) : checked true k s effect = .fault (.smeAccessTrap s.pc) := by
  rw [checked, ha]
  rfl

/-- Settles O21: both checks stand before the check of legality in every instruction. -/
theorem undefinedThenAccessTrap : Obligations.UndefinedThenAccessTrap := by
  intro i s
  obtain ⟨effect, heffect⟩ := exec_eq_checked i s
  rw [heffect]
  refine ⟨fun hf => ?undefined, fun hf ha => ?trapped⟩
  case undefined => rw [hf, checked_of_no_feature]
  case trapped => rw [hf, checked_of_no_access ha]

end Sys2Proof.Proofs
end

section
/-! PROOFS. What a fault of an instruction can be (60_exceptions.md R320-R325; D15, D18). A fault is raised by the
checks before the effect, where no row is NonStreamingOnly, or by an effect that meets an address outside the launch
memory. -/

namespace Sys2Proof.Proofs

open Sys2Proof.Machine Sys2Proof.Laws

/-! The faults of an effect. -/

/-- The only fault an outcome can be is that of an access outside the launch memory, at the pc of `s`. -/
def FaultsOnlyOutsideMemory (s : State) (o : Out) : Prop := ∀ f, o = .fault f → f = .outsideLaunchMemory s.pc

section Effects

variable {s : State}

theorem faultsOnlyOutsideMemory_outside : FaultsOnlyOutsideMemory s (.fault (.outsideLaunchMemory s.pc)) :=
  fun _ h => (Host.Outcome.fault.inj h).symm

theorem faultsOnlyOutsideMemory_refused (r : Refusal) : FaultsOnlyOutsideMemory s (.refused r) :=
  fun _ h => nomatch h

/-- The last step of an instruction raises no fault, in whatever state the effect has left. -/
theorem faultsOnlyOutsideMemory_complete (u : State) : FaultsOnlyOutsideMemory s (complete u) := by
  intro f h
  unfold complete at h
  split at h
  · cases h
  · cases h

theorem faultsOnlyOutsideMemory_ite {c : Prop} [Decidable c] {x y : Out} (hx : FaultsOnlyOutsideMemory s x)
    (hy : FaultsOnlyOutsideMemory s y) : FaultsOnlyOutsideMemory s (if c then x else y) := by
  split
  · exact hx
  · exact hy

/-- The shape of every access: a check that refuses, a check of the launch memory, then the update. -/
theorem faultsOnlyOutsideMemory_access {c d : Prop} [Decidable c] [Decidable d] (r : Refusal) (u : State) :
    FaultsOnlyOutsideMemory s
      (if c then .refused r else if d then .fault (.outsideLaunchMemory s.pc) else complete u) :=
  faultsOnlyOutsideMemory_ite (faultsOnlyOutsideMemory_refused r)
    (faultsOnlyOutsideMemory_ite faultsOnlyOutsideMemory_outside (faultsOnlyOutsideMemory_complete u))

theorem faultsOnlyOutsideMemory_storeBytes (a : Nat) (bs : List Byte) :
    FaultsOnlyOutsideMemory s (storeBytes s a bs) := faultsOnlyOutsideMemory_access _ _

theorem faultsOnlyOutsideMemory_tileStore (es : ESize) (a : SliceMemOperands) :
    FaultsOnlyOutsideMemory s (tileStore es a s) :=
  faultsOnlyOutsideMemory_ite (faultsOnlyOutsideMemory_refused _) (faultsOnlyOutsideMemory_access _ _)

end Effects

/-! The faults of the checks. -/

/-- No row of the table is NonStreamingOnly, and behind its checks no instruction raises another fault than that of an
access outside the launch memory. -/
theorem exec_eq_checked_effect (i : Instr) (s : State) :
    ∃ feature k effect, exec i s = checked feature k s effect ∧ k ≠ .k5 ∧ FaultsOnlyOutsideMemory s effect := by
  induction i using instr_cases with
  | ldrArray a => exact ⟨_, .k2, loadArrayVector a s, rfl, nofun, faultsOnlyOutsideMemory_access _ _⟩
  | strArray a =>
    exact ⟨_, .k2, storeArrayVector a s, rfl, nofun, faultsOnlyOutsideMemory_ite
      (faultsOnlyOutsideMemory_refused _) (faultsOnlyOutsideMemory_storeBytes _ _)⟩
  | zeroTiles mask => exact ⟨_, .k2, zeroTilesEffect mask s, rfl, nofun, faultsOnlyOutsideMemory_complete _⟩
  | ldrTable r => exact ⟨_, .k2, loadTable r s, rfl, nofun, faultsOnlyOutsideMemory_access _ _⟩
  | strTable r =>
    exact ⟨_, .k2, storeTable r s, rfl, nofun, faultsOnlyOutsideMemory_ite
      (faultsOnlyOutsideMemory_refused _) (faultsOnlyOutsideMemory_storeBytes _ _)⟩
  | zeroTable => exact ⟨_, .k2, complete _, rfl, nofun, faultsOnlyOutsideMemory_complete _⟩
  | smstartSM | smstopSM | smstartZA | smstopZA | smstart | smstop | msrSVCR r | mrsSVCR r =>
    exact ⟨_, .k6, complete _, rfl, nofun, faultsOnlyOutsideMemory_complete _⟩
  | load es a => exact ⟨_, .k3, _, exec_tileLoad es a s, nofun, faultsOnlyOutsideMemory_access _ _⟩
  | store es a => exact ⟨_, .k3, _, exec_tileStore es a s, nofun, faultsOnlyOutsideMemory_tileStore es a⟩
  | toVector es a => exact ⟨_, .k3, _, exec_movaToVector es a s, nofun, faultsOnlyOutsideMemory_complete _⟩
  | toTile es a => exact ⟨_, .k3, _, exec_movaToTile es a s, nofun, faultsOnlyOutsideMemory_complete _⟩

/-- A class that is not NonStreamingOnly is illegal for want of a mode bit. -/
theorem illegalReason_of_ne_k5 {k : LegalClass} {sm za fa64 : Bool} {r : SmeReason} (hk : k ≠ .k5)
    (h : illegalReason k sm za fa64 = some r) : r = .smIsZero ∨ r = .zaIsZero := by
  cases k with
  | k1 => cases sm <;> simp_all [illegalReason]
  | k2 => cases za <;> simp_all [illegalReason]
  | k3 => cases sm <;> cases za <;> simp_all [illegalReason]
  | k4 => cases h
  | k5 => exact absurd rfl hk
  | k6 => cases h

/-- A fault behind the three checks is that of the first check that fails, or the effect's own. -/
theorem checked_eq_fault {feature : Bool} {k : LegalClass} {s : State} {effect : Out} {f : Fault}
    (h : checked feature k s effect = .fault f) :
    f = .undefinedInstruction s.pc ∨ f = .smeAccessTrap s.pc
      ∨ (∃ r, illegalReason k s.pstateSM s.pstateZA s.fa64Active = some r ∧ f = .smeIllegal r s.pc)
      ∨ effect = .fault f := by
  unfold checked takeException at h
  split at h
  · exact .inl (Host.Outcome.fault.inj h).symm
  · split at h
    · exact .inr (.inl (Host.Outcome.fault.inj h).symm)
    · split at h
      · next r hr => exact .inr (.inr (.inl ⟨r, hr, (Host.Outcome.fault.inj h).symm⟩))
      · exact .inr (.inr (.inr h))

/-- Settles O29: a check raises three kinds of fault and the effect a fourth, each with the pc of the state before. -/
theorem faultsNameTheirInstruction : Obligations.FaultsNameTheirInstruction := by
  intro i s f h
  obtain ⟨feature, k, effect, hexec, hk, heffect⟩ := exec_eq_checked_effect i s
  rcases checked_eq_fault (hexec.symm.trans h) with rfl | rfl | ⟨r, hr, rfl⟩ | hf
  · exact .inl rfl
  · exact .inr (.inl rfl)
  · rcases illegalReason_of_ne_k5 hk hr with rfl | rfl
    · exact .inr (.inr (.inl rfl))
    · exact .inr (.inr (.inr (.inl rfl)))
  · exact .inr (.inr (.inr (.inr (heffect f hf))))

end Sys2Proof.Proofs
end

section
/-! PROOFS. What every step keeps: the parameters and the lengths, and the consistency of the state
(70_reset_and_hazards.md R351; 10_state.md R20-R38; 60_exceptions.md R330). Consistency is taken through a step a part
at a time: each part holds after every kind of change, and pc is in one of them only. -/

namespace Sys2Proof.Proofs

open Sys2Proof.Machine Sys2Proof.Safety Sys2Proof.Laws

/-- A step that answers a next state ran a well-formed instruction, since every decoded one is. -/
theorem step_next_wf {s t : State} (h : step s = .next t) : ∃ i : Instr, i.wf = true ∧ exec i s = .next t := by
  cases hf : s.fetch with
  | none => rw [step_of_no_fetch hf] at h; cases h
  | some w =>
    cases hd : decodeWord w with
    | error e => rw [step_of_rejected hf hd] at h; cases h
    | ok i =>
      obtain ⟨hwf, -⟩ := encodeAfterDecode w i hd
      exact ⟨i, hwf, (step_of_decoded hf hd).symm.trans h⟩

/-! The parameters and the lengths. -/

theorem constants_of_change {i : Instr} {s u : State} (h : Change i s u) :
    u.cfg = s.cfg ∧ u.el = s.el ∧ u.sec = s.sec ∧ u.smcrLen = s.smcrLen ∧ u.zcrLen = s.zcrLen ∧ u.text = s.text
      ∧ u.sp = s.sp ∧ u.nzcv = s.nzcv := by
  rw [rest_of_change h]
  exact ⟨rfl, rfl, rfl, rfl, rfl, rfl, rfl, rfl⟩

/-- Settles O32: no change reaches the fields that the lengths are selected from, or the other constant ones. -/
theorem stepKeepsLengthsAndLaunchParameters : Obligations.StepKeepsLengthsAndLaunchParameters := by
  intro s t h
  obtain ⟨-, i, hi⟩ := step_next h
  obtain ⟨u, hchange, -, rfl⟩ := exec_next hi
  obtain ⟨hcfg, hel, hsec, hsmcr, hzcr, hrest⟩ := constants_of_change hchange
  exact ⟨svl_congr hcfg hel hsmcr, nsvl_congr hcfg hel hzcr, hcfg, hel, hsec, hsmcr, hzcr, hrest⟩

/-! The implemented bits. -/

/-- A write below a boundary sets no bit above it. -/
theorem lowBits_mergeLow_of_le {W m n : Nat} {old : BitVec W} (new : BitVec W) (hmn : m ≤ n)
    (hold : lowBits n old = old) : lowBits n (mergeLow m old new) = mergeLow m old new := by
  apply BitVec.eq_of_getLsbD_eq
  intro b _
  by_cases hb : b < n
  · simp [hb]
  · rw [getLsbD_lowBits, getLsbD_mergeLow, if_neg (by omega), ← hold, getLsbD_lowBits]
    simp [hb]

theorem svlBits_le_maxSVL {s : State} (hok : s.cfg.ok = true) : s.svlBits ≤ s.cfg.maxSVL.bits := by
  obtain ⟨-, hle, -⟩ := selectedLengthsAreImplemented s hok
  exact hle

theorem maxSVL_le_maxZ {c : Params} (hf : c.haveSME = true) : c.maxSVL.bits ≤ maxZ c := by
  rw [maxZ, hf]
  exact Nat.le_max_right _ _

theorem mapZA_getElem (s : State) (f : Nat → VecReg → VecReg) (k : Fin 256) :
    (s.mapZA f).za[k] = mergeLow s.svlBits s.za[k] (f k.val (lowBits s.svlBits s.za[k])) := by
  simp [State.mapZA]

section Implemented

variable {s : State}

/-- A change of ZA storage is one of the accessible bits, and in array vectors of the current SVL only. -/
theorem onlyImplementedBits_mapZA {f : Nat → VecReg → VecReg} (h : OnlyImplementedBits s) (hok : s.cfg.ok = true)
    (hkept : ∀ k v, s.svlB ≤ k → f k v = v) : OnlyImplementedBits (s.mapZA f) := by
  have hsvl := svlBits_le_maxSVL hok
  have hvectors : s.svlB ≤ s.cfg.maxSVL.bits / 8 := Nat.div_le_div_right hsvl
  refine ⟨by simpa using h.z, by simpa using h.p, by simpa using h.ffr, fun k => ?bits, fun k hk => ?rows,
    by simpa using h.zt0⟩
  case bits =>
    rw [mapZA_cfg, mapZA_getElem]
    exact lowBits_mergeLow_of_le _ hsvl (h.za k)
  case rows =>
    rw [mapZA_cfg] at hk
    rw [mapZA_getElem, hkept k.val _ (hvectors.trans hk), mergeLow_self]
    exact h.zaRows k hk

/-- In Streaming SVE mode a vector register is written below SVL. -/
theorem onlyImplementedBits_writeZ (h : OnlyImplementedBits s) (hok : s.cfg.ok = true)
    (hf : s.cfg.haveSME = true) (hsm : s.pstateSM = true) (n : Fin 32) (v : VecReg) :
    OnlyImplementedBits (s.writeZ n v) := by
  have hvl : s.vlBits ≤ maxZ s.cfg := by
    rw [State.vlBits, vl_streaming hsm]
    exact (svlBits_le_maxSVL hok).trans (maxSVL_le_maxZ hf)
  refine ⟨fun m => ?z, h.p, h.ffr, h.za, h.zaRows, h.zt0⟩
  rw [writeZ_cfg, writeZ_getElem]
  split
  · exact lowBits_mergeLow_of_le v hvl (h.z m)
  · exact h.z m

theorem onlyImplementedBits_setSM (h : OnlyImplementedBits s) (v : Bool) : OnlyImplementedBits (s.setSM v) := by
  by_cases hv : v = s.pstateSM
  · rwa [setSM_same hv]
  · rw [setSM_change hv]
    exact ⟨fun n => by simp, fun n => by simp, lowBits_zero _, h.za, h.zaRows, h.zt0⟩

/-- Where ZT0 is not implemented, enabling ZA storage keeps the zero that ZT0 holds. -/
theorem onlyImplementedBits_setZA (h : OnlyImplementedBits s) (v : Bool) : OnlyImplementedBits (s.setZA v) := by
  have hstorage : ∀ (n : Nat) (k : Fin 256),
      lowBits n (Vector.replicate 256 0#2048)[k] = (Vector.replicate 256 0#2048)[k] := by simp
  have hrows : ∀ k : Fin 256, (Vector.replicate 256 0#2048)[k] = 0#2048 := by simp
  by_cases hv : v = s.pstateZA
  · rwa [setZA_same hv]
  · cases v with
    | true =>
      rw [setZA_enable (by simpa using hv)]
      refine ⟨h.z, h.p, h.ffr, hstorage _, fun k _ => hrows k, fun (h2 : s.cfg.haveSME2 = false) => ?_⟩
      simpa [h2] using h.zt0 h2
    | false =>
      rw [setZA_disable (by simpa using hv)]
      exact ⟨h.z, h.p, h.ffr, hstorage _, fun k _ => hrows k, fun _ => rfl⟩

theorem onlyImplementedBits_of_change {i : Instr} {u : State} (hwf : i.wf = true) (hok : s.cfg.ok = true)
    (h : OnlyImplementedBits s) (hchange : Change i s u) : OnlyImplementedBits u := by
  cases hchange with
  | za f hi hz hf hkept => exact onlyImplementedBits_mapZA h hok (hkept hwf)
  | zt0 v hi hz hf => exact { h with zt0 := fun hno => absurd (hf.symm.trans hno) Bool.false_ne_true.symm }
  | mem m => exact { h with }
  | z n v hi hsm hf => exact onlyImplementedBits_writeZ h hok hf hsm n v
  | mode sm za => exact onlyImplementedBits_setZA (onlyImplementedBits_setSM h sm) za
  | x rt => cases rt <;> exact { h with }

end Implemented

/-! The other parts of consistency. -/

/-- The mode bits change only where FEAT_SME is implemented. -/
theorem modesPresent_of_change {i : Instr} {s u : State}
    (h : s.cfg.haveSME = false → s.pstateSM = false ∧ s.pstateZA = false) (hchange : Change i s u)
    (hno : s.cfg.haveSME = false) : u.pstateSM = false ∧ u.pstateZA = false := by
  cases hchange with
  | mode sm za hi hf => exact absurd (hf.symm.trans hno) Bool.false_ne_true.symm
  | _ => simpa using h hno

/-- With PSTATE.ZA = 0 the state carries no contents of ZA storage and ZT0. -/
def NoContents (s : State) : Prop := s.pstateZA = false → s.za = Vector.replicate 256 0#2048 ∧ s.zt0 = 0#512

theorem noContents_setZA {s : State} (h : NoContents s) (v : Bool) : NoContents (s.setZA v) := by
  intro hza
  obtain rfl : v = false := (setZA_pstateZA s v).symm.trans hza
  cases hs : s.pstateZA with
  | false =>
    rw [setZA_same hs.symm]
    exact h hs
  | true =>
    rw [setZA_disable hs]
    exact ⟨rfl, rfl⟩

/-- The contents are written only while PSTATE.ZA is 1, and discarded when it becomes 0. -/
theorem noContents_of_change {i : Instr} {s u : State} (h : NoContents s) (hchange : Change i s u) :
    NoContents u := by
  cases hchange with
  | za f hi hz =>
    intro hza
    exact absurd (hz.symm.trans ((mapZA_pstateZA s f).symm.trans hza)) Bool.false_ne_true.symm
  | zt0 v hi hz => exact fun hza => absurd (hz.symm.trans hza) Bool.false_ne_true.symm
  | mem m => exact h
  | z n v => exact h
  | mode sm za => exact noContents_setZA (by simpa [NoContents] using h) za
  | x rt => simpa [NoContents] using h

/-- A store keeps the canonical form, and nothing else reaches memory. -/
theorem memWf_of_change {i : Instr} {s u : State} (h : s.mem.wf = true) (hchange : Change i s u) :
    u.mem.wf = true := by
  cases hchange with
  | mem m hi hd hw => exact hw h
  | _ => simpa using h

theorem pc_add_four_aligned {pc : DWord} (h : pc.toNat % 4 = 0) : (pc + 4#64).toNat % 4 = 0 := by
  bv_omega

theorem consistent_of_change {i : Instr} {s u : State} (hwf : i.wf = true) (h : Consistent s)
    (hchange : Change i s u) : Consistent u := by
  obtain ⟨hcfg, -, -, -, -, htext, -⟩ := constants_of_change hchange
  exact {
    params := by rw [hcfg]; exact h.params
    modes := by rw [hcfg]; exact modesPresent_of_change h.modes hchange
    noContents := noContents_of_change h.noContents hchange
    mem := memWf_of_change h.mem hchange
    text := by rw [htext]; exact h.text
    pcAligned := by rw [Change_pc hchange]; exact h.pcAligned
    implemented := onlyImplementedBits_of_change hwf h.params h.implemented hchange }

/-- Consistency says of pc only that it is aligned. -/
theorem consistent_of_pc {s : State} (h : Consistent s) {pc : DWord} (hpc : pc.toNat % 4 = 0) :
    Consistent { s with pc := pc } :=
  { h with pcAligned := hpc, implemented := { h.implemented with } }

/-- Settles O30: a step makes one change of a well-formed instruction, which keeps the state consistent, and moves pc by
one word. -/
theorem stepKeepsConsistent : Obligations.StepKeepsConsistent := by
  intro s t h hstep
  obtain ⟨i, hwf, hi⟩ := step_next_wf hstep
  obtain ⟨u, hchange, -, rfl⟩ := exec_next hi
  exact consistent_of_pc (consistent_of_change hwf h hchange) (pc_add_four_aligned h.pcAligned)

/-- Settles O31: the parameters of reset are the default ones, both mode bits are clear, no memory is listed, and every
register is zero. -/
theorem resetIsConsistent : Obligations.ResetIsConsistent where
  params := by decide
  modes _ := ⟨rfl, rfl⟩
  noContents _ := ⟨rfl, rfl⟩
  mem := rfl
  text := rfl
  pcAligned := rfl
  implemented :=
    { z := fun n => by simp [State.reset]
      p := fun n => by simp [State.reset]
      ffr := lowBits_zero _
      za := fun k => by simp [State.reset]
      zaRows := fun k _ => by simp [State.reset]
      zt0 := fun _ => rfl }

end Sys2Proof.Proofs
end
